-- ==== Sys2Proof/Word.lean ====
section
/-! DEFINITION. The word types of the RTCP packet codec: the byte, and the SSRC (spec/00_scope.md R5). Every other quantity is a natural number or a bit vector of the width its register has (R7, R88). -/

namespace Sys2Proof

/-- The addressable unit of both memories: 8 bits (20_memory.md R50). -/
abbrev Byte := BitVec 8

/-- A 32-bit stream identity (00_scope.md R5, "SSRC width"). -/
abbrev Ssrc := BitVec 32

end Sys2Proof
end

