-- ==== Sys2Proof/Config.lean ====
section
/-! DEFINITION. The implementation parameters of spec/00_scope.md R5, and the free values of what the spec leaves without value. -/

namespace Sys2Proof

/-- The parameters the model takes (00_scope.md R5). A machine carries one record of them and no step
writes it, so a statement over every state is a statement for every value of the parameters (log 5). -/
structure Params where
  /-- `PSFB_PT`, the packet type of the payload-specific feedback messages. -/
  psfbPt : BitVec 8
  /-- `FIR_FMT`, the format of a FIR block. -/
  firFmt : BitVec 5
  /-- `RPSI_FMT`, the format of an RPSI block. -/
  rpsiFmt : BitVec 5
  /-- `RX_SIZE`, the size of the RX memory in bytes. -/
  rxSize : Nat
  /-- `TX_SIZE`, the size of the TX memory in bytes. -/
  txSize : Nat
  /-- `RPSI_CANONICAL`, how the second `BadPadding` clause is read (44_rpsi.md R142). -/
  rpsiCanonical : Bool
  deriving DecidableEq, Repr

namespace Config

/-- The values of spec/00_scope.md R5 for this hardware: 206, 4, 3 and true are the spec's defaults
(PRESUMED by the spec itself, D2 and D9); the two memory sizes are OPEN there, and 262144, the size of
the largest block (30_encoding.md R71), is this model's DESIGN CHOICE for the machine at reset (log 5). -/
def params : Params where
  psfbPt := 206
  firFmt := 4
  rpsiFmt := 3
  rxSize := 262144
  txSize := 262144
  rpsiCanonical := true

/-- What `CUR` holds before the host first writes it: the spec gives it no value (10_state.md R32, R33:
"never as zero"), so nothing is known of this number (log 6). -/
opaque powerOnCur : Nat

/-- What `MAXLEN` holds before the host first writes it, of which likewise nothing is known (log 6). -/
opaque powerOnMaxlen : Nat

/-- Whether the continuation number `id`, installed by the host, answers success to an invocation before which
`FLUSHLOG` held `n` records. The block "places no condition on what `K` returns" (45_builder.md R161), so
nothing is known of it (log 23). -/
opaque kSuccess (id n : Nat) : Bool

/-- The cursor that continuation hands back with that answer, any natural number (log 23). -/
opaque kCursor (id n : Nat) : Nat

/-- The bytes of TX it has written by then, in order (log 23). -/
opaque kWrites (id n : Nat) : List (Nat × Byte)

end Config

end Sys2Proof
end

