-- ==== Sys2Proof/Syntax.lean ====
section
/-! DEFINITION. The operation set of spec/00_scope.md R2, one constructor per row of spec/opcode_table.json, and the two records an operation arrives in. -/

namespace Sys2Proof

/-- The 19 operations (00_scope.md R2), each with the operands its own rule gives it. Addresses and
lengths are natural numbers (30_encoding.md R88); a value has the width its rule gives. -/
inductive Instr where
  /-- `RDBE8 a` (40_bytecodec.md R101). -/
  | rdbe8 (a : Nat)
  /-- `RDBE16 a` (R102). -/
  | rdbe16 (a : Nat)
  /-- `RDBE24 a` (R103). -/
  | rdbe24 (a : Nat)
  /-- `RDBE32 a` (R104). -/
  | rdbe32 (a : Nat)
  /-- `WRBE8 a, v` (R105). -/
  | wrbe8 (a : Nat) (v : BitVec 8)
  /-- `WRBE16 a, v` (R106). -/
  | wrbe16 (a : Nat) (v : BitVec 16)
  /-- `WRBE24 a, v` (R107). -/
  | wrbe24 (a : Nat) (v : BitVec 24)
  /-- `WRBE32 a, v` (R108). -/
  | wrbe32 (a : Nat) (v : BitVec 32)
  /-- `HDR.PARSE base, avail` (41_header.md R110). -/
  | hdrParse (base avail : Nat)
  /-- `DISPATCH` (R112). -/
  | dispatch
  /-- `HDR.WR c, f, t, block_len` (R113). -/
  | hdrWr (c : Nat) (f : BitVec 5) (t : BitVec 8) (blockLen : Nat)
  /-- `FB.RD p` (42_feedback_common.md R120). -/
  | fbRd (p : Nat)
  /-- `FB.WR c, s, m` (R121). -/
  | fbWr (c : Nat) (sender media : Ssrc)
  /-- `FIR.PARSE` (43_fir.md R130). -/
  | firParse
  /-- `FIR.BUILD` (R131). -/
  | firBuild
  /-- `RPSI.PARSE` (44_rpsi.md R140). -/
  | rpsiParse
  /-- `RPSI.BUILD` (R141). -/
  | rpsiBuild
  /-- `BLD.RESERVE block_len` (45_builder.md R160). -/
  | bldReserve (blockLen : Nat)
  /-- `BLD.COMMIT end` (R162). -/
  | bldCommit (endOff : Nat)
  deriving DecidableEq, Repr

/-- A host command: the record `(op, base, avail)` of 30_encoding.md R79. -/
structure Command where
  op : BitVec 8
  base : Nat
  avail : Nat
  deriving DecidableEq, Repr

/-- An operation selector with its operands in the order its rule lists them; an operand that is not
listed is 0 and one too many is ignored. The record of an internal micro-operation is the model's own
(log 2), a host command is the record `(op, [base, avail])`. -/
structure OpRecord where
  op : BitVec 8
  args : List Nat
  deriving DecidableEq, Repr

end Sys2Proof
end

