-- ==== Sys2Proof/WellFormed.lean ====
section
/-! DEFINITION. Which operations the spec allows: the limits its rules put on an operand beyond the operand's width. -/

namespace Sys2Proof

/-- A block length as `HDR.WR` takes it: "a multiple of 4 with `4 <= block_len <= 262144`"
(41_header.md R113). -/
def wfHeaderLen (n : Nat) : Bool := n % 4 == 0 && decide (4 ≤ n) && decide (n ≤ 262144)

/-- A block length as `BLD.RESERVE` takes it: "a positive multiple of 4" (45_builder.md R160). -/
def wfReserveLen (n : Nat) : Bool := n % 4 == 0 && decide (0 < n)

/-- The operations the spec allows. Every other limit of the spec is the width of an operand and holds
by the operand's type. -/
def Instr.wf : Instr → Bool
  | .rdbe8 _ => true
  | .rdbe16 _ => true
  | .rdbe24 _ => true
  | .rdbe32 _ => true
  | .wrbe8 _ _ => true
  | .wrbe16 _ _ => true
  | .wrbe24 _ _ => true
  | .wrbe32 _ _ => true
  | .hdrParse _ _ => true
  | .dispatch => true
  | .hdrWr _ _ _ n => wfHeaderLen n
  | .fbRd _ => true
  | .fbWr _ _ _ => true
  | .firParse => true
  | .firBuild => true
  | .rpsiParse => true
  | .rpsiBuild => true
  | .bldReserve n => wfReserveLen n
  | .bldCommit _ => true

end Sys2Proof
end

