-- ==== Sys2Proof/Decode.lean ====
section
/-! DEFINITION. From a selector and its operands to an operation, and back (00_scope.md R2, 30_encoding.md R79). -/

namespace Sys2Proof

/-- Why a record is no operation. -/
inductive Reject where
  /-- No operation of 00_scope.md R2 has this selector. -/
  | noSuchOperation (op : BitVec 8)
  /-- An operand does not fit its width. -/
  | operandTooWide (op : BitVec 8)
  /-- A micro-operation, which a host cannot issue (30_encoding.md R79). -/
  | notHostIssuable (op : BitVec 8)
  /-- A host operation, which the block never issues to itself. -/
  | notInternal (op : BitVec 8)
  deriving DecidableEq, Repr

/-- The op id of 00_scope.md R2; `FATAL.op` names an operation by it. -/
def Instr.opId : Instr → BitVec 8
  | .rdbe8 _ => 0x01
  | .rdbe16 _ => 0x02
  | .rdbe24 _ => 0x03
  | .rdbe32 _ => 0x04
  | .wrbe8 _ _ => 0x09
  | .wrbe16 _ _ => 0x0A
  | .wrbe24 _ _ => 0x0B
  | .wrbe32 _ _ => 0x0C
  | .hdrParse _ _ => 0x10
  | .dispatch => 0x11
  | .hdrWr _ _ _ _ => 0x12
  | .fbRd _ => 0x18
  | .fbWr _ _ _ => 0x19
  | .firParse => 0x20
  | .firBuild => 0x21
  | .rpsiParse => 0x30
  | .rpsiBuild => 0x31
  | .bldReserve _ => 0x40
  | .bldCommit _ => 0x41

/-- The six operations a host may issue (00_scope.md R2, column "issued by"). -/
def Instr.hostIssuable : Instr → Bool
  | .hdrParse _ _ => true
  | .dispatch => true
  | .firParse => true
  | .firBuild => true
  | .rpsiParse => true
  | .rpsiBuild => true
  | .rdbe8 _ => false
  | .rdbe16 _ => false
  | .rdbe24 _ => false
  | .rdbe32 _ => false
  | .wrbe8 _ _ => false
  | .wrbe16 _ _ => false
  | .wrbe24 _ _ => false
  | .wrbe32 _ _ => false
  | .hdrWr _ _ _ _ => false
  | .fbRd _ => false
  | .fbWr _ _ _ => false
  | .bldReserve _ => false
  | .bldCommit _ => false

/-- The `k`th operand of a record: 0 where the record lists none. -/
def operand (args : List Nat) (k : Nat) : Nat := args.getD k 0

/-- An operand of `w` bits handed to `k`, rejected where it does not fit (40_bytecodec.md R100: "writes
require `v < 256^n`"). -/
def narrow (op : BitVec 8) (w n : Nat) (k : BitVec w → Except Reject Instr) : Except Reject Instr :=
  if n < 2 ^ w then k (BitVec.ofNat w n) else .error (.operandTooWide op)

/-- A block length travels in a record as the header's length field, `block_len/4 − 1`
(30_encoding.md R71, R87; log 2). -/
def lenOfField (l : Nat) : Nat := 4 * (l + 1)

/-- The length field of a block of `n` bytes: "length(2B) = total_bytes/4 − 1" (30_encoding.md R71, R87). -/
def fieldOfLen (n : Nat) : Nat := n / 4 - 1

/-- The operation a selector and its operands stand for. -/
def decode (op : BitVec 8) (args : List Nat) : Except Reject Instr :=
  match op.toNat with
  | 0x01 => .ok (.rdbe8 (operand args 0))
  | 0x02 => .ok (.rdbe16 (operand args 0))
  | 0x03 => .ok (.rdbe24 (operand args 0))
  | 0x04 => .ok (.rdbe32 (operand args 0))
  | 0x09 => narrow op 8 (operand args 1) fun v => .ok (.wrbe8 (operand args 0) v)
  | 0x0A => narrow op 16 (operand args 1) fun v => .ok (.wrbe16 (operand args 0) v)
  | 0x0B => narrow op 24 (operand args 1) fun v => .ok (.wrbe24 (operand args 0) v)
  | 0x0C => narrow op 32 (operand args 1) fun v => .ok (.wrbe32 (operand args 0) v)
  | 0x10 => .ok (.hdrParse (operand args 0) (operand args 1))
  | 0x11 => .ok .dispatch
  | 0x12 =>
    narrow op 5 (operand args 1) fun f =>
      narrow op 8 (operand args 2) fun t =>
        narrow op 16 (operand args 3) fun l =>
          .ok (.hdrWr (operand args 0) f t (lenOfField l.toNat))
  | 0x18 => .ok (.fbRd (operand args 0))
  | 0x19 =>
    narrow op 32 (operand args 1) fun s =>
      narrow op 32 (operand args 2) fun m => .ok (.fbWr (operand args 0) s m)
  | 0x20 => .ok .firParse
  | 0x21 => .ok .firBuild
  | 0x30 => .ok .rpsiParse
  | 0x31 => .ok .rpsiBuild
  | 0x40 => .ok (.bldReserve (lenOfField (operand args 0)))
  | 0x41 => .ok (.bldCommit (operand args 0))
  | _ => .error (.noSuchOperation op)

/-- What a host command asks for: only the six host operations, `base` and `avail` being read by
`HDR.PARSE` alone (30_encoding.md R79). -/
def decodeCommand (c : Command) : Except Reject Instr :=
  match decode c.op [c.base, c.avail] with
  | .ok i => if i.hostIssuable then .ok i else .error (.notHostIssuable c.op)
  | .error r => .error r

/-- What a record on the block's own micro-operation port asks for: only the thirteen internal
operations (00_scope.md R2; log 1). -/
def decodeMicro (r : OpRecord) : Except Reject Instr :=
  match decode r.op r.args with
  | .ok i => if i.hostIssuable then .error (.notInternal r.op) else .ok i
  | .error e => .error e

/-- A word of `nbits` bits as spec/opcode_table.json numbers them: the 8-bit selector, every operand 0. -/
def decodeTableWord (nbits w : Nat) : Option Instr :=
  if nbits = 8 ∧ w < 256 then
    match decode (BitVec.ofNat 8 w) [] with
    | .ok i => some i
    | .error _ => none
  else none

/-- The record of an operation: its op id and its operands in the order of its rule. -/
def encode : Instr → OpRecord
  | .rdbe8 a => ⟨0x01, [a]⟩
  | .rdbe16 a => ⟨0x02, [a]⟩
  | .rdbe24 a => ⟨0x03, [a]⟩
  | .rdbe32 a => ⟨0x04, [a]⟩
  | .wrbe8 a v => ⟨0x09, [a, v.toNat]⟩
  | .wrbe16 a v => ⟨0x0A, [a, v.toNat]⟩
  | .wrbe24 a v => ⟨0x0B, [a, v.toNat]⟩
  | .wrbe32 a v => ⟨0x0C, [a, v.toNat]⟩
  | .hdrParse base avail => ⟨0x10, [base, avail]⟩
  | .dispatch => ⟨0x11, []⟩
  | .hdrWr c f t n => ⟨0x12, [c, f.toNat, t.toNat, fieldOfLen n]⟩
  | .fbRd p => ⟨0x18, [p]⟩
  | .fbWr c s m => ⟨0x19, [c, s.toNat, m.toNat]⟩
  | .firParse => ⟨0x20, []⟩
  | .firBuild => ⟨0x21, []⟩
  | .rpsiParse => ⟨0x30, []⟩
  | .rpsiBuild => ⟨0x31, []⟩
  | .bldReserve n => ⟨0x40, [fieldOfLen n]⟩
  | .bldCommit e => ⟨0x41, [e]⟩

end Sys2Proof
end

