-- ==== Sys2Proof/Machine/State.lean ====
section
/-! DEFINITION. The state of the RTCP packet codec and of its interface (spec/10_state.md), plain data; the events of the host (70_reset_and_hazards.md R214); the reasons a step can stop; and the state at reset. -/

namespace Sys2Proof.Machine

/-- A byte memory: the bytes that hold a value, addresses strictly rising. An address that is not listed
is a byte that holds no value (10_state.md R32, R33; log 7). -/
abbrev Memory := List Host.Cell

/-- `STATUS`, the outcome of the last operation that ended recoverably (10_state.md R25); its 3-bit codes
are `Status.code`. -/
inductive Status where
  | ok
  | malformedHeader
  | tooShort
  | badAlignment
  | badPadding
  | buildFailed
  deriving DecidableEq, Repr

/-- The causes of a fatal assertion (10_state.md R26); their 3-bit codes are `FatalCause.code`. -/
inductive FatalCause where
  | wrongDispatch
  | emptyFirList
  | cursorInvariant
  | lengthOverflow
  | outOfBounds
  | invalidRegister
  | badCommand
  deriving DecidableEq, Repr

/-- What the set fatal latch records: `FATAL.cause` and `FATAL.op` (10_state.md R26). -/
structure FatalRecord where
  cause : FatalCause
  op : BitVec 8
  deriving DecidableEq, Repr

/-- The fields of `HDR` (10_state.md R21). -/
structure Hdr where
  version : BitVec 2
  hasPadding : Bool
  formatOrCount : BitVec 5
  packetType : BitVec 8
  lengthWords : BitVec 16
  base : Nat
  deriving DecidableEq, Repr

/-- One FIR entry (10_state.md R22). -/
structure Request where
  ssrc : Ssrc
  seqNr : BitVec 8
  deriving DecidableEq, Repr

/-- The fields of `FIR` (10_state.md R22); `FIR.n` is the length of `reqs`. -/
structure Fir where
  senderSsrc : Ssrc
  mediaSsrc : Ssrc
  reqs : List Request
  deriving DecidableEq, Repr

/-- The fields of `RPSI` (10_state.md R23). -/
structure Rpsi where
  senderSsrc : Ssrc
  mediaSsrc : Ssrc
  payloadType : BitVec 7
  pictureId : BitVec 64
  deriving DecidableEq, Repr

/-- Which message a block is (41_header.md R112); the numbers are `Kind.code`. -/
inductive Kind where
  | unknown
  | fir
  | rpsi
  deriving DecidableEq, Repr

/-- What an operation returns besides its status (log 8): the number of a ByteCodec read (40_bytecodec.md
R101 to R104), the two SSRCs of `FB.RD` (R120), the kind of `DISPATCH` (R112), whether `BLD.RESERVE`
found room (R160). -/
inductive Result where
  | nothing
  | value (v : Nat)
  | ssrcs (sender media : Ssrc)
  | kind (k : Kind)
  | room (ok : Bool)
  deriving DecidableEq, Repr

/-- The operation that waits for the flush continuation. -/
inductive Builder where
  | fir
  | rpsi
  /-- `BLD.RESERVE` run by itself. -/
  | reserve (blockLen : Nat)
  deriving DecidableEq, Repr

/-- One outstanding invocation of `K` (45_builder.md R160): who waits, the cursor passed, and the bytes
`TX[0 .. min(c, TX_SIZE) − 1]` as they were before the call. -/
structure Invocation where
  builder : Builder
  cursor : Nat
  handed : Memory
  deriving DecidableEq, Repr

/-- Between operations, or inside an invocation of `K`, the only point where an operation is interrupted
(20_memory.md R59; log 9). -/
inductive Phase where
  | idle
  | inK (k : Invocation)
  deriving DecidableEq, Repr

/-- One record of `FLUSHLOG` (45_builder.md R160, 10_state.md R30). -/
structure Flush where
  cursor : Nat
  handed : Memory
  success : Bool
  newCursor : Nat
  deriving DecidableEq, Repr

/-- What one invocation of `K` answers (45_builder.md R161): success or failure, the new cursor, and the
TX bytes it wrote, in order, since its last `writeTx` (log 4). -/
structure KAnswer where
  success : Bool
  cursor : Nat
  writes : List Host.Cell
  deriving DecidableEq, Repr

/-- A continuation the host installs (70_reset_and_hazards.md R202), which answers every invocation by
itself: one of the two reference continuations of 45_builder.md R161, or any other, whose answers are free
values (log 23). -/
inductive Continuation where
  /-- `K_reset`. -/
  | kReset
  /-- `K_fail`. -/
  | kFail
  /-- The continuation with the number `id`. -/
  | other (id : Nat)
  deriving DecidableEq, Repr

/-- What a host may read (10_state.md R31). -/
inductive HostView where
  | hdr
  | fir
  | rpsi
  | status
  | fatal
  | rx
  | tx
  | cur
  | maxlen
  deriving DecidableEq, Repr

/-- One action of the world outside the block (70_reset_and_hazards.md R214, 10_state.md R31). -/
inductive Event where
  /-- A host command (30_encoding.md R79). -/
  | command (c : Command)
  /-- The block's own issue of one micro-operation by itself (log 1). -/
  | micro (r : OpRecord)
  /-- The host writes the whole register `FIR` (10_state.md R24). -/
  | writeFir (v : Fir)
  /-- The host writes the whole register `RPSI` (10_state.md R24). -/
  | writeRpsi (v : Rpsi)
  /-- The host writes bytes into RX from address `a` on. -/
  | writeRx (a : Nat) (bytes : List Byte)
  /-- The host, or `K` while it is invoked, writes bytes into TX from address `a` on. -/
  | writeTx (a : Nat) (bytes : List Byte)
  /-- The host, or `K` while it is invoked, writes `CUR`. -/
  | setCur (n : Nat)
  /-- The host writes `MAXLEN`. -/
  | setMaxlen (n : Nat)
  /-- The host installs a continuation, or takes the one installed away (70_reset_and_hazards.md R202). -/
  | installK (c : Option Continuation)
  /-- The flush continuation returns (45_builder.md R161). -/
  | kReturn (a : KAnswer)
  /-- The host reads a register or a memory. -/
  | read (v : HostView)
  /-- The reset input (70_reset_and_hazards.md R200). -/
  | reset
  deriving DecidableEq, Repr

/-- The state of the block and of its interface (10_state.md R20), with the model's own fields `params`,
`curWritten` and `maxlenWritten`, `result`, `phase` and `inbox` (logs 5, 22, 8, 9, 3). -/
structure State where
  /-- The implementation parameters (00_scope.md R5); no step writes them. -/
  params : Params
  /-- `HDR` (R21); `none` is the validity tag `invalid` (R24). -/
  hdr : Option Hdr
  /-- `FIR` (R22); `none` is the validity tag `invalid`. -/
  fir : Option Fir
  /-- `RPSI` (R23); `none` is the validity tag `invalid`. -/
  rpsi : Option Rpsi
  /-- `STATUS` (R25). -/
  status : Status
  /-- `FATAL` (R26); `none` is `FATAL.set = 0`. -/
  fatal : Option FatalRecord
  /-- `RX` (R27). -/
  rx : Memory
  /-- `TX` (R28). -/
  tx : Memory
  /-- `CUR` (R28). -/
  cur : Nat
  /-- `MAXLEN` (R28). -/
  maxlen : Nat
  /-- `CUR` has been written by the host or by `K` (R32, R33; 70_reset_and_hazards.md R203). -/
  curWritten : Bool
  /-- `MAXLEN` has been written by the host (R32, R33; 70_reset_and_hazards.md R203). -/
  maxlenWritten : Bool
  /-- `K` (R28); `none` is no continuation installed (R32), and then `K` answers by events (log 23). -/
  installed : Option Continuation
  /-- `FLUSHLOG`, oldest first (R30). -/
  flushLog : List Flush
  /-- What the last operation that returns a result returned. -/
  result : Result
  /-- Between operations, or inside an invocation of `K`. -/
  phase : Phase
  /-- The host's actions still to come, the next one first. -/
  inbox : List Event
  deriving DecidableEq, Repr

/-- Why the machine stops with a fault. -/
inductive Fault where
  /-- Raised by every operation that reads RX (`RDBE8` to `RDBE32`, `HDR.PARSE`, `FB.RD`, `FIR.PARSE`,
  `RPSI.PARSE`) when the byte at address `a`, inside RX, holds no value because the host has not written
  it (10_state.md R33: "The model must treat a read of such state by an operation as a fault"). Safe. -/
  | rxNoValue (a : Nat)
  deriving DecidableEq, Repr

/-- Why the model gives a step no meaning. -/
inductive Refusal where
  /-- An operation whose meaning is not written yet; no arm of `exec` answers it in this model. Safe. -/
  | notModelled (mnemonic : String)
  /-- Raised by every step while `FIR_FMT = RPSI_FMT`: 00_scope.md R5, "the model refuses such a
  configuration". Safe. -/
  | ambiguousFormats
  /-- Raised when the host acts while an operation runs, otherwise than 10_state.md R31 lets it inside `K`
  (70_reset_and_hazards.md R206: "it is refused, not given some interleaved result"; R178). Safe. -/
  | hostWhileBusy
  /-- Raised when an answer of `K` arrives and no invocation is outstanding (log 10). Safe. -/
  | noInvocation
  /-- Raised when the host reads a register whose tag is `invalid` (10_state.md R24: "a host read of it
  is refused"). Safe. -/
  | invalidRead (v : HostView)
  /-- Raised when the host, or `K`, writes an address that RX or TX does not have (log 10). Safe. -/
  | outsideMemory
  /-- Raised when the block's own micro-operation port holds a record that is no micro-operation
  (log 1). Safe. -/
  | notMicroOperation (op : BitVec 8)
  deriving DecidableEq, Repr

/-- The machine right after reset (10_state.md R32, 70_reset_and_hazards.md R201): registers invalid,
`STATUS` 0, `FATAL` clear, `FLUSHLOG` empty, no byte of RX or TX holding a value, no `K` installed, idle.
`CUR` and `MAXLEN` have no value in the spec and hold free values (log 6); neither has been written (log 22). -/
def State.reset : State where
  params := Config.params
  hdr := none
  fir := none
  rpsi := none
  status := .ok
  fatal := none
  rx := []
  tx := []
  cur := Config.powerOnCur
  maxlen := Config.powerOnMaxlen
  curWritten := false
  maxlenWritten := false
  installed := none
  flushLog := []
  result := .nothing
  phase := .idle
  inbox := []

end Sys2Proof.Machine
end

