-- ==== Sys2Proof/Machine/Operands.lean ====
section
/-! DEFINITION. Operand assembly and wire layouts (spec/30_encoding.md): access widths, the fields of a header, block sizes, the variable-width picture identifier. -/

namespace Sys2Proof.Machine

/-- The four widths the ByteCodec moves (20_memory.md R55). -/
inductive Width where
  | w1
  | w2
  | w3
  | w4
  deriving DecidableEq, Repr

/-- The width in bytes. -/
def Width.bytes : Width → Nat
  | .w1 => 1
  | .w2 => 2
  | .w3 => 3
  | .w4 => 4

/-- The op id of the ByteCodec read of a width (00_scope.md R2). -/
def Width.rdOp : Width → BitVec 8
  | .w1 => 0x01
  | .w2 => 0x02
  | .w3 => 0x03
  | .w4 => 0x04

/-- The op id of the ByteCodec write of a width (00_scope.md R2). -/
def Width.wrOp : Width → BitVec 8
  | .w1 => 0x09
  | .w2 => 0x0A
  | .w3 => 0x0B
  | .w4 => 0x0C

/-- The header fields in the bytes `b0`, `b1` and the length field of a block at `base`
(30_encoding.md R70): version `b0[7:6]`, padding flag `b0[5]`, format `b0[4:0]`. -/
def headerOf (base b0 b1 lw : Nat) : Hdr where
  version := BitVec.ofNat 2 (b0 / 64)
  hasPadding := b0 / 32 % 2 == 1
  formatOrCount := BitVec.ofNat 5 b0
  packetType := BitVec.ofNat 8 b1
  lengthWords := BitVec.ofNat 16 lw
  base := base

/-- `BlockSize(HDR) = 4 + 4*HDR.length_words` (41_header.md R111). -/
def Hdr.blockSize (h : Hdr) : Nat := 4 + 4 * h.lengthWords.toNat

/-- `PayloadSize(HDR) = 4*HDR.length_words` (41_header.md R111). -/
def Hdr.payloadSize (h : Hdr) : Nat := 4 * h.lengthWords.toNat

/-- The RX address of payload offset 0 (41_header.md R111). -/
def Hdr.payload (h : Hdr) : Nat := h.base + 4

/-- The header is a FIR header (30_encoding.md R76). -/
def isFir (p : Params) (h : Hdr) : Bool := h.packetType == p.psfbPt && h.formatOrCount == p.firFmt

/-- The header is an RPSI header (30_encoding.md R76). -/
def isRpsi (p : Params) (h : Hdr) : Bool := h.packetType == p.psfbPt && h.formatOrCount == p.rpsiFmt

/-- Which message the block is (30_encoding.md R76, 41_header.md R112). -/
def kindOf (p : Params) (h : Hdr) : Kind :=
  if isFir p h then .fir else if isRpsi p h then .rpsi else .unknown

/-- Header byte 0 on build: version 2, padding flag 0, format `f` (30_encoding.md R87). -/
def headerByte0 (f : BitVec 5) : Nat := 0x80 + f.toNat

/-- `BitLen(v)` (30_encoding.md R82). -/
def bitLen (v : Nat) : Nat := if v = 0 then 1 else Nat.log2 v + 1

/-- `NativeBytes(v)` (30_encoding.md R83). -/
def nativeBytes (v : Nat) : Nat := (bitLen v + 7) / 8

/-- `PadBits(v)` (30_encoding.md R83). -/
def padBits (v : Nat) : Nat := 8 * nativeBytes v - bitLen v

/-- `AlignRegion(n) = n + ((2 − n) mod 4)`, the remainder in 0 to 3 (30_encoding.md R84): `2 − n` and
`2 + 3*n` leave the same remainder. -/
def alignRegion (n : Nat) : Nat := n + (2 + 3 * n) % 4

/-- `L`, the length of the native region `RPSI.BUILD` writes for an identifier (44_rpsi.md R141). -/
def regionLen (v : Nat) : Nat := alignRegion (nativeBytes v)

/-- `Canonical(id, pc, L)` (44_rpsi.md R142). -/
def canonical (id pc len : Nat) : Bool := pc == padBits id && len == regionLen id

/-- The length in bytes of a FIR block with `n` entries (43_fir.md R132). -/
def firBlockLen (n : Nat) : Nat := 12 + 8 * n

/-- The most entries a FIR block can carry (43_fir.md R132). -/
def firMax : Nat := 32766

/-- The length in bytes of the RPSI block of an identifier (44_rpsi.md R143). -/
def rpsiBlockLen (v : Nat) : Nat := 14 + regionLen v

end Sys2Proof.Machine
end

