-- ==== Sys2Proof/Machine/Flags.lean ====
section
/-! DEFINITION. The encodings of the status and fatal registers and of the dispatch result as a host reads them (10_state.md R25, R26; 41_header.md R112). -/

namespace Sys2Proof.Machine

/-- The 3-bit code of `STATUS` (10_state.md R25). -/
def Status.code : Status → BitVec 3
  | .ok => 0
  | .malformedHeader => 1
  | .tooShort => 2
  | .badAlignment => 3
  | .badPadding => 4
  | .buildFailed => 5

/-- The 3-bit code of `FATAL.cause` (10_state.md R26). -/
def FatalCause.code : FatalCause → BitVec 3
  | .wrongDispatch => 1
  | .emptyFirList => 2
  | .cursorInvariant => 3
  | .lengthOverflow => 4
  | .outOfBounds => 5
  | .invalidRegister => 6
  | .badCommand => 7

/-- The number of a dispatch result (41_header.md R112). -/
def Kind.code : Kind → Nat
  | .unknown => 0
  | .fir => 1
  | .rpsi => 2

/-- `FATAL.set` (10_state.md R26). -/
def State.fatalSet (s : State) : Bool := s.fatal.isSome

end Sys2Proof.Machine
end

