-- ==== Sys2Proof/Machine/Ops.lean ====
section
/-! DEFINITION. The shared operations: bytes and big-endian quantities in a memory (20_memory.md), raising a fatal assertion and reset (60_exceptions.md, 70_reset_and_hazards.md), the ByteCodec access of each width, writing a block piece by piece, and the space test of a build with the flush continuation (45_builder.md). -/

namespace Sys2Proof.Machine

/-! ## Memory -/

/-- The byte at an address: `none` where it holds no value (10_state.md R33; log 7). -/
def Memory.byte? : Memory → Nat → Option Byte
  | [], _ => none
  | (k, b) :: m, a => if k = a then some b else Memory.byte? m a

/-- One byte written, the list kept in rising order of address. -/
def Memory.put : Memory → Nat → Byte → Memory
  | [], a, b => [(a, b)]
  | (k, x) :: m, a, b =>
    if a < k then (a, b) :: (k, x) :: m
    else if a = k then (a, b) :: m
    else (k, x) :: Memory.put m a b

/-- The canonical form: addresses strictly rising. -/
def Memory.wf : Memory → Bool
  | [] => true
  | [_] => true
  | x :: y :: m => decide (x.1 < y.1) && Memory.wf (y :: m)

/-- Every listed address is below a size. -/
def Memory.within (m : Memory) (size : Nat) : Bool := m.all fun x => decide (x.1 < size)

/-- The part of a memory below an address. -/
def Memory.below (m : Memory) (a : Nat) : Memory := m.filter fun x => decide (x.1 < a)

/-- Bytes written one after another from an address on. -/
def Memory.putBytes (m : Memory) (a : Nat) : List Byte → Memory
  | [] => m
  | b :: bs => Memory.putBytes (Memory.put m a b) (a + 1) bs

/-- Cells written in order. -/
def Memory.putCells (m : Memory) : List Host.Cell → Memory
  | [] => m
  | x :: xs => Memory.putCells (Memory.put m x.1 x.2) xs

/-- `MemRead(S, a, n)`, most significant byte first (20_memory.md R52); the error is the first address
whose byte holds no value. -/
def Memory.read (m : Memory) (a : Nat) : Nat → Except Nat Nat
  | 0 => .ok 0
  | n + 1 =>
    match Memory.byte? m a with
    | none => .error a
    | some b =>
      match Memory.read m (a + 1) n with
      | .error e => .error e
      | .ok v => .ok (b.toNat * 256 ^ n + v)

/-- `MemWrite(TX, a, n, v)` (20_memory.md R53). -/
def Memory.write (m : Memory) (a : Nat) : Nat → Nat → Memory
  | 0, _ => m
  | n + 1, v => Memory.write (Memory.put m a (BitVec.ofNat 8 (v / 256 ^ n))) (a + 1) n v

/-! ## Taking a fatal assertion, and reset -/

/-- `raise Fatal(cause)` by the operation `op` (60_exceptions.md R176): the latch records the first
assertion, and nothing else changes. -/
def State.raise (s : State) (cause : FatalCause) (op : BitVec 8) : State :=
  match s.fatal with
  | some _ => s
  | none => { s with fatal := some ⟨cause, op⟩ }

/-- The reset input (70_reset_and_hazards.md R200): the only way back from a fatal assertion (R177). RX,
TX, `CUR` and `MAXLEN` are untouched, and no `K` is installed (10_state.md R32). An operation that waits for `K` is abandoned, and `CUR` then counts as
not written (R200: "the host must treat `TX` and `CUR` as holding no value afterwards"; log 17). -/
def State.hostReset (s : State) : State :=
  { s with
    hdr := none, fir := none, rpsi := none, status := .ok, fatal := none, flushLog := [],
    curWritten := s.curWritten && decide (s.phase = .idle), installed := none, result := .nothing,
    phase := .idle }

/-- `return Status(x)` (00_scope.md R7). -/
def State.ends (s : State) (x : Status) : State := { s with status := x }

/-! ## Reading RX -/

/-- Why an operation that reads RX ends before its pseudocode does. -/
inductive Stop where
  /-- A fatal assertion raised by the operation `op`. -/
  | fatal (cause : FatalCause) (op : BitVec 8)
  /-- The byte at `a` holds no value (log 7). -/
  | noValue (a : Nat)
  deriving DecidableEq, Repr

/-- The outcome of an operation that ends that way: reads change nothing (20_memory.md R55), so the state
is the one before, but for the latch. -/
def State.stopped (s : State) : Stop → Host.Outcome State Fault Refusal
  | .fatal cause op => .next (s.raise cause op)
  | .noValue a => .fault (.rxNoValue a)

/-- The ByteCodec read of a width (40_bytecodec.md R100 to R104): the bounds are tested before any byte is
read (20_memory.md R56). -/
def readBE (s : State) (w : Width) (a : Nat) : Except Stop Nat :=
  if a + w.bytes ≤ s.params.rxSize then
    match s.rx.read a w.bytes with
    | .ok v => .ok v
    | .error e => .error (.noValue e)
  else .error (.fatal .outOfBounds w.rdOp)

/-- `FB.RD p` (42_feedback_common.md R120). -/
def readFeedback (s : State) (p : Nat) : Except Stop (Ssrc × Ssrc) := do
  let sender ← readBE s .w4 p
  let media ← readBE s .w4 (p + 4)
  pure (BitVec.ofNat 32 sender, BitVec.ofNat 32 media)

/-! ## Writing TX -/

/-- How a sequence of writes goes: on, or ended by a fatal assertion that has been raised. -/
inductive Flow where
  | on (s : State)
  | ended (s : State)
  deriving DecidableEq, Repr

/-- Go on with `k` unless the operation has ended. -/
def Flow.andThen : Flow → (State → Flow) → Flow
  | .on s, k => k s
  | .ended s, _ => .ended s

/-- The state a sequence of writes leaves. -/
def Flow.state : Flow → State
  | .on s => s
  | .ended s => s

/-- The ByteCodec write of a width (40_bytecodec.md R100, R105 to R108). -/
def writeBE (s : State) (w : Width) (a v : Nat) : Flow :=
  if a + w.bytes ≤ s.params.txSize then .on { s with tx := s.tx.write a w.bytes v }
  else .ended (s.raise .outOfBounds w.wrOp)

/-- `HDR.WR c, f, t, block_len` (41_header.md R113). -/
def writeHeader (s : State) (c : Nat) (f : BitVec 5) (t : BitVec 8) (blockLen : Nat) : Flow :=
  (writeBE s .w1 c (headerByte0 f)).andThen fun s =>
    (writeBE s .w1 (c + 1) t.toNat).andThen fun s =>
      writeBE s .w2 (c + 2) (fieldOfLen blockLen)

/-- `FB.WR c, s, m` (42_feedback_common.md R121). -/
def writeFeedback (s : State) (c : Nat) (sender media : Ssrc) : Flow :=
  (writeBE s .w4 c sender.toNat).andThen fun s => writeBE s .w4 (c + 4) media.toNat

/-- What a build writes between two advances of the cursor (43_fir.md R131, 44_rpsi.md R141). -/
inductive Piece where
  | header (f : BitVec 5) (t : BitVec 8) (blockLen : Nat)
  | feedback (sender media : Ssrc)
  | be (w : Width) (v : Nat)
  deriving DecidableEq, Repr

/-- How far a piece advances the cursor. -/
def Piece.size : Piece → Nat
  | .header _ _ _ => 4
  | .feedback _ _ => 8
  | .be w _ => w.bytes

/-- A piece written at an address. -/
def Piece.write (s : State) (c : Nat) : Piece → Flow
  | .header f t n => writeHeader s c f t n
  | .feedback sender media => writeFeedback s c sender media
  | .be w v => writeBE s w c v

/-- The pieces of a block, each written at the cursor, which then moves past it. -/
def emit (s : State) : List Piece → Flow
  | [] => .on s
  | p :: ps =>
    match p.write s s.cur with
    | .on s => emit { s with cur := s.cur + p.size } ps
    | .ended s => .ended s

/-! ## The space test and the flush continuation -/

/-- "remaining space `MAXLEN − CUR` is enough" (45_builder.md R160). -/
def hasRoom (s : State) (blockLen : Nat) : Bool := decide (s.cur + blockLen ≤ s.maxlen)

/-- `call K(c)` with `c = CUR` (45_builder.md R160, R161): the operation waits for the answer, and the
bytes below the cursor are noted as they are before the call. -/
def State.callK (s : State) (b : Builder) : State :=
  { s with phase := .inK ⟨b, s.cur, s.tx.below (min s.cur s.params.txSize)⟩ }

/-- The answer of `K` adopted (45_builder.md R160): the record is appended to `FLUSHLOG`, TX and `CUR`
are what `K` left. -/
def State.adopt (s : State) (k : Invocation) (a : KAnswer) : State :=
  { s with
    flushLog := s.flushLog ++ [⟨k.cursor, k.handed, a.success, a.cursor⟩]
    tx := s.tx.putCells a.writes
    cur := a.cursor
    curWritten := true
    phase := .idle }

/-- `BLD.COMMIT end` (45_builder.md R162). -/
def State.commit (s : State) (endOff : Nat) : Flow :=
  if s.cur = endOff then .on s else .ended (s.raise .cursorInvariant 0x41)

/-- A block about to be written: its length and its pieces. -/
structure Job where
  blockLen : Nat
  pieces : List Piece
  deriving DecidableEq, Repr

/-- The part of a build after `BLD.RESERVE` has answered ok: the writes, the end-offset check, `Ok`
(43_fir.md R131, 44_rpsi.md R141). Where a write leaves TX, which the host duty `MAXLEN <= TX_SIZE` rules
out (20_memory.md R56), what the writes before it changed stays changed (60_exceptions.md R176; log 21). -/
def writeBlock (s : State) (j : Job) : State :=
  match (emit s j.pieces).andThen fun t => t.commit (s.cur + j.blockLen) with
  | .on t => t.ends .ok
  | .ended t => t

/-- A build from its space test on: the block is written in one piece where it fits, and `K` is invoked
where it does not (45_builder.md R160, R163). -/
def buildBlock (b : Builder) (s : State) (j : Job) : State :=
  if hasRoom s j.blockLen then writeBlock s j else s.callK b

end Sys2Proof.Machine
end

