-- ==== Sys2Proof/Machine/FirCodec.lean ====
section
/-! DEFINITION. The Fir codec (spec/43_fir.md): `FIR.PARSE`, `FIR.BUILD`. -/

namespace Sys2Proof.Machine

/-- `n` entries from address `e` on, in wire order, the three reserved bytes of each not read
(R130, 30_encoding.md R73). -/
def readRequests (s : State) (e : Nat) : Nat → Except Stop (List Request)
  | 0 => .ok []
  | n + 1 => do
    let ssrc ← readBE s .w4 e
    let seq ← readBE s .w1 (e + 4)
    let rest ← readRequests s (e + 8) n
    pure (⟨BitVec.ofNat 32 ssrc, BitVec.ofNat 8 seq⟩ :: rest)

/-- The message in the FIR block of `h` (R130). -/
def readFir (s : State) (h : Hdr) : Except Stop Fir := do
  let (sender, media) ← readFeedback s h.payload
  let reqs ← readRequests s (h.payload + 8) ((h.payloadSize - 8) / 8)
  pure ⟨sender, media, reqs⟩

/-- `{ FIR <- invalid; return Status(x) }` (R130). -/
def State.badFir (s : State) (x : Status) : State := { s with fir := none, status := x }

/-- `FIR.PARSE` (R130): check (a) before check (b). -/
def execFirParse (s : State) : Host.Outcome State Fault Refusal :=
  match s.hdr with
  | none => .next (s.raise .invalidRegister 0x20)
  | some h =>
    if isFir s.params h then
      if h.payloadSize < 16 then .next (s.badFir .tooShort)
      else if (h.payloadSize - 8) % 8 ≠ 0 then .next (s.badFir .badAlignment)
      else
        match readFir s h with
        | .error x => s.stopped x
        | .ok f => .next { s with fir := some f, status := .ok }
    else .next (s.raise .wrongDispatch 0x20)

/-- The pieces of the entries of a FIR block: SSRC, sequence number, three bytes 0 (R131). -/
def requestPieces : List Request → List Piece
  | [] => []
  | r :: rs => .be .w4 r.ssrc.toNat :: .be .w1 r.seqNr.toNat :: .be .w3 0 :: requestPieces rs

/-- The FIR block of a message, `media_ssrc` 0 whatever the register holds (R131). -/
def firBlock (p : Params) (f : Fir) : Job where
  blockLen := firBlockLen f.reqs.length
  pieces :=
    .header p.firFmt p.psfbPt (firBlockLen f.reqs.length) :: .feedback f.senderSsrc 0 ::
      requestPieces f.reqs

/-- The three assertions of `FIR.BUILD` in their order, and the block (R131). -/
def firJob (s : State) : Except FatalCause Job :=
  match s.fir with
  | none => .error .invalidRegister
  | some f =>
    if f.reqs.length = 0 then .error .emptyFirList
    else if firMax < f.reqs.length then .error .lengthOverflow
    else .ok (firBlock s.params f)

/-- `FIR.BUILD` from its start, or again from its space test after `K` has answered success: `K` touches
no register, so the assertions hold as they held before (45_builder.md R161; log 11). -/
def firBuild (s : State) : State :=
  match firJob s with
  | .error cause => s.raise cause 0x21
  | .ok j => buildBlock .fir s j

/-- `FIR.BUILD` (R131). -/
def execFirBuild (s : State) : Host.Outcome State Fault Refusal := .next (firBuild s)

end Sys2Proof.Machine
end

