-- ==== Sys2Proof/Machine/RpsiCodec.lean ====
section
/-! DEFINITION. The Rpsi codec (spec/44_rpsi.md): `RPSI.PARSE`, `RPSI.BUILD`. -/

namespace Sys2Proof.Machine

/-- The native region of `n` bytes from address `a` on, one `RDBE8` a byte, gathered onto `acc` (R140). -/
def readRegion (s : State) (a : Nat) : Nat → Nat → Except Stop Nat
  | 0, acc => .ok acc
  | n + 1, acc => do
    let b ← readBE s .w1 a
    readRegion s (a + 1) n (acc * 256 + b)

/-- The message a decoded RPSI payload stands for, `none` where it is `BadPadding` (R140, R142): padding
bits not 0, an identifier of more than 64 bits, or a region not in canonical form. -/
def rpsiOf (p : Params) (ssrcs : Ssrc × Ssrc) (pc ptb len v : Nat) : Option Rpsi :=
  if v % 2 ^ pc ≠ 0 then none
  else if 2 ^ 64 ≤ v / 2 ^ pc then none
  else if p.rpsiCanonical && !canonical (v / 2 ^ pc) pc len then none
  else some ⟨ssrcs.1, ssrcs.2, BitVec.ofNat 7 ptb, BitVec.ofNat 64 (v / 2 ^ pc)⟩

/-- The message in the RPSI block of `h`, read in the order of the pseudocode, `none` where it is
`BadPadding` (R140). -/
def readRpsi (s : State) (h : Hdr) : Except Stop (Option Rpsi) := do
  let ssrcs ← readFeedback s h.payload
  let pc ← readBE s .w1 (h.payload + 8)
  if 8 ≤ pc then pure none
  else do
    let ptb ← readBE s .w1 (h.payload + 9)
    let v ← readRegion s (h.payload + 10) (h.payloadSize - 10) 0
    pure (rpsiOf s.params ssrcs pc ptb (h.payloadSize - 10) v)

/-- `{ RPSI <- invalid; return Status(x) }` (R140). -/
def State.badRpsi (s : State) (x : Status) : State := { s with rpsi := none, status := x }

/-- `RPSI.PARSE` (R140). -/
def execRpsiParse (s : State) : Host.Outcome State Fault Refusal :=
  match s.hdr with
  | none => .next (s.raise .invalidRegister 0x30)
  | some h =>
    if isRpsi s.params h then
      if h.payloadSize < 11 then .next (s.badRpsi .tooShort)
      else
        match readRpsi s h with
        | .error x => s.stopped x
        | .ok none => .next (s.badRpsi .badPadding)
        | .ok (some m) => .next { s with rpsi := some m, status := .ok }
    else .next (s.raise .wrongDispatch 0x30)

/-- The native region: the `n` low bytes of `v`, most significant first, one `WRBE8` a byte
(R141, 30_encoding.md R85). -/
def regionPieces (v : Nat) : Nat → List Piece
  | 0 => []
  | n + 1 => .be .w1 (v / 256 ^ n % 256) :: regionPieces v n

/-- The RPSI block of a message (R141). -/
def rpsiBlock (p : Params) (m : Rpsi) : Job where
  blockLen := rpsiBlockLen m.pictureId.toNat
  pieces :=
    .header p.rpsiFmt p.psfbPt (rpsiBlockLen m.pictureId.toNat) ::
      .feedback m.senderSsrc m.mediaSsrc ::
      .be .w1 (padBits m.pictureId.toNat) ::
      .be .w1 m.payloadType.toNat ::
      regionPieces (m.pictureId.toNat * 2 ^ padBits m.pictureId.toNat) (regionLen m.pictureId.toNat)

/-- `RPSI.BUILD` from its start, or again from its space test after `K` has answered success (R141,
45_builder.md R160; log 11). -/
def rpsiBuild (s : State) : State :=
  match s.rpsi with
  | none => s.raise .invalidRegister 0x31
  | some m => buildBlock .rpsi s (rpsiBlock s.params m)

/-- `RPSI.BUILD` (R141). -/
def execRpsiBuild (s : State) : Host.Outcome State Fault Refusal := .next (rpsiBuild s)

end Sys2Proof.Machine
end

