-- ==== Sys2Proof/Machine/BufferBuilder.lean ====
section
/-! DEFINITION. BufferedPacketBuilder (spec/45_builder.md): `BLD.RESERVE`, `BLD.COMMIT`, and what a waiting operation does with an answer of the flush continuation. -/

namespace Sys2Proof.Machine

/-- `BLD.RESERVE block_len` by itself, one turn of its loop: room, or an invocation of `K` (R160). -/
def reserve (blockLen : Nat) (s : State) : State :=
  if hasRoom s blockLen then { s with result := .room true } else s.callK (.reserve blockLen)

/-- `BLD.RESERVE block_len` (R160). -/
def execBldReserve (blockLen : Nat) (s : State) : Host.Outcome State Fault Refusal :=
  .next (reserve blockLen s)

/-- `BLD.COMMIT end` (R162). -/
def execBldCommit (endOff : Nat) (s : State) : Host.Outcome State Fault Refusal :=
  .next (s.commit endOff).state

/-- The waiting operation after `K` has answered success: its space test again (R160, "goto loop"). -/
def resume : Builder → State → State
  | .fir, s => firBuild s
  | .rpsi, s => rpsiBuild s
  | .reserve n, s => reserve n s

/-- The waiting operation after `K` has answered failure (R160, R164): a build ends with `BuildFailed`,
`BLD.RESERVE` by itself answers failed. -/
def giveUp : Builder → State → State
  | .fir, s => s.ends .buildFailed
  | .rpsi, s => s.ends .buildFailed
  | .reserve _, s => { s with result := .room false }

/-- One answer of `K` to the outstanding invocation `k` (R160, R161). -/
def kReturns (k : Invocation) (a : KAnswer) (s : State) : State :=
  if a.success then resume k.builder (s.adopt k a) else giveUp k.builder (s.adopt k a)

/-- What an installed continuation answers to an invocation with the cursor `c`, before which `FLUSHLOG` held
`n` records (R161). -/
def Continuation.answer (n c : Nat) : Continuation → KAnswer
  | .kReset => ⟨true, 0, []⟩
  | .kFail => ⟨false, c, []⟩
  | .other id => ⟨Config.kSuccess id n, Config.kCursor id n, Config.kWrites id n⟩

end Sys2Proof.Machine
end

