-- ==== Sys2Proof/Machine/ByteCodec.lean ====
section
/-! DEFINITION. The eight ByteCodec operations (spec/40_bytecodec.md), run by themselves. -/

namespace Sys2Proof.Machine

/-- A read of a width as an operation of its own: its result, or the way it stops. -/
def runRead (w : Width) (a : Nat) (s : State) : Host.Outcome State Fault Refusal :=
  match readBE s w a with
  | .ok v => .next { s with result := .value v }
  | .error x => s.stopped x

/-- A write of a width as an operation of its own. -/
def runWrite (w : Width) (a v : Nat) (s : State) : Host.Outcome State Fault Refusal :=
  .next (writeBE s w a v).state

/-- `RDBE8 a` (R101). -/
def execRdbe8 (a : Nat) (s : State) : Host.Outcome State Fault Refusal := runRead .w1 a s

/-- `RDBE16 a` (R102). -/
def execRdbe16 (a : Nat) (s : State) : Host.Outcome State Fault Refusal := runRead .w2 a s

/-- `RDBE24 a` (R103). -/
def execRdbe24 (a : Nat) (s : State) : Host.Outcome State Fault Refusal := runRead .w3 a s

/-- `RDBE32 a` (R104). -/
def execRdbe32 (a : Nat) (s : State) : Host.Outcome State Fault Refusal := runRead .w4 a s

/-- `WRBE8 a, v` (R105). -/
def execWrbe8 (a : Nat) (v : BitVec 8) (s : State) : Host.Outcome State Fault Refusal :=
  runWrite .w1 a v.toNat s

/-- `WRBE16 a, v` (R106). -/
def execWrbe16 (a : Nat) (v : BitVec 16) (s : State) : Host.Outcome State Fault Refusal :=
  runWrite .w2 a v.toNat s

/-- `WRBE24 a, v` (R107). -/
def execWrbe24 (a : Nat) (v : BitVec 24) (s : State) : Host.Outcome State Fault Refusal :=
  runWrite .w3 a v.toNat s

/-- `WRBE32 a, v` (R108). -/
def execWrbe32 (a : Nat) (v : BitVec 32) (s : State) : Host.Outcome State Fault Refusal :=
  runWrite .w4 a v.toNat s

end Sys2Proof.Machine
end

