-- ==== Sys2Proof/Machine/Feedback.lean ====
section
/-! DEFINITION. The common feedback fields (spec/42_feedback_common.md): `FB.RD`, `FB.WR`. -/

namespace Sys2Proof.Machine

/-- `FB.RD p` (R120). -/
def execFbRd (p : Nat) (s : State) : Host.Outcome State Fault Refusal :=
  match readFeedback s p with
  | .ok (sender, media) => .next { s with result := .ssrcs sender media }
  | .error x => s.stopped x

/-- `FB.WR c, s, m` (R121). -/
def execFbWr (c : Nat) (sender media : Ssrc) (s : State) : Host.Outcome State Fault Refusal :=
  .next (writeFeedback s c sender media).state

end Sys2Proof.Machine
end

