-- ==== Sys2Proof/Machine/Header.lean ====
section
/-! DEFINITION. The common header (spec/41_header.md): `HDR.PARSE`, `DISPATCH`, `HDR.WR`. -/

namespace Sys2Proof.Machine

/-- The four header bytes at `base`, read in the order of the pseudocode (R110). -/
def readHeader (s : State) (base : Nat) : Except Stop Hdr := do
  let b0 ← readBE s .w1 base
  let b1 ← readBE s .w1 (base + 1)
  let lw ← readBE s .w2 (base + 2)
  pure (headerOf base b0 b1 lw)

/-- `{ HDR <- invalid; return Status(MalformedHeader) }` (R110). -/
def State.badHeader (s : State) : State := { s with hdr := none, status := .malformedHeader }

/-- The two tests of a header that has been read (R110): version 2, and a block within the window. -/
def headerOk (h : Hdr) (avail : Nat) : Bool := h.version == 2 && decide (h.blockSize ≤ avail)

/-- `HDR.PARSE base, avail` (R110). -/
def execHdrParse (base avail : Nat) (s : State) : Host.Outcome State Fault Refusal :=
  if s.params.rxSize < base + avail then .next (s.raise .outOfBounds 0x10)
  else if avail < 4 then .next s.badHeader
  else
    match readHeader s base with
    | .error x => s.stopped x
    | .ok h => .next (if headerOk h avail then { s with hdr := some h, status := .ok } else s.badHeader)

/-- `DISPATCH` (R112). -/
def execDispatch (s : State) : Host.Outcome State Fault Refusal :=
  match s.hdr with
  | none => .next (s.raise .invalidRegister 0x11)
  | some h => .next { s with status := .ok, result := .kind (kindOf s.params h) }

/-- `HDR.WR c, f, t, block_len` (R113). -/
def execHdrWr (c : Nat) (f : BitVec 5) (t : BitVec 8) (blockLen : Nat) (s : State) :
    Host.Outcome State Fault Refusal :=
  .next (writeHeader s c f t blockLen).state

end Sys2Proof.Machine
end

