-- ==== Sys2Proof/Machine/Dispatch.lean ====
section
/-! DEFINITION. One arm per operation of spec/00_scope.md R2. -/

namespace Sys2Proof.Machine

def exec (i : Instr) (s : State) : Host.Outcome State Fault Refusal :=
  match i with
  | .rdbe8 a => Sys2Proof.Machine.execRdbe8 a s
  | .rdbe16 a => Sys2Proof.Machine.execRdbe16 a s
  | .rdbe24 a => Sys2Proof.Machine.execRdbe24 a s
  | .rdbe32 a => Sys2Proof.Machine.execRdbe32 a s
  | .wrbe8 a v => Sys2Proof.Machine.execWrbe8 a v s
  | .wrbe16 a v => Sys2Proof.Machine.execWrbe16 a v s
  | .wrbe24 a v => Sys2Proof.Machine.execWrbe24 a v s
  | .wrbe32 a v => Sys2Proof.Machine.execWrbe32 a v s
  | .hdrParse base avail => Sys2Proof.Machine.execHdrParse base avail s
  | .dispatch => Sys2Proof.Machine.execDispatch s
  | .hdrWr c f t blockLen => Sys2Proof.Machine.execHdrWr c f t blockLen s
  | .fbRd p => Sys2Proof.Machine.execFbRd p s
  | .fbWr c sender media => Sys2Proof.Machine.execFbWr c sender media s
  | .firParse => Sys2Proof.Machine.execFirParse s
  | .firBuild => Sys2Proof.Machine.execFirBuild s
  | .rpsiParse => Sys2Proof.Machine.execRpsiParse s
  | .rpsiBuild => Sys2Proof.Machine.execRpsiBuild s
  | .bldReserve blockLen => Sys2Proof.Machine.execBldReserve blockLen s
  | .bldCommit endOff => Sys2Proof.Machine.execBldCommit endOff s

end Sys2Proof.Machine
end

