-- ==== Sys2Proof/Machine/HostPort.lean ====
section
/-! DEFINITION. How the block meets the world outside it (10_state.md R31, 60_exceptions.md R174 to R178, 70_reset_and_hazards.md R200 to R214): the next event is taken from the inbox, and either an operation is to run or the event is settled here. -/

namespace Sys2Proof.Machine

/-- What the next event comes to. -/
inductive Fetched where
  /-- The operation `i` runs in the state `s`, the event being taken. -/
  | run (i : Instr) (s : State)
  /-- The event is settled. -/
  | done (o : Host.Outcome State Fault Refusal)

/-- A host command between operations (60_exceptions.md R174, R176; 30_encoding.md R79): refused without
any change while the latch is set, `Fatal(BadCommand)` where its selector is none of the six. -/
def takeCommand (c : Command) (s : State) : Fetched :=
  if s.fatalSet then .done (.next s)
  else
    match decodeCommand c with
    | .ok i => .run i s
    | .error _ => .done (.next (s.raise .badCommand c.op))

/-- The block's own issue of one micro-operation (log 1); no operation starts while the latch is set
(60_exceptions.md R178). -/
def takeMicro (r : OpRecord) (s : State) : Fetched :=
  if s.fatalSet then .done (.next s)
  else
    match decodeMicro r with
    | .ok i => .run i s
    | .error _ => .done (.refused (.notMicroOperation r.op))

/-- A host read changes nothing (20_memory.md R55); of a register whose tag is `invalid` it is refused
(10_state.md R24). -/
def hostRead (v : HostView) (s : State) : Host.Outcome State Fault Refusal :=
  match v with
  | .hdr => if s.hdr.isSome then .next s else .refused (.invalidRead .hdr)
  | .fir => if s.fir.isSome then .next s else .refused (.invalidRead .fir)
  | .rpsi => if s.rpsi.isSome then .next s else .refused (.invalidRead .rpsi)
  | .status => .next s
  | .fatal => .next s
  | .rx => .next s
  | .tx => .next s
  | .cur => .next s
  | .maxlen => .next s

/-- What may be read while `K` is invoked: the columns "always" and "inside `K`" of 10_state.md R31, whose
ownership rules are "the only access restrictions" (60_exceptions.md R184; for `MAXLEN` log 20). -/
def readableInK : HostView → Bool
  | .status => true
  | .fatal => true
  | .rx => true
  | .tx => true
  | .cur => true
  | .maxlen => true
  | .hdr => false
  | .fir => false
  | .rpsi => false

/-- A host write of RX between operations (10_state.md R27). -/
def hostWriteRx (a : Nat) (bytes : List Byte) (s : State) : Host.Outcome State Fault Refusal :=
  if a + bytes.length ≤ s.params.rxSize then .next { s with rx := s.rx.putBytes a bytes }
  else .refused .outsideMemory

/-- A write of TX, by the host between operations or by `K` while it is invoked (10_state.md R28, R31). -/
def hostWriteTx (a : Nat) (bytes : List Byte) (s : State) : Host.Outcome State Fault Refusal :=
  if a + bytes.length ≤ s.params.txSize then .next { s with tx := s.tx.putBytes a bytes }
  else .refused .outsideMemory

/-- A write of `CUR`, by the host between operations or by `K` while it is invoked (10_state.md R28, R31). -/
def hostSetCur (n : Nat) (s : State) : State := { s with cur := n, curWritten := true }

/-- A host write of `MAXLEN` between operations (10_state.md R28). -/
def hostSetMaxlen (n : Nat) (s : State) : State := { s with maxlen := n, maxlenWritten := true }

/-- The host installs a continuation between operations (10_state.md R28, 70_reset_and_hazards.md R202). -/
def hostInstallK (c : Option Continuation) (s : State) : State := { s with installed := c }

/-- An event between operations (10_state.md R31). -/
def takeIdle (e : Event) (s : State) : Fetched :=
  match e with
  | .command c => takeCommand c s
  | .micro r => takeMicro r s
  | .writeFir v => .done (.next { s with fir := some v })
  | .writeRpsi v => .done (.next { s with rpsi := some v })
  | .writeRx a bytes => .done (hostWriteRx a bytes s)
  | .writeTx a bytes => .done (hostWriteTx a bytes s)
  | .setCur n => .done (.next (hostSetCur n s))
  | .setMaxlen n => .done (.next (hostSetMaxlen n s))
  | .installK c => .done (.next (hostInstallK c s))
  | .kReturn _ => .done (.refused .noInvocation)
  | .read v => .done (hostRead v s)
  | .reset => .done (.next s.hostReset)

/-- `K` answers the outstanding invocation (45_builder.md R160, R161). -/
def answerK (k : Invocation) (a : KAnswer) (s : State) : Host.Outcome State Fault Refusal :=
  if a.writes.all fun x => decide (x.1 < s.params.txSize) then .next (kReturns k a s)
  else .refused .outsideMemory

/-- An event while `K` is invoked: its answer, its writes of TX and `CUR` (10_state.md R31, 45_builder.md R161),
a read that is allowed, or reset; anything else breaks the ownership rule and is refused
(70_reset_and_hazards.md R206, 60_exceptions.md R178). -/
def takeInK (k : Invocation) (e : Event) (s : State) : Host.Outcome State Fault Refusal :=
  match e with
  | .kReturn a => answerK k a s
  | .read v => if readableInK v then hostRead v s else .refused .hostWhileBusy
  | .writeTx a bytes => hostWriteTx a bytes s
  | .setCur n => .next (hostSetCur n s)
  | .reset => .next s.hostReset
  | .command _ => .refused .hostWhileBusy
  | .micro _ => .refused .hostWhileBusy
  | .writeFir _ => .refused .hostWhileBusy
  | .writeRpsi _ => .refused .hostWhileBusy
  | .writeRx _ _ => .refused .hostWhileBusy
  | .setMaxlen _ => .refused .hostWhileBusy
  | .installK _ => .refused .hostWhileBusy

/-- What `K` answers in the next step, with the events left: the answer that stands next in the inbox, or
the installed continuation's; none where reset comes first, or where nothing answers yet (log 23). -/
def kAnswer? (k : Invocation) (s : State) : Option (KAnswer × List Event) :=
  match s.inbox, s.installed with
  | .kReturn a :: rest, _ => some (a, rest)
  | .reset :: _, _ => none
  | inbox, some c => some (c.answer s.flushLog.length k.cursor, inbox)
  | _, none => none

/-- One step while `K` is invoked: it answers, or acts, or has not returned (45_builder.md R161,
70_reset_and_hazards.md R207). -/
def awaitK (k : Invocation) (s : State) : Host.Outcome State Fault Refusal :=
  match kAnswer? k s with
  | some (a, rest) => answerK k a { s with inbox := rest }
  | none =>
    match s.inbox with
    | [] => .next s
    | e :: rest => takeInK k e { s with inbox := rest }

/-- The next event. A configuration with `FIR_FMT = RPSI_FMT` is refused (00_scope.md R5). With no event
left an idle block stays as it is (60_exceptions.md R185). -/
def fetch (s : State) : Fetched :=
  if s.params.firFmt = s.params.rpsiFmt then .done (.refused .ambiguousFormats)
  else
    match s.phase with
    | .inK k => .done (awaitK k s)
    | .idle =>
      match s.inbox with
      | [] => .done (.next s)
      | e :: rest => takeIdle e { s with inbox := rest }

/-- The event that asks for the operation of a table word: the command `(op, 0, 0)`, or the block's own
issue where the operation is internal (log 3). -/
def eventOfTableWord (nbits w : Nat) : Event :=
  match decodeTableWord nbits w with
  | some i => if i.hostIssuable then .command ⟨i.opId, 0, 0⟩ else .micro ⟨i.opId, []⟩
  | none => .command ⟨BitVec.ofNat 8 w, 0, 0⟩

end Sys2Proof.Machine
end

