-- ==== Sys2Proof/Machine/Step.lean ====
section
/-! DEFINITION. One step: the next event is taken, and the operation it asks for, if any, runs. -/

namespace Sys2Proof.Machine

/-- One step of the machine: one event of the host, or one whole operation, interrupted only at the
invocations of `K` (20_memory.md R59). -/
def step (s : State) : Host.Outcome State Fault Refusal :=
  match fetch s with
  | .run i t => exec i t
  | .done o => o

/-- `s` with the operation of a table word as its next event, no operation outstanding and the fatal latch
clear, so that the next step runs it (log 3). -/
def State.withFetchWord (s : State) (nbits w : Nat) : State :=
  { s with inbox := eventOfTableWord nbits w :: s.inbox, phase := .idle, fatal := none }

end Sys2Proof.Machine
end

