-- ==== Sys2Proof/Safety.lean ====
section
/-! DEFINITION. What the claims are stated in: the launch premises of spec/70_reset_and_hazards.md R203, a good end state (R213), the wire form of the two messages (spec/30_encoding.md), and the invariants of a run. -/

namespace Sys2Proof.Machine

/-! ## The wire form of a message (30_encoding.md) -/

/-- The four bytes of a 32-bit field, most significant first (20_memory.md R51). -/
def wire32 (v : BitVec 32) : List Byte :=
  [v.extractLsb' 24 8, v.extractLsb' 16 8, v.extractLsb' 8 8, v.extractLsb' 0 8]

/-- The header of a block: version 2, padding flag 0, the format, the packet type, the length field
(30_encoding.md R70, R87). -/
def wireHeader (f : BitVec 5) (t : BitVec 8) (lengthWords : BitVec 16) : List Byte :=
  [(4 : BitVec 3) ++ f, t, lengthWords.extractLsb' 8 8, lengthWords.extractLsb' 0 8]

/-- One FIR entry: `ssrc(4B), seq_nr(1B), reserved(3B, write 0)` (30_encoding.md R73). -/
def wireRequest (r : Request) : List Byte := wire32 r.ssrc ++ [r.seqNr, 0, 0, 0]

/-- The block of a FIR message (30_encoding.md R70 to R73): `length_words = 2 + 2n`, `media_ssrc` 0. -/
def wireFir (p : Params) (f : Fir) : List Byte :=
  wireHeader p.firFmt p.psfbPt (BitVec.ofNat 16 (2 + 2 * f.reqs.length)) ++
    wire32 f.senderSsrc ++ wire32 0 ++ f.reqs.flatMap wireRequest

/-- The `n` low bytes of a number, most significant first (30_encoding.md R85). -/
def wireBytes (v : Nat) : Nat → List Byte
  | 0 => []
  | n + 1 => BitVec.ofNat 8 (v / 256 ^ n) :: wireBytes v n

/-- The block of an RPSI message (30_encoding.md R70 to R75, R85): the padding count, the payload-type byte
with its top bit 0, the native region of `regionLen` bytes holding `picture_id * 2^padding_count`. -/
def wireRpsi (p : Params) (m : Rpsi) : List Byte :=
  wireHeader p.rpsiFmt p.psfbPt (BitVec.ofNat 16 (rpsiBlockLen m.pictureId.toNat / 4 - 1)) ++
    wire32 m.senderSsrc ++ wire32 m.mediaSsrc ++
    [BitVec.ofNat 8 (padBits m.pictureId.toNat), (0 : BitVec 1) ++ m.payloadType] ++
    wireBytes (m.pictureId.toNat * 2 ^ padBits m.pictureId.toNat) (regionLen m.pictureId.toNat)

/-- A memory holds a string of bytes from an address on. -/
def HoldsBytes (m : Memory) (a : Nat) (bs : List Byte) : Prop :=
  ∀ i, (h : i < bs.length) → m.byte? (a + i) = some bs[i]

/-- What became of a memory into which a string of bytes was stored: it holds the string, and every byte
outside it is as before. -/
def Stored (before after : Memory) (a : Nat) (bs : List Byte) : Prop :=
  HoldsBytes after a bs ∧
    ∀ x, x < a ∨ a + bs.length ≤ x → after.byte? x = before.byte? x

/-- The bytes of a memory below an address, in order of address, a byte without value as `none`. -/
def bytesBelow (m : Memory) (c : Nat) : List (Option Byte) := (List.range c).map m.byte?

/-- The bytes not yet taken away: `TX[0 .. CUR−1]`, or, while `K` is invoked, what was handed to it. -/
def untaken (s : State) : List (Option Byte) :=
  match s.phase with
  | .idle => bytesBelow s.tx s.cur
  | .inK k => bytesBelow k.handed k.cursor

/-- Everything the builds have produced so far, with a continuation that takes away `TX[0 .. c−1]` and
moves the cursor to 0: the strings handed over, then what is not yet taken away (45_builder.md R166). -/
def streamed (s : State) : List (Option Byte) :=
  (s.flushLog.flatMap fun r => bytesBelow r.handed r.cursor) ++ untaken s

/-- The answer of `K_reset`, the document's "typically the start" (45_builder.md R161). -/
def kReset : KAnswer := ⟨true, 0, []⟩

/-- `n` steps one after another, up to the first fault or refusal. -/
def steps : Nat → State → Host.Outcome State Fault Refusal
  | 0, s => .next s
  | n + 1, s =>
    match step s with
    | .next t => steps n t
    | .fault f => .fault f
    | .refused r => .refused r

/-! ## Launch premises (R203) -/

/-- `NoFatal`. -/
def NoFatal (s : State) : Prop := s.fatal = none

/-- `RxWritten(base, avail)`. -/
def RxWritten (s : State) (base avail : Nat) : Prop :=
  base + avail ≤ s.params.rxSize ∧
    ∀ x, base ≤ x → x < base + avail → (s.rx.byte? x).isSome = true

/-- `TxContext`. -/
def TxContext (s : State) : Prop :=
  s.curWritten = true ∧ s.maxlenWritten = true ∧ s.cur ≤ s.maxlen ∧ s.maxlen ≤ s.params.txSize

/-- `FirReady`, with the message the register holds. -/
def FirReady (s : State) (f : Fir) : Prop :=
  s.fir = some f ∧ 1 ≤ f.reqs.length ∧ f.reqs.length ≤ 32766

/-- `RpsiReady`, with the message the register holds. -/
def RpsiReady (s : State) (m : Rpsi) : Prop := s.rpsi = some m

/-- The operation that the next step of `s` begins waits for `K` in `t`, and has waited in every state
between. -/
def WaitsIn (s t : State) : Prop :=
  ∃ n, steps (n + 1) s = .next t ∧
    ∀ m u, m ≤ n → steps (m + 1) s = .next u → ∃ k, u.phase = .inK k

/-- Every answer `K` gives while that operation waits has a property. -/
def EachAnswer (s : State) (p : State → KAnswer → Prop) : Prop :=
  ∀ t k a rest, WaitsIn s t → t.phase = .inK k → kAnswer? k t = some (a, rest) → p t a

/-- Every event taken while that operation waits, and which is no answer, has a property. -/
def EachEvent (s : State) (p : State → Event → Prop) : Prop :=
  ∀ t k e rest, WaitsIn s t → t.phase = .inK k → kAnswer? k t = none → t.inbox = e :: rest → p t e

/-- `KTotal`: every invocation of `K` returns (R207): a continuation is installed, or the answer is among the
events to come. -/
def KTotal (s : State) : Prop :=
  ∀ t, WaitsIn s t → t.installed.isSome = true ∨ ∃ a, Event.kReturn a ∈ t.inbox

/-- `KHonest(block_len)`: whenever `K` answers success there is room (R204). -/
def KHonest (s : State) (blockLen : Nat) : Prop :=
  EachAnswer s fun t a => a.success = true → a.cursor + blockLen ≤ t.maxlen

/-- The event issues no command and touches none of `HDR`, `FIR`, `RPSI`, `MAXLEN`. -/
def Event.quiet : Event → Bool
  | .command _ => false
  | .micro _ => false
  | .writeFir _ => false
  | .writeRpsi _ => false
  | .setMaxlen _ => false
  | .read .hdr => false
  | .read .fir => false
  | .read .rpsi => false
  | .read .maxlen => false
  | .read .status => true
  | .read .fatal => true
  | .read .rx => true
  | .read .tx => true
  | .read .cur => true
  | .writeRx _ _ => true
  | .writeTx _ _ => true
  | .setCur _ => true
  | .installK _ => true
  | .kReturn _ => true
  | .reset => true

/-- `KQuiet`: `K` issues no command and touches none of `HDR`, `FIR`, `RPSI`, `MAXLEN`. -/
def KQuiet (s : State) : Prop := EachEvent s fun _ e => e.quiet = true

/-- The event is no access that 10_state.md R31 reserves for the time between operations, and no reset. -/
def Event.exclusive : Event → Bool
  | .writeFir _ => false
  | .writeRpsi _ => false
  | .writeRx _ _ => false
  | .setMaxlen _ => false
  | .installK _ => false
  | .reset => false
  | .read v => readableInK v
  | .command _ => true
  | .micro _ => true
  | .writeTx _ _ => true
  | .setCur _ => true
  | .kReturn _ => true

/-- `Exclusive`: the host touches no state an operation uses while it runs (R206); writes of TX and `CUR`
while `K` is invoked are `K`'s own (10_state.md R31). -/
def Exclusive (s : State) : Prop := EachEvent s fun _ e => e.exclusive = true

/-- The bytes an answer of `K` says it wrote are bytes of TX (45_builder.md R161). -/
def WritesInTx (s : State) (a : KAnswer) : Prop := ∀ x ∈ a.writes, x.1 < s.params.txSize

/-- What `K` writes while it is invoked are bytes of TX, which 45_builder.md R161 takes for granted. -/
def KInTx (s : State) : Prop :=
  EachAnswer s WritesInTx ∧
    EachEvent s fun t e => ∀ a bytes, e = .writeTx a bytes → a + bytes.length ≤ t.params.txSize

/-- The configuration is one the model takes (00_scope.md R5). -/
def FormatsDiffer (s : State) : Prop := s.params.firFmt ≠ s.params.rpsiFmt

/-- A good end state (R213): no operation in progress and no fatal assertion. -/
def Good (s : State) : Prop := s.fatal = none ∧ s.phase = .idle

/-! ## Invariants of a run -/

/-- Both memories keep their canonical form and list only addresses they have (10_state.md R27, R28). -/
def MemoriesCanonical (s : State) : Prop :=
  s.rx.wf = true ∧ s.rx.within s.params.rxSize = true ∧
    s.tx.wf = true ∧ s.tx.within s.params.txSize = true

/-- "always 2 when `HDR` is valid" (10_state.md R21), and the whole block lies in RX (20_memory.md R56,
41_header.md R111). -/
def HeaderInRx (s : State) : Prop :=
  ∀ h, s.hdr = some h → h.version = 2 ∧ h.base + h.blockSize ≤ s.params.rxSize

/-- How long the block is that an operation waits to write; `none` where its register does not allow the
build at all (43_fir.md R131, 44_rpsi.md R141). -/
def waitsFor (s : State) : Builder → Option Nat
  | .reserve n => some n
  | .rpsi => s.rpsi.map fun m => 14 + regionLen m.pictureId.toNat
  | .fir =>
    match s.fir with
    | none => none
    | some f =>
      if 1 ≤ f.reqs.length ∧ f.reqs.length ≤ 32766 then some (12 + 8 * f.reqs.length) else none

/-- An outstanding invocation of `K` was handed TX bytes below its cursor in canonical form, by an operation
that may go on and whose block did not fit; no fatal assertion is set meanwhile (45_builder.md R160,
60_exceptions.md R178). -/
def WaitingSound (s : State) : Prop :=
  ∀ k, s.phase = .inK k →
    s.fatal = none ∧ k.handed.wf = true ∧
      k.handed.within (min k.cursor s.params.txSize) = true ∧
      ∃ n, waitsFor s k.builder = some n ∧ s.maxlen < k.cursor + n

/-- The invariant of the machine. -/
def Inv (s : State) : Prop := MemoriesCanonical s ∧ HeaderInRx s ∧ WaitingSound s

end Sys2Proof.Machine
end

