-- ==== Sys2Proof/Certificates/Slice0/Obligations.lean ====
section
/-! DEFINITION. The statements for the provers, from the numbered rules of spec/. -/

open Sys2Proof Sys2Proof.Machine

/-! ## ByteCodec (spec/40_bytecodec.md, spec/20_memory.md) -/

/-- R101 to R104: the result is the big-endian number of the bytes read, and nothing else changes; an
access that leaves RX raises `Fatal(OutOfBounds)` under the name of the operation. -/
def Obligations.ByteReadsReturnBigEndian : Prop :=
  ∀ (s : State) (a : Nat) (b0 b1 b2 b3 : Byte),
    (s.rx.byte? a = some b0 → a + 1 ≤ s.params.rxSize →
      exec (.rdbe8 a) s = .next { s with result := .value b0.toNat }) ∧
    (s.rx.byte? a = some b0 → s.rx.byte? (a + 1) = some b1 → a + 2 ≤ s.params.rxSize →
      exec (.rdbe16 a) s = .next { s with result := .value (b0.toNat * 256 + b1.toNat) }) ∧
    (s.rx.byte? a = some b0 → s.rx.byte? (a + 1) = some b1 → s.rx.byte? (a + 2) = some b2 →
      a + 3 ≤ s.params.rxSize →
      exec (.rdbe24 a) s =
        .next { s with result := .value (b0.toNat * 65536 + b1.toNat * 256 + b2.toNat) }) ∧
    (s.rx.byte? a = some b0 → s.rx.byte? (a + 1) = some b1 → s.rx.byte? (a + 2) = some b2 →
      s.rx.byte? (a + 3) = some b3 → a + 4 ≤ s.params.rxSize →
      exec (.rdbe32 a) s =
        .next { s with
          result := .value
            (b0.toNat * 2 ^ 24 + b1.toNat * 2 ^ 16 + b2.toNat * 2 ^ 8 + b3.toNat) }) ∧
    (s.fatal = none → s.params.rxSize < a + 1 →
      exec (.rdbe8 a) s = .next { s with fatal := some ⟨.outOfBounds, 0x01⟩ }) ∧
    (s.fatal = none → s.params.rxSize < a + 2 →
      exec (.rdbe16 a) s = .next { s with fatal := some ⟨.outOfBounds, 0x02⟩ }) ∧
    (s.fatal = none → s.params.rxSize < a + 3 →
      exec (.rdbe24 a) s = .next { s with fatal := some ⟨.outOfBounds, 0x03⟩ }) ∧
    (s.fatal = none → s.params.rxSize < a + 4 →
      exec (.rdbe32 a) s = .next { s with fatal := some ⟨.outOfBounds, 0x04⟩ })

/-- R33 and log 7 (the model's choice): an operation that reads RX, all of its accesses lying in RX, stops
with the fault that names the first byte without value it comes to, `e`. `FIR.PARSE` passes over the three
reserved bytes of an entry (R130), and `RPSI.PARSE` reads nothing behind a padding count of 8 or more
(R140). -/
def Obligations.ValuelessRxByteFaults : Prop :=
  ∀ (s : State) (a e : Nat), a ≤ e → s.rx.byte? e = none →
    ((∀ x, a ≤ x → x < e → (s.rx.byte? x).isSome = true) →
      (e < a + 1 → a + 1 ≤ s.params.rxSize → exec (.rdbe8 a) s = .fault (.rxNoValue e)) ∧
      (e < a + 2 → a + 2 ≤ s.params.rxSize → exec (.rdbe16 a) s = .fault (.rxNoValue e)) ∧
      (e < a + 3 → a + 3 ≤ s.params.rxSize → exec (.rdbe24 a) s = .fault (.rxNoValue e)) ∧
      (e < a + 4 → a + 4 ≤ s.params.rxSize → exec (.rdbe32 a) s = .fault (.rxNoValue e)) ∧
      (e < a + 4 ∧ a + 4 ≤ s.params.rxSize ∨ e < a + 8 ∧ a + 8 ≤ s.params.rxSize →
        exec (.fbRd a) s = .fault (.rxNoValue e)) ∧
      (∀ avail, 4 ≤ avail → e < a + 4 → a + avail ≤ s.params.rxSize →
        exec (.hdrParse a avail) s = .fault (.rxNoValue e))) ∧
    (∀ h, s.hdr = some h → a = h.base + 4 → e < a + 4 * h.lengthWords.toNat →
      a + 4 * h.lengthWords.toNat ≤ s.params.rxSize → h.packetType = s.params.psfbPt →
      (h.formatOrCount = s.params.firFmt → 16 ≤ 4 * h.lengthWords.toNat →
        (4 * h.lengthWords.toNat - 8) % 8 = 0 → e < a + 8 ∨ (e - (a + 8)) % 8 < 5 →
        (∀ x, a ≤ x → x < e → x < a + 8 ∨ (x - (a + 8)) % 8 < 5 →
          (s.rx.byte? x).isSome = true) →
        exec .firParse s = .fault (.rxNoValue e)) ∧
      (h.formatOrCount = s.params.rpsiFmt → s.params.firFmt ≠ s.params.rpsiFmt →
        11 ≤ 4 * h.lengthWords.toNat →
        (∀ x, a ≤ x → x < e → (s.rx.byte? x).isSome = true) →
        (∀ pc, a + 8 < e → s.rx.byte? (a + 8) = some pc → pc.toNat < 8) →
        exec .rpsiParse s = .fault (.rxNoValue e)))

/-- R105 to R108: the bytes of the value are stored most significant first and every other byte is as
before; an access that leaves TX stores nothing and raises `Fatal(OutOfBounds)`. -/
def Obligations.ByteWritesStoreBigEndian : Prop :=
  ∀ (s : State) (a : Nat),
    (∀ v : BitVec 8, a + 1 ≤ s.params.txSize →
      ∃ m, exec (.wrbe8 a v) s = .next { s with tx := m } ∧ Stored s.tx m a [v]) ∧
    (∀ v : BitVec 16, a + 2 ≤ s.params.txSize →
      ∃ m, exec (.wrbe16 a v) s = .next { s with tx := m } ∧
        Stored s.tx m a [v.extractLsb' 8 8, v.extractLsb' 0 8]) ∧
    (∀ v : BitVec 24, a + 3 ≤ s.params.txSize →
      ∃ m, exec (.wrbe24 a v) s = .next { s with tx := m } ∧
        Stored s.tx m a [v.extractLsb' 16 8, v.extractLsb' 8 8, v.extractLsb' 0 8]) ∧
    (∀ v : BitVec 32, a + 4 ≤ s.params.txSize →
      ∃ m, exec (.wrbe32 a v) s = .next { s with tx := m } ∧
        Stored s.tx m a
          [v.extractLsb' 24 8, v.extractLsb' 16 8, v.extractLsb' 8 8, v.extractLsb' 0 8]) ∧
    (∀ v, s.fatal = none → s.params.txSize < a + 1 →
      exec (.wrbe8 a v) s = .next { s with fatal := some ⟨.outOfBounds, 0x09⟩ }) ∧
    (∀ v, s.fatal = none → s.params.txSize < a + 2 →
      exec (.wrbe16 a v) s = .next { s with fatal := some ⟨.outOfBounds, 0x0A⟩ }) ∧
    (∀ v, s.fatal = none → s.params.txSize < a + 3 →
      exec (.wrbe24 a v) s = .next { s with fatal := some ⟨.outOfBounds, 0x0B⟩ }) ∧
    (∀ v, s.fatal = none → s.params.txSize < a + 4 →
      exec (.wrbe32 a v) s = .next { s with fatal := some ⟨.outOfBounds, 0x0C⟩ })

/-- R109 (which the spec marks as derived): a value written and read back is the value; a write changes
exactly its own bytes; writes to disjoint ranges commute on memories in canonical form. -/
def Obligations.ByteCodecLaws : Prop :=
  ∀ (m : Memory) (a n v : Nat),
    (v < 256 ^ n → (m.write a n v).read a n = .ok v) ∧
    (∀ x, x < a ∨ a + n ≤ x → (m.write a n v).byte? x = m.byte? x) ∧
    (∀ x, a ≤ x → x < a + n → ((m.write a n v).byte? x).isSome = true) ∧
    (∀ b k u, m.wf = true → a + n ≤ b ∨ b + k ≤ a →
      (m.write a n v).write b k u = (m.write b k u).write a n v)

/-- R176, with decision D17 of the spec: what `FB.WR`, `HDR.WR` and the builds have stored when a later write
of theirs leaves TX stays stored, and the latch names the ByteCodec operation that raised. Of a build, which
the host duty `MAXLEN <= TX_SIZE` keeps from it (R56), the first `k` bytes of the block stay, up to fewer
than 4 bytes before the end of TX; that they stay is R176 against the derived R57 (log 21). -/
def Obligations.StoredBytesOutliveLaterFatal : Prop :=
  ∀ (s : State) (c : Nat), s.fatal = none →
    (∀ a b : Ssrc, s.params.txSize < c + 4 →
      exec (.fbWr c a b) s = .next { s with fatal := some ⟨.outOfBounds, 0x0C⟩ }) ∧
    (∀ a b : Ssrc, c + 4 ≤ s.params.txSize → s.params.txSize < c + 8 →
      ∃ m, exec (.fbWr c a b) s =
          .next { s with tx := m, fatal := some ⟨.outOfBounds, 0x0C⟩ } ∧
        Stored s.tx m c (wire32 a)) ∧
    (∀ f t n, s.params.txSize < c + 1 →
      exec (.hdrWr c f t n) s = .next { s with fatal := some ⟨.outOfBounds, 0x09⟩ }) ∧
    (∀ f t n, s.params.txSize = c + 1 →
      ∃ m, exec (.hdrWr c f t n) s =
          .next { s with tx := m, fatal := some ⟨.outOfBounds, 0x09⟩ } ∧
        Stored s.tx m c [(4 : BitVec 3) ++ f]) ∧
    (∀ f t n, c + 2 ≤ s.params.txSize → s.params.txSize < c + 4 →
      ∃ m, exec (.hdrWr c f t n) s =
          .next { s with tx := m, fatal := some ⟨.outOfBounds, 0x0A⟩ } ∧
        Stored s.tx m c [(4 : BitVec 3) ++ f, t]) ∧
    (∀ i block, s.cur + block.length ≤ s.maxlen → s.params.txSize < s.cur + block.length →
      (i = .firBuild ∧ (∃ f, FirReady s f ∧ block = wireFir s.params f) ∨
        i = .rpsiBuild ∧ ∃ m, RpsiReady s m ∧ block = wireRpsi s.params m) →
      ∃ m k op cur, exec i s =
          .next { s with tx := m, cur := cur, fatal := some ⟨.outOfBounds, op⟩ } ∧
        Stored s.tx m s.cur (block.take k) ∧
        op ∈ ([0x09, 0x0A, 0x0B, 0x0C] : List (BitVec 8)) ∧ s.cur ≤ cur ∧ cur ≤ s.cur + k ∧
        (k = 0 ∨ s.cur + k ≤ s.params.txSize) ∧ s.params.txSize < s.cur + k + 4)

/-! ## The common header (spec/41_header.md) -/

/-- R110: a window that leaves RX is `Fatal(OutOfBounds)`; fewer than 4 bytes, a version that is not 2, and
a block larger than the window are `MalformedHeader` and make `HDR` invalid; otherwise every field of
`HDR` is the header's. (A header byte without value is the subject of `ValuelessRxByteFaults`.) -/
def Obligations.HdrParseOutcomes : Prop :=
  ∀ (s : State) (base avail : Nat) (b0 b1 b2 b3 : Byte),
    (s.fatal = none → s.params.rxSize < base + avail →
      exec (.hdrParse base avail) s = .next { s with fatal := some ⟨.outOfBounds, 0x10⟩ }) ∧
    (base + avail ≤ s.params.rxSize → avail < 4 →
      exec (.hdrParse base avail) s = .next { s with hdr := none, status := .malformedHeader }) ∧
    (base + avail ≤ s.params.rxSize → 4 ≤ avail → HoldsBytes s.rx base [b0, b1, b2, b3] →
      b0.extractLsb' 6 2 ≠ 2 ∨ avail < 4 + 4 * (b2.toNat * 256 + b3.toNat) →
      exec (.hdrParse base avail) s = .next { s with hdr := none, status := .malformedHeader }) ∧
    (base + avail ≤ s.params.rxSize → 4 ≤ avail → HoldsBytes s.rx base [b0, b1, b2, b3] →
      b0.extractLsb' 6 2 = 2 → 4 + 4 * (b2.toNat * 256 + b3.toNat) ≤ avail →
      exec (.hdrParse base avail) s = .next { s with
        hdr := some ⟨2, b0.getLsbD 5, b0.extractLsb' 0 5, b1, b2 ++ b3, base⟩, status := .ok })

/-- R112: `Fir`, `Rpsi` or `Unknown` by packet type and format, numbered 1, 2 and 0; no valid header is
`Fatal(InvalidRegister)`. -/
def Obligations.DispatchAnswersKind : Prop :=
  ∀ s : State,
    (s.hdr = none → s.fatal = none →
      exec .dispatch s = .next { s with fatal := some ⟨.invalidRegister, 0x11⟩ }) ∧
    (∀ h, s.hdr = some h → ∃ k : Kind,
      exec .dispatch s = .next { s with status := .ok, result := .kind k } ∧
      (h.packetType = s.params.psfbPt ∧ h.formatOrCount = s.params.firFmt → k = .fir) ∧
      (h.packetType = s.params.psfbPt ∧ h.formatOrCount ≠ s.params.firFmt ∧
        h.formatOrCount = s.params.rpsiFmt → k = .rpsi) ∧
      (h.packetType ≠ s.params.psfbPt ∨
        h.formatOrCount ≠ s.params.firFmt ∧ h.formatOrCount ≠ s.params.rpsiFmt →
          k = .unknown)) ∧
    Kind.unknown.code = 0 ∧ Kind.fir.code = 1 ∧ Kind.rpsi.code = 2

/-- R87: the four bytes `HDR.WR` stores for a block length the spec allows, inside TX. -/
def Obligations.HdrWrStoresHeader : Prop :=
  ∀ (s : State) (c n : Nat) (f : BitVec 5) (t : BitVec 8),
    n % 4 = 0 → 4 ≤ n → n ≤ 262144 → c + 4 ≤ s.params.txSize →
    ∃ m, exec (.hdrWr c f t n) s = .next { s with tx := m } ∧
      Stored s.tx m c
        [BitVec.ofNat 8 (0x80 + f.toNat), t, BitVec.ofNat 8 ((n / 4 - 1) / 256),
          BitVec.ofNat 8 ((n / 4 - 1) % 256)] ∧
      0x80 + f.toNat < 256 ∧ (n / 4 - 1) / 256 < 256

/-! ## The common feedback fields (spec/42_feedback_common.md) -/

/-- R120: the two big-endian SSRCs at `p` and `p + 4`; a read that leaves RX raises through `RDBE32`. -/
def Obligations.FbRdReturnsSsrcs : Prop :=
  ∀ (s : State) (p : Nat) (sender media : Ssrc),
    (p + 8 ≤ s.params.rxSize → HoldsBytes s.rx p (wire32 sender ++ wire32 media) →
      exec (.fbRd p) s = .next { s with result := .ssrcs sender media }) ∧
    (s.fatal = none → s.params.rxSize < p + 4 →
      exec (.fbRd p) s = .next { s with fatal := some ⟨.outOfBounds, 0x04⟩ }) ∧
    (s.fatal = none → p + 4 ≤ s.params.rxSize → s.params.rxSize < p + 8 →
      HoldsBytes s.rx p (wire32 sender) →
      exec (.fbRd p) s = .next { s with fatal := some ⟨.outOfBounds, 0x04⟩ })

/-- R121: the two SSRCs stored big-endian at `c` and `c + 4`; a write that leaves TX raises through
`WRBE32`. -/
def Obligations.FbWrStoresSsrcs : Prop :=
  ∀ (s : State) (c : Nat) (sender media : Ssrc),
    (c + 8 ≤ s.params.txSize →
      ∃ m, exec (.fbWr c sender media) s = .next { s with tx := m } ∧
        Stored s.tx m c (wire32 sender ++ wire32 media)) ∧
    (s.fatal = none → s.params.txSize < c + 8 →
      ∃ t, exec (.fbWr c sender media) s = .next t ∧ t.fatal = some ⟨.outOfBounds, 0x0C⟩)

/-! ## The Fir codec (spec/43_fir.md) -/

/-- `FIR.PARSE` (R130) of a FIR block with `n` entries, the reserved bytes not looked at and `media_ssrc`
stored as the wire holds it (decision D21 of the spec). -/
def Obligations.FirParseDecodes : Prop :=
  ∀ (s : State) (h : Hdr) (sender media : Ssrc) (reqs : List Request),
    s.hdr = some h → h.packetType = s.params.psfbPt → h.formatOrCount = s.params.firFmt →
    1 ≤ reqs.length → h.lengthWords.toNat = 2 + 2 * reqs.length →
    h.base + 12 + 8 * reqs.length ≤ s.params.rxSize →
    HoldsBytes s.rx (h.base + 4) (wire32 sender ++ wire32 media) →
    (∀ i, (hi : i < reqs.length) →
      HoldsBytes s.rx (h.base + 12 + 8 * i) (wire32 reqs[i].ssrc ++ [reqs[i].seqNr])) →
    exec .firParse s = .next { s with fir := some ⟨sender, media, reqs⟩, status := .ok }

/-- The other ends of `FIR.PARSE` (R130, R174): no valid header (decision D6 of the spec), a header of
another message, a payload below 16 bytes, a payload that is no whole number of entries. -/
def Obligations.FirParseRejects : Prop :=
  ∀ s : State,
    (s.fatal = none → s.hdr = none →
      exec .firParse s = .next { s with fatal := some ⟨.invalidRegister, 0x20⟩ }) ∧
    (∀ h, s.hdr = some h → s.fatal = none →
      h.packetType ≠ s.params.psfbPt ∨ h.formatOrCount ≠ s.params.firFmt →
      exec .firParse s = .next { s with fatal := some ⟨.wrongDispatch, 0x20⟩ }) ∧
    (∀ h, s.hdr = some h → h.packetType = s.params.psfbPt → h.formatOrCount = s.params.firFmt →
      4 * h.lengthWords.toNat < 16 →
      exec .firParse s = .next { s with fir := none, status := .tooShort }) ∧
    (∀ h, s.hdr = some h → h.packetType = s.params.psfbPt → h.formatOrCount = s.params.firFmt →
      16 ≤ 4 * h.lengthWords.toNat → (4 * h.lengthWords.toNat - 8) % 8 ≠ 0 →
      exec .firParse s = .next { s with fir := none, status := .badAlignment })

/-- `FIR.BUILD` (R131, R132) where the block fits: the wire form of the message is stored at the cursor,
which moves behind it, and nothing else changes. -/
def Obligations.FirBuildWritesBlock : Prop :=
  ∀ (s : State) (f : Fir), FirReady s f →
    s.cur + (12 + 8 * f.reqs.length) ≤ s.maxlen →
    s.cur + (12 + 8 * f.reqs.length) ≤ s.params.txSize →
    ∃ m, exec .firBuild s = .next { s with
          tx := m, cur := s.cur + (12 + 8 * f.reqs.length), status := .ok } ∧
      (wireFir s.params f).length = 12 + 8 * f.reqs.length ∧
      Stored s.tx m s.cur (wireFir s.params f)

/-- R210: an empty list is `Fatal(EmptyFirList)` and no status code. -/
def Obligations.EmptyFirListIsFatal : Prop :=
  ∀ (s : State) (f : Fir), s.fatal = none → s.fir = some f → f.reqs = [] →
    exec .firBuild s = .next { s with fatal := some ⟨.emptyFirList, 0x21⟩ }

/-- The assertions of the builds that rest on decisions D6 and D16 of the spec (R131, R141): no valid
register, and more than 32766 entries. -/
def Obligations.BuildsAssertTheirRegister : Prop :=
  ∀ s : State, s.fatal = none →
    (s.fir = none →
      exec .firBuild s = .next { s with fatal := some ⟨.invalidRegister, 0x21⟩ }) ∧
    (∀ f, s.fir = some f → 32766 < f.reqs.length →
      exec .firBuild s = .next { s with fatal := some ⟨.lengthOverflow, 0x21⟩ }) ∧
    (s.rpsi = none →
      exec .rpsiBuild s = .next { s with fatal := some ⟨.invalidRegister, 0x31⟩ })

/-! ## The Rpsi codec (spec/44_rpsi.md, spec/30_encoding.md) -/

/-- `RPSI.PARSE` (R140) of a block whose padding count is `pc`, whose payload-type byte is `ptb` and whose
native region is `region`. The identifier's layout, the 64-bit limit and the canonical form rest on
decisions D8, D10 and D9 of the spec; the statement holds for both values of `RPSI_CANONICAL`. -/
def Obligations.RpsiParseDecodes : Prop :=
  ∀ (s : State) (h : Hdr) (sender media : Ssrc) (pc ptb : Byte) (region : List Byte) (v : Nat),
    s.hdr = some h → h.packetType = s.params.psfbPt → h.formatOrCount = s.params.rpsiFmt →
    1 ≤ region.length → 4 * h.lengthWords.toNat = 10 + region.length →
    h.base + 14 + region.length ≤ s.params.rxSize →
    HoldsBytes s.rx (h.base + 4) (wire32 sender ++ wire32 media ++ [pc, ptb] ++ region) →
    s.rx.read (h.base + 14) region.length = .ok (v * 2 ^ pc.toNat) →
    pc.toNat < 8 → v < 2 ^ 64 →
    (s.params.rpsiCanonical = true →
      pc.toNat = padBits v ∧ region.length = alignRegion (nativeBytes v)) →
    exec .rpsiParse s = .next { s with
      rpsi := some ⟨sender, media, ptb.extractLsb' 0 7, BitVec.ofNat 64 v⟩, status := .ok }

/-- The other ends of `RPSI.PARSE` (R140, R142, R174): no valid header (D6), a header of another message,
a payload below 11 bytes, and the `BadPadding` cases (D9 and D10 name two of them). -/
def Obligations.RpsiParseRejects : Prop :=
  ∀ s : State,
    (s.fatal = none → s.hdr = none →
      exec .rpsiParse s = .next { s with fatal := some ⟨.invalidRegister, 0x30⟩ }) ∧
    (∀ h, s.hdr = some h → s.fatal = none →
      h.packetType ≠ s.params.psfbPt ∨ h.formatOrCount ≠ s.params.rpsiFmt →
      exec .rpsiParse s = .next { s with fatal := some ⟨.wrongDispatch, 0x30⟩ }) ∧
    (∀ h, s.hdr = some h → h.packetType = s.params.psfbPt → h.formatOrCount = s.params.rpsiFmt →
      (4 * h.lengthWords.toNat < 11 →
        exec .rpsiParse s = .next { s with rpsi := none, status := .tooShort }) ∧
      (∀ (sender media : Ssrc) (pc : Byte), 11 ≤ 4 * h.lengthWords.toNat →
        h.base + 13 ≤ s.params.rxSize →
        HoldsBytes s.rx (h.base + 4) (wire32 sender ++ wire32 media ++ [pc]) → 8 ≤ pc.toNat →
        exec .rpsiParse s = .next { s with rpsi := none, status := .badPadding }) ∧
      (∀ (sender media : Ssrc) (pc ptb : Byte) (region : List Byte) (v : Nat),
        1 ≤ region.length → 4 * h.lengthWords.toNat = 10 + region.length →
        h.base + 14 + region.length ≤ s.params.rxSize →
        HoldsBytes s.rx (h.base + 4) (wire32 sender ++ wire32 media ++ [pc, ptb] ++ region) →
        s.rx.read (h.base + 14) region.length = .ok v → pc.toNat < 8 →
        v % 2 ^ pc.toNat ≠ 0 ∨ 2 ^ 64 ≤ v / 2 ^ pc.toNat ∨
          s.params.rpsiCanonical = true ∧
            (pc.toNat ≠ padBits (v / 2 ^ pc.toNat) ∨
              region.length ≠ alignRegion (nativeBytes (v / 2 ^ pc.toNat))) →
        exec .rpsiParse s = .next { s with rpsi := none, status := .badPadding }))

/-- `RPSI.BUILD` (R141, R143) where the block fits: the wire form of the message is stored at the cursor,
which moves behind it, and nothing else changes (the region's layout is decision D8 of the spec, its byte
count D11). -/
def Obligations.RpsiBuildWritesBlock : Prop :=
  ∀ (s : State) (m : Rpsi), RpsiReady s m →
    s.cur + (14 + alignRegion (nativeBytes m.pictureId.toNat)) ≤ s.maxlen →
    s.cur + (14 + alignRegion (nativeBytes m.pictureId.toNat)) ≤ s.params.txSize →
    ∃ tx, exec .rpsiBuild s = .next { s with
          tx := tx, cur := s.cur + (14 + alignRegion (nativeBytes m.pictureId.toNat)),
          status := .ok } ∧
      (wireRpsi s.params m).length = 14 + alignRegion (nativeBytes m.pictureId.toNat) ∧
      Stored s.tx tx s.cur (wireRpsi s.params m)

/-- R142, which rests on decision D9 of the spec: with `RPSI_CANONICAL` true, a block `RPSI.PARSE` accepts
is, from its common feedback fields on, the block `RPSI.BUILD` writes for the decoded message, but for
the top bit of the payload-type byte. -/
def Obligations.CanonicalParseAcceptsBuiltFormOnly : Prop :=
  ∀ (s t : State) (h : Hdr), s.params.rpsiCanonical = true → s.hdr = some h → s.fatal = none →
    exec .rpsiParse s = .next t → t.fatal = none → t.status = .ok →
    ∃ m, t.rpsi = some m ∧
      4 * h.lengthWords.toNat = 10 + alignRegion (nativeBytes m.pictureId.toNat) ∧
      (∀ i, 4 ≤ i → i ≠ 13 → i < 4 + 4 * h.lengthWords.toNat →
        s.rx.byte? (h.base + i) = (wireRpsi s.params m)[i]?) ∧
      ∃ ptb, s.rx.byte? (h.base + 13) = some ptb ∧ ptb.extractLsb' 0 7 = m.payloadType

/-- R144 (3): setting any of the padding bits of the last byte of a block that `RPSI.PARSE` accepts makes
it `BadPadding`, for both values of `RPSI_CANONICAL`. -/
def Obligations.FlippedPaddingIsRejected : Prop :=
  ∀ (s t : State) (h : Hdr) (pc b : Byte), s.hdr = some h → s.fatal = none →
    exec .rpsiParse s = .next t → t.fatal = none → t.status = .ok →
    s.rx.byte? (h.base + 12) = some pc → b.toNat % 2 ^ pc.toNat ≠ 0 →
    exec .rpsiParse { s with rx := s.rx.put (h.base + 3 + 4 * h.lengthWords.toNat) b } =
      .next { s with
        rx := s.rx.put (h.base + 3 + 4 * h.lengthWords.toNat) b, rpsi := none,
        status := .badPadding }

/-- R82: `BitLen`. -/
def Obligations.BitLenIsMinimal : Prop :=
  bitLen 0 = 1 ∧
    (∀ v, 1 ≤ v → 2 ^ (bitLen v - 1) ≤ v ∧ v < 2 ^ bitLen v ∧
      ∀ b, 1 ≤ b → 2 ^ (b - 1) ≤ v → v < 2 ^ b → b = bitLen v) ∧
    (∀ v, v < 2 ^ 64 → 1 ≤ bitLen v ∧ bitLen v ≤ 64)

/-- R83, with decision D11 of the spec: `NativeBytes` is the byte count of `BitLen` rounded up, `PadBits`
what is left over, nothing at an exact multiple of 8. -/
def Obligations.NativeBytesAndPadding : Prop :=
  ∀ v, bitLen v ≤ 8 * nativeBytes v ∧ 8 * nativeBytes v < bitLen v + 8 ∧
    padBits v + bitLen v = 8 * nativeBytes v ∧ padBits v ≤ 7 ∧
    (bitLen v % 8 = 0 → padBits v = 0) ∧
    (v < 2 ^ 64 → 1 ≤ nativeBytes v ∧ nativeBytes v ≤ 8) ∧
    v * 2 ^ padBits v < 256 ^ nativeBytes v

/-- R84 and R143, with decision D8 of the spec: `AlignRegion(n)` is the smallest region length that makes
the block whole 32-bit words, and the block is 16, 20 or 24 bytes long by the identifier's bit length. -/
def Obligations.RegionFillsWholeWords : Prop :=
  (∀ n, n ≤ alignRegion n ∧ (14 + alignRegion n) % 4 = 0 ∧
    ∀ l, n ≤ l → (14 + l) % 4 = 0 → alignRegion n ≤ l) ∧
  (∀ v, (bitLen v ≤ 16 → rpsiBlockLen v = 16) ∧
    (17 ≤ bitLen v → bitLen v ≤ 48 → rpsiBlockLen v = 20) ∧
    (49 ≤ bitLen v → bitLen v ≤ 64 → rpsiBlockLen v = 24))

/-! ## Build and parse together (R133, R144) -/

/-- R133 (1), derived by the spec: a FIR block built at the cursor of `s`, copied to RX at `base` of a
machine with the same parameters, is accepted by `HDR.PARSE`, `DISPATCH` and `FIR.PARSE`, and gives the
message back with `media_ssrc` 0. -/
def Obligations.FirBuildThenParse : Prop :=
  ∀ (s t u : State) (f : Fir) (base : Nat), FirReady s f →
    s.cur + (12 + 8 * f.reqs.length) ≤ s.maxlen → s.maxlen ≤ s.params.txSize →
    exec .firBuild s = .next t →
    u.params = s.params → base + (12 + 8 * f.reqs.length) ≤ u.params.rxSize →
    (∀ i, i < 12 + 8 * f.reqs.length → u.rx.byte? (base + i) = t.tx.byte? (s.cur + i)) →
    ∃ u1 u2, exec (.hdrParse base (12 + 8 * f.reqs.length)) u = .next u1 ∧ u1.status = .ok ∧
      exec .dispatch u1 = .next u2 ∧ u2.result = .kind .fir ∧
      exec .firParse u2 = .next { u2 with fir := some { f with mediaSsrc := 0 }, status := .ok }

/-- R144 (1), derived by the spec, for both values of `RPSI_CANONICAL`: an RPSI block built, copied to RX
and parsed gives all four fields back. -/
def Obligations.RpsiBuildThenParse : Prop :=
  ∀ (s t u : State) (m : Rpsi) (base : Nat), RpsiReady s m → FormatsDiffer s →
    s.cur + rpsiBlockLen m.pictureId.toNat ≤ s.maxlen → s.maxlen ≤ s.params.txSize →
    exec .rpsiBuild s = .next t →
    u.params = s.params → base + rpsiBlockLen m.pictureId.toNat ≤ u.params.rxSize →
    (∀ i, i < rpsiBlockLen m.pictureId.toNat →
      u.rx.byte? (base + i) = t.tx.byte? (s.cur + i)) →
    ∃ u1 u2, exec (.hdrParse base (rpsiBlockLen m.pictureId.toNat)) u = .next u1 ∧
      u1.status = .ok ∧ exec .dispatch u1 = .next u2 ∧ u2.result = .kind .rpsi ∧
      exec .rpsiParse u2 = .next { u2 with rpsi := some m, status := .ok }

/-- R133 (4), derived by the spec: a FIR block with `media_ssrc`, reserved bytes and padding flag 0 that is
parsed and built again is the same block, byte for byte. -/
def Obligations.FirParseThenBuild : Prop :=
  ∀ (s t u v : State) (base avail : Nat) (h : Hdr) (f : Fir), s.fatal = none →
    exec (.hdrParse base avail) s = .next t → t.hdr = some h → t.status = .ok →
    exec .firParse t = .next u → u.fatal = none → u.status = .ok → u.fir = some f →
    h.hasPadding = false → f.mediaSsrc = 0 →
    (∀ i, i < f.reqs.length → HoldsBytes s.rx (base + 17 + 8 * i) [0, 0, 0]) →
    u.cur + h.blockSize ≤ u.maxlen → u.maxlen ≤ u.params.txSize →
    exec .firBuild u = .next v →
    v.status = .ok ∧ v.cur = u.cur + h.blockSize ∧
      ∀ i, i < h.blockSize → v.tx.byte? (u.cur + i) = s.rx.byte? (base + i)

/-! ## BufferedPacketBuilder (spec/45_builder.md) -/

/-- `BLD.RESERVE` (R160) with room answers ok and changes nothing else; without room (a cursor beyond
`MAXLEN` included, decision D15 of the spec) it and the two builds invoke `K` with the cursor, and no byte
of the block has been written. -/
def Obligations.SpaceTestDecides : Prop :=
  ∀ s : State,
    (∀ n, s.cur + n ≤ s.maxlen →
      exec (.bldReserve n) s = .next { s with result := .room true }) ∧
    (∀ n, s.maxlen < s.cur + n →
      exec (.bldReserve n) s = .next { s with
        phase := .inK ⟨.reserve n, s.cur, s.tx.below (min s.cur s.params.txSize)⟩ }) ∧
    (∀ f, FirReady s f → s.maxlen < s.cur + (12 + 8 * f.reqs.length) →
      exec .firBuild s = .next { s with
        phase := .inK ⟨.fir, s.cur, s.tx.below (min s.cur s.params.txSize)⟩ }) ∧
    (∀ m, RpsiReady s m → s.maxlen < s.cur + rpsiBlockLen m.pictureId.toNat →
      exec .rpsiBuild s = .next { s with
        phase := .inK ⟨.rpsi, s.cur, s.tx.below (min s.cur s.params.txSize)⟩ })

/-- R162: `BLD.COMMIT` passes where the cursor is the end offset and raises `Fatal(CursorInvariant)` where
it is not. -/
def Obligations.CommitChecksEndOffset : Prop :=
  ∀ (s : State) (endOff : Nat),
    (s.cur = endOff → exec (.bldCommit endOff) s = .next s) ∧
    (s.cur ≠ endOff → s.fatal = none →
      exec (.bldCommit endOff) s = .next { s with fatal := some ⟨.cursorInvariant, 0x41⟩ })

/-- R164, derived by the spec: when `K` answers failure a build ends with `BuildFailed`, `CUR` and TX are
as `K` left them, one record is appended to `FLUSHLOG`, and nothing else changes. (`curWritten` is the model's
own record that `CUR` has been written, log 22; whether an answer is the installed continuation's or one of
the events to come, log 23.) -/
def Obligations.KFailureEndsBuild : Prop :=
  ∀ (s : State) (k : Invocation) (a : KAnswer) (rest : List Event), FormatsDiffer s →
    s.phase = .inK k → kAnswer? k s = some (a, rest) → WritesInTx s a → a.success = false →
    (k.builder = .fir ∨ k.builder = .rpsi →
      step s = .next { s with
        inbox := rest, phase := .idle, status := .buildFailed, cur := a.cursor,
        curWritten := true, tx := s.tx.putCells a.writes,
        flushLog := s.flushLog ++ [⟨k.cursor, k.handed, false, a.cursor⟩] }) ∧
    (∀ n, k.builder = .reserve n →
      step s = .next { s with
        inbox := rest, phase := .idle, result := .room false, cur := a.cursor,
        curWritten := true, tx := s.tx.putCells a.writes,
        flushLog := s.flushLog ++ [⟨k.cursor, k.handed, false, a.cursor⟩] })

/-- R160 ("goto loop"): when `K` answers success the operation goes on from its space test, on the cursor
and the TX bytes `K` left, as the same operation issued there would (log 11). (`curWritten` is the model's
own field, log 22; for where the answer comes from, log 23.) -/
def Obligations.KSuccessTestsAgain : Prop :=
  ∀ (s : State) (k : Invocation) (a : KAnswer) (rest : List Event), FormatsDiffer s →
    s.phase = .inK k → kAnswer? k s = some (a, rest) → WritesInTx s a → a.success = true →
    step s = exec
      (match k.builder with
        | .fir => .firBuild
        | .rpsi => .rpsiBuild
        | .reserve n => .bldReserve n)
      { s with
        inbox := rest, phase := .idle, cur := a.cursor, curWritten := true,
        tx := s.tx.putCells a.writes,
        flushLog := s.flushLog ++ [⟨k.cursor, k.handed, true, a.cursor⟩] }

/-- R165, with decision D14 of the spec: a continuation that answers success again and again without making
room, whatever it writes into TX, is invoked again and again. After each list of such answers among the
events to come the operation still waits, `FLUSHLOG` has one more record for each, TX is what they left, and
`STATUS` and `FATAL` are as before. A continuation that is installed and answers so (`K_reset` where the
block is longer than `MAXLEN`, for one) is invoked for ever: after any number of steps the operation still
waits. (The two ways an answer comes are the model's, log 23.) -/
def Obligations.LyingContinuationNeverEnds : Prop :=
  ∀ (s : State) (k : Invocation) (n : Nat), FormatsDiffer s → s.fatal = none → s.phase = .inK k →
    waitsFor s k.builder = some n →
    (∀ (answers : List KAnswer) (rest : List Event),
      (∀ a ∈ answers, a.success = true ∧ s.maxlen < a.cursor + n ∧ WritesInTx s a) →
      s.inbox = answers.map .kReturn ++ rest →
      ∃ t k', steps answers.length s = .next t ∧ t.phase = .inK k' ∧ k'.builder = k.builder ∧
        t.flushLog.length = s.flushLog.length + answers.length ∧
        t.tx = answers.foldl (fun m a => m.putCells a.writes) s.tx ∧
        t.status = s.status ∧ t.fatal = none ∧ t.inbox = rest) ∧
    (∀ c : Continuation, s.installed = some c →
      (∀ m x, (c.answer m x).success = true ∧ s.maxlen < (c.answer m x).cursor + n ∧
        WritesInTx s (c.answer m x)) →
      (∀ a rest, s.inbox ≠ .kReturn a :: rest) → (∀ rest, s.inbox ≠ .reset :: rest) →
      ∀ j, ∃ t k', steps j s = .next t ∧ t.phase = .inK k' ∧ k'.builder = k.builder ∧
        t.flushLog.length = s.flushLog.length + j ∧ t.status = s.status ∧ t.fatal = none ∧
        t.inbox = s.inbox ∧ t.installed = some c)

/-- R203, derived by the spec: under `NoFatal`, `TxContext`, `FirReady` or `RpsiReady`, `KTotal`, `KHonest`,
`KQuiet` and `Exclusive` (and `K` writing bytes of TX only, R161), a build command ends in a good state with
`Ok` or `BuildFailed`, after at most one invocation of `K`; until then it does nothing but wait for `K`. -/
def Obligations.HonestContinuationEndsBuild : Prop :=
  ∀ (s : State) (c : Command) (rest : List Event) (n : Nat), NoFatal s → FormatsDiffer s →
    TxContext s → s.phase = .idle → s.inbox = .command c :: rest →
    (c.op = 0x21 ∧ (∃ f, FirReady s f ∧ n = 12 + 8 * f.reqs.length) ∨
      c.op = 0x31 ∧ ∃ m, RpsiReady s m ∧ n = rpsiBlockLen m.pictureId.toNat) →
    KTotal s → KHonest s n → KQuiet s → Exclusive s → KInTx s →
    ∃ j t, steps (j + 1) s = .next t ∧ Good t ∧ (t.status = .ok ∨ t.status = .buildFailed) ∧
      t.flushLog.length ≤ s.flushLog.length + 1 ∧
      ∀ i u, i < j → steps (i + 1) s = .next u → ∃ k, u.phase = .inK k

/-- R166, derived by the spec, one build at a time: a build that fits appends its block to everything
produced so far, one that invokes `K` appends nothing, and when `K_reset` then makes room for it, its block
is appended. -/
def Obligations.BuildsAppendWholeBlocks : Prop :=
  ∀ (s t : State) (i : Instr) (b : Builder) (block : List Byte), s.maxlen ≤ s.params.txSize →
    (i = .firBuild ∧ b = .fir ∧ (∃ f, FirReady s f ∧ block = wireFir s.params f) ∨
      i = .rpsiBuild ∧ b = .rpsi ∧ ∃ m, RpsiReady s m ∧ block = wireRpsi s.params m) →
    (s.phase = .idle → s.cur + block.length ≤ s.maxlen → exec i s = .next t →
      streamed t = streamed s ++ block.map some) ∧
    (s.phase = .idle → MemoriesCanonical s → s.maxlen < s.cur + block.length →
      exec i s = .next t → streamed t = streamed s) ∧
    (∀ k rest, FormatsDiffer s → s.phase = .inK k → k.builder = b →
      kAnswer? k s = some (kReset, rest) → block.length ≤ s.maxlen → step s = .next t →
      streamed t = streamed s ++ block.map some)

/-! ## Failures, the host port and reset (spec/60_exceptions.md, spec/70_reset_and_hazards.md) -/

/-- R203, derived by the spec: under `NoFatal`, `RxWritten` and the right dispatch a parse sequence ends in
a recoverable outcome. (No operation of the sequence is interrupted, so `Exclusive` asks nothing of a state
inside one; between two of them the statement lets nothing happen.) -/
def Obligations.ParseSequenceNeverFatal : Prop :=
  ∀ (s : State) (base avail : Nat), NoFatal s → RxWritten s base avail →
    ∃ t, exec (.hdrParse base avail) s = .next t ∧ NoFatal t ∧
      (t.status = .malformedHeader ∧ t.hdr = none ∨
        t.status = .ok ∧ ∃ u k, exec .dispatch t = .next u ∧ NoFatal u ∧ u.result = .kind k ∧
          (k = .fir → ∃ v, exec .firParse u = .next v ∧ NoFatal v ∧
            (v.status = .ok ∨ v.status = .tooShort ∨ v.status = .badAlignment)) ∧
          (k = .rpsi → ∃ v, exec .rpsiParse u = .next v ∧ NoFatal v ∧
            (v.status = .ok ∨ v.status = .tooShort ∨ v.status = .badPadding)))

/-- A step between operations runs the operation the next command asks for, on the state with that
command taken from the inbox. -/
def Obligations.StepRunsCommand : Prop :=
  ∀ (s : State) (c : Command) (i : Instr) (rest : List Event), FormatsDiffer s → s.phase = .idle →
    s.fatal = none → s.inbox = .command c :: rest → decodeCommand c = .ok i →
    step s = exec i { s with inbox := rest }

/-- A step runs the micro-operation on the block's own port (log 1) in the same way. -/
def Obligations.StepRunsMicroOperation : Prop :=
  ∀ (s : State) (r : OpRecord) (i : Instr) (rest : List Event), FormatsDiffer s →
    s.phase = .idle → s.fatal = none → s.inbox = .micro r :: rest → decodeMicro r = .ok i →
    step s = exec i { s with inbox := rest }

/-- R79, with decision D3 of the spec: a command whose selector is none of the six host operations raises
`Fatal(BadCommand)`, and `FATAL.op` is the selector given. -/
def Obligations.OtherSelectorsAreBadCommands : Prop :=
  ∀ (s : State) (c : Command) (rest : List Event), FormatsDiffer s → s.phase = .idle →
    s.fatal = none → s.inbox = .command c :: rest →
    c.op ∉ [0x10, 0x11, 0x20, 0x21, 0x30, 0x31] →
    step s = .next { s with inbox := rest, fatal := some ⟨.badCommand, c.op⟩ }

/-- R176, with decision D5 of the spec: while the latch is set a command, whatever its selector, changes no
state at all. -/
def Obligations.LatchedBlockIgnoresCommands : Prop :=
  ∀ (s : State) (c : Command) (r : FatalRecord) (rest : List Event), FormatsDiffer s →
    s.phase = .idle → s.fatal = some r → s.inbox = .command c :: rest →
    step s = .next { s with inbox := rest }

/-- R26, with decision D5 of the spec: once set, the latch keeps its record through every step but reset. -/
def Obligations.OnlyResetClearsFatal : Prop :=
  ∀ (s t : State) (r : FatalRecord), s.fatal = some r → step s = .next t →
    t.fatal = some r ∨ ∃ rest, s.inbox = .reset :: rest

/-- R200, with decision D18 of the spec: what the reset input does, between operations and while `K` is
invoked; RX, TX, `CUR` and `MAXLEN` are untouched. That TX and `CUR` keep what they hold after a reset while
`K` is invoked is the model's choice and more than R200 promises (log 17: the host must treat them as
holding no value); `CUR` then counts as not written. (`result` and `curWritten` are the model's own fields,
logs 8 and 22; that no continuation is installed after reset is R202.) -/
def Obligations.ResetInputRestores : Prop :=
  ∀ (s : State) (rest : List Event), FormatsDiffer s → s.inbox = .reset :: rest →
    step s = .next { s with
      inbox := rest, hdr := none, fir := none, rpsi := none, status := .ok, fatal := none,
      flushLog := [], phase := .idle, result := .nothing, installed := none,
      curWritten := s.curWritten && decide (s.phase = .idle) }

/-- R32, with decision D18 of the spec: what reset leaves, no continuation installed (R28) among it. -/
def Obligations.ResetValues : Prop :=
  State.reset.hdr = none ∧ State.reset.fir = none ∧ State.reset.rpsi = none ∧
    State.reset.status.code = 0 ∧ State.reset.fatalSet = false ∧ State.reset.flushLog = [] ∧
    (∀ x, State.reset.rx.byte? x = none) ∧ (∀ x, State.reset.tx.byte? x = none) ∧
    State.reset.phase = .idle ∧ State.reset.installed = none

/-- R24, with decision D6 of the spec: a host write of a message register makes it valid, and a host read
of an invalid one is refused. -/
def Obligations.HostWritesAndReadsRegisters : Prop :=
  ∀ (s : State) (rest : List Event), FormatsDiffer s → s.phase = .idle →
    (∀ v, s.inbox = .writeFir v :: rest → step s = .next { s with inbox := rest, fir := some v }) ∧
    (∀ v, s.inbox = .writeRpsi v :: rest →
      step s = .next { s with inbox := rest, rpsi := some v }) ∧
    (s.inbox = .read .hdr :: rest → s.hdr = none → step s = .refused (.invalidRead .hdr)) ∧
    (s.inbox = .read .fir :: rest → s.fir = none → step s = .refused (.invalidRead .fir)) ∧
    (s.inbox = .read .rpsi :: rest → s.rpsi = none → step s = .refused (.invalidRead .rpsi)) ∧
    (∀ f, s.inbox = .read .fir :: rest → s.fir = some f → step s = .next { s with inbox := rest })

/-- R206, with decision D23 of the spec: while an operation waits for `K`, a command, every host write of
`FIR`, `RPSI`, RX and `MAXLEN`, and the installing of a continuation are refused. Writes of TX and `CUR`,
which R31 and R206 allow inside `K`, and reads are left out (`HostWritesBuffers`, `HostReadsInsideK`); the
refusal's form is the model's (log 10). While a continuation is installed, which answers at once, no such
event is taken before the operation ends (log 23). -/
def Obligations.HostActsWhileBusyRefused : Prop :=
  ∀ (s : State) (k : Invocation) (e : Event) (rest : List Event), FormatsDiffer s →
    s.phase = .inK k → s.installed = none → s.inbox = e :: rest →
    (∀ a, e ≠ .kReturn a) → (∀ v, e ≠ .read v) → (∀ a bytes, e ≠ .writeTx a bytes) →
    (∀ n, e ≠ .setCur n) → e ≠ .reset →
    step s = .refused .hostWhileBusy

/-- R31, columns "host may read", which R184 calls the only access restrictions: while `K` is invoked
`STATUS`, `FATAL`, RX, TX, `CUR` and `MAXLEN` may be read, which changes nothing, and `HDR`, `FIR` and `RPSI`
may not. (R206 would forbid the read of `MAXLEN` that R31 allows "always"; following R31 and R184 is the
model's reading, log 20. For an installed continuation see log 23.) -/
def Obligations.HostReadsInsideK : Prop :=
  ∀ (s : State) (k : Invocation) (v : HostView) (rest : List Event), FormatsDiffer s →
    s.phase = .inK k → s.installed = none → s.inbox = .read v :: rest →
    (v ∈ [.status, .fatal, .rx, .tx, .cur, .maxlen] → step s = .next { s with inbox := rest }) ∧
    (v ∈ [.hdr, .fir, .rpsi] → step s = .refused .hostWhileBusy)

/-- R31, columns "host may write" of RX, TX, `CUR` and `MAXLEN`, and the installing of `K` (R202): between
operations the host's bytes are stored, inside `K` the bytes of TX and `CUR` may be written too, and an
address the memory does not have is refused, in an answer of `K` as well (log 10). (`curWritten` and
`maxlenWritten` are the model's own fields, log 22; for the installed continuation's form, log 23.) -/
def Obligations.HostWritesBuffers : Prop :=
  ∀ (s : State) (a n : Nat) (bytes : List Byte) (rest : List Event), FormatsDiffer s →
    (s.phase = .idle → s.inbox = .writeRx a bytes :: rest → a + bytes.length ≤ s.params.rxSize →
      ∃ m, step s = .next { s with inbox := rest, rx := m } ∧ Stored s.rx m a bytes) ∧
    (s.phase = .idle → s.inbox = .writeRx a bytes :: rest → s.params.rxSize < a + bytes.length →
      step s = .refused .outsideMemory) ∧
    (s.phase = .idle → s.inbox = .setMaxlen n :: rest →
      step s = .next { s with inbox := rest, maxlen := n, maxlenWritten := true }) ∧
    (∀ c, s.phase = .idle → s.inbox = .installK c :: rest →
      step s = .next { s with inbox := rest, installed := c }) ∧
    (s.phase = .idle ∨ s.installed = none →
      (s.inbox = .writeTx a bytes :: rest → a + bytes.length ≤ s.params.txSize →
        ∃ m, step s = .next { s with inbox := rest, tx := m } ∧ Stored s.tx m a bytes) ∧
      (s.inbox = .writeTx a bytes :: rest → s.params.txSize < a + bytes.length →
        step s = .refused .outsideMemory) ∧
      (s.inbox = .setCur n :: rest →
        step s = .next { s with inbox := rest, cur := n, curWritten := true })) ∧
    (∀ k answer, s.phase = .inK k → kAnswer? k s = some (answer, rest) → ¬ WritesInTx s answer →
      step s = .refused .outsideMemory)

/-- R5, with decision D2 of the spec: a configuration in which FIR and RPSI have one format is refused. -/
def Obligations.AmbiguousConfigurationRefused : Prop :=
  ∀ s : State, s.params.firFmt = s.params.rpsiFmt → step s = .refused .ambiguousFormats

/-- R185 ("The block is idle between commands and keeps all its state while idle") and R207: with nothing
from the host the block stays as it is, idle or waiting for a `K` that has not returned (an installed
continuation returns at once, log 23). -/
def Obligations.BlockWaitsForHost : Prop :=
  ∀ s : State, FormatsDiffer s → s.phase = .idle ∨ s.installed = none → s.inbox = [] →
    step s = .next s

/-! ## Invariants and frames -/

/-- The invariant holds at reset. -/
def Obligations.InvHoldsAtReset : Prop := Inv State.reset

/-- Every step keeps the invariant: canonical memories inside their sizes; a valid `HDR` has version 2 and
its block lies in RX; an outstanding invocation of `K` was handed TX bytes below its cursor, by an operation
that may go on and whose block did not fit. -/
def Obligations.StepKeepsInv : Prop := ∀ s t : State, Inv s → step s = .next t → Inv t

/-- The parameters are no state (R20): no step changes them. -/
def Obligations.ParametersNeverChange : Prop :=
  ∀ s t : State, step s = .next t → t.params = s.params

/-- R31, column "block writes", and R50: which operations may change which state. -/
def Obligations.EachRegisterHasItsWriters : Prop :=
  ∀ (i : Instr) (s t : State), exec i s = .next t →
    t.rx = s.rx ∧ t.maxlen = s.maxlen ∧ t.params = s.params ∧ t.inbox = s.inbox ∧
    t.flushLog = s.flushLog ∧ t.installed = s.installed ∧
    (t.hdr ≠ s.hdr → ∃ base avail, i = .hdrParse base avail) ∧
    (t.fir ≠ s.fir → i = .firParse) ∧
    (t.rpsi ≠ s.rpsi → i = .rpsiParse) ∧
    (t.cur ≠ s.cur → i = .firBuild ∨ i = .rpsiBuild) ∧
    (t.status ≠ s.status → i.hostIssuable = true) ∧
    (t.tx ≠ s.tx → (∃ a v, i = .wrbe8 a v) ∨ (∃ a v, i = .wrbe16 a v) ∨ (∃ a v, i = .wrbe24 a v) ∨
      (∃ a v, i = .wrbe32 a v) ∨ (∃ c f p n, i = .hdrWr c f p n) ∨ (∃ c a b, i = .fbWr c a b) ∨
      i = .firBuild ∨ i = .rpsiBuild)

/-- The frame of the operations that only read: nothing but the result, `STATUS` (of `DISPATCH` alone) and
the latch. -/
def Obligations.ReadingFrame : Prop :=
  ∀ (s t : State) (i : Instr), exec i s = .next t →
    ((∃ a, i = .rdbe8 a ∨ i = .rdbe16 a ∨ i = .rdbe24 a ∨ i = .rdbe32 a ∨ i = .fbRd a) →
      t = { s with result := t.result, fatal := t.fatal }) ∧
    (i = .dispatch → t = { s with result := t.result, status := t.status, fatal := t.fatal }) ∧
    (∀ e, i = .bldCommit e → t = { s with fatal := t.fatal })

/-- The frame of the parses: nothing but the destination register, `STATUS` and the latch; a fatal
assertion leaves the register and `STATUS` alone. -/
def Obligations.ParsingFrame : Prop :=
  ∀ (s t : State) (i : Instr), exec i s = .next t →
    (∀ b n, i = .hdrParse b n →
      t = { s with hdr := t.hdr, status := t.status } ∨ t = { s with fatal := t.fatal }) ∧
    (i = .firParse →
      t = { s with fir := t.fir, status := t.status } ∨ t = { s with fatal := t.fatal }) ∧
    (i = .rpsiParse →
      t = { s with rpsi := t.rpsi, status := t.status } ∨ t = { s with fatal := t.fatal })

/-- The frame of the operations that store at an address: nothing but TX and the latch, and of TX only the
bytes of the access. -/
def Obligations.StoringFrame : Prop :=
  ∀ (s t : State) (i : Instr) (a n : Nat), exec i s = .next t →
    ((∃ v, i = .wrbe8 a v ∧ n = 1) ∨ (∃ v, i = .wrbe16 a v ∧ n = 2) ∨
      (∃ v, i = .wrbe24 a v ∧ n = 3) ∨ (∃ v, i = .wrbe32 a v ∧ n = 4) ∨
      (∃ f p l, i = .hdrWr a f p l ∧ n = 4) ∨ (∃ x y, i = .fbWr a x y ∧ n = 8)) →
    t = { s with tx := t.tx, fatal := t.fatal } ∧
      ∀ x, x < a ∨ a + n ≤ x → t.tx.byte? x = s.tx.byte? x

/-- The frame of the builds and of `BLD.RESERVE` (R57): of TX only the bytes of the block at the cursor,
even where the build ends in a fatal assertion; a build that invokes `K` has written nothing, nor has one
that raises while `MAXLEN <= TX_SIZE`. (Where the host breaks that duty, see `StoredBytesOutliveLaterFatal`.) -/
def Obligations.BuildingFrame : Prop :=
  ∀ (s t : State) (i : Instr), exec i s = .next t →
    (∀ n, i = .bldReserve n → t = { s with result := t.result, phase := t.phase }) ∧
    (i = .firBuild →
      t = { s with
        tx := t.tx, cur := t.cur, status := t.status, fatal := t.fatal, phase := t.phase } ∧
      (∀ f x, s.fir = some f → x < s.cur ∨ s.cur + (12 + 8 * f.reqs.length) ≤ x →
        t.tx.byte? x = s.tx.byte? x) ∧
      (s.fir = none ∨ s.maxlen ≤ s.params.txSize ∧ t.fatal ≠ s.fatal → t.tx = s.tx) ∧
      (t.phase ≠ s.phase → t.tx = s.tx ∧ t.cur = s.cur ∧ t.status = s.status)) ∧
    (i = .rpsiBuild →
      t = { s with
        tx := t.tx, cur := t.cur, status := t.status, fatal := t.fatal, phase := t.phase } ∧
      (∀ m x, s.rpsi = some m → x < s.cur ∨ s.cur + rpsiBlockLen m.pictureId.toNat ≤ x →
        t.tx.byte? x = s.tx.byte? x) ∧
      (s.rpsi = none ∨ s.maxlen ≤ s.params.txSize ∧ t.fatal ≠ s.fatal → t.tx = s.tx) ∧
      (t.phase ≠ s.phase → t.tx = s.tx ∧ t.cur = s.cur ∧ t.status = s.status))

/-! ## Decode and encode -/

/-- Decoding the record of a well-formed operation gives the operation back, every operand at every value. -/
def Obligations.DecodeOfEncode : Prop :=
  ∀ i : Instr, i.wf = true → decode (encode i).op (encode i).args = .ok i

/-- Whatever decodes is well formed and carries the selector it was decoded from. -/
def Obligations.DecodedIsWellFormed : Prop :=
  ∀ (op : BitVec 8) (args : List Nat) (i : Instr), decode op args = .ok i →
    i.wf = true ∧ i.opId = op

/-- R79: the selectors a host may issue are exactly these six. -/
def Obligations.HostSelectorsAreSix : Prop :=
  ∀ c : Command, (∃ i, decodeCommand c = .ok i) ↔ c.op ∈ [0x10, 0x11, 0x20, 0x21, 0x30, 0x31]

/-- R79: `base` and `avail` are "used by `HDR.PARSE` only and ignored by every other operation". -/
def Obligations.OperandsReachHdrParseAlone : Prop :=
  ∀ (c d : Command) (i : Instr), c.op = d.op → c.op ≠ 0x10 →
    (decodeCommand c = .ok i ↔ decodeCommand d = .ok i)

/-- Nine selectors of R2, in the model's record layout (log 2: for `HDR.WR` and `BLD.RESERVE` a block length
travels as the header's length field, so 16 bytes are the operand 3 and the operand 0 is 4 bytes), and a
word of no operation. -/
def Obligations.SelectorsDecode : Prop :=
  decode 0x04 [7] = .ok (.rdbe32 7) ∧ decode 0x0B [5, 0xABCDEF] = .ok (.wrbe24 5 0xABCDEF) ∧
    decodeCommand ⟨0x10, 20, 40⟩ = .ok (.hdrParse 20 40) ∧
    decode 0x12 [8, 3, 206, 3] = .ok (.hdrWr 8 3 206 16) ∧
    decode 0x19 [4, 0x12345678, 0] = .ok (.fbWr 4 0x12345678 0) ∧
    decodeCommand ⟨0x21, 0, 0⟩ = .ok .firBuild ∧ decodeCommand ⟨0x30, 0, 0⟩ = .ok .rpsiParse ∧
    decode 0x41 [20] = .ok (.bldCommit 20) ∧ decodeTableWord 8 0x40 = some (.bldReserve 4) ∧
    decodeTableWord 8 0x55 = none
end

