-- ==== Sys2Proof/Laws/Memory.lean ====
section
/-! SUPPORT. The laws of the byte memories: a read after a write, what a write leaves alone, and the canonical form. -/

namespace Sys2Proof.Machine

/-! ## One byte -/

@[simp] theorem Memory.byte?_nil (x : Nat) : Memory.byte? [] x = none := rfl

theorem Memory.byte?_put (m : Memory) (a : Nat) (b : Byte) (x : Nat) :
    (m.put a b).byte? x = if x = a then some b else m.byte? x := by
  induction m with
  | nil => simp [Memory.put, Memory.byte?, eq_comm]
  | cons c m ih =>
    obtain ⟨k, y⟩ := c
    simp only [Memory.put]
    split
    · simp only [Memory.byte?, eq_comm (a := a)]
    · split
      · next h =>
        subst h
        simp only [Memory.byte?, eq_comm (a := a)]
        by_cases hx : x = a <;> simp [hx]
      · next h =>
        simp only [Memory.byte?, ih]
        by_cases hk : k = x
        · subst hk; simp [Ne.symm h]
        · simp [hk]

theorem Memory.byte?_put_self (m : Memory) (a : Nat) (b : Byte) : (m.put a b).byte? a = some b := by
  simp [Memory.byte?_put]

theorem Memory.byte?_put_ne (m : Memory) {a x : Nat} (b : Byte) (h : x ≠ a) :
    (m.put a b).byte? x = m.byte? x := by
  simp [Memory.byte?_put, h]

/-! ## The canonical form -/

theorem Memory.wf_cons_cons (x y : Host.Cell) (m : Memory) :
    Memory.wf (x :: y :: m) = true ↔ x.1 < y.1 ∧ Memory.wf (y :: m) = true := by
  simp [Memory.wf]

theorem Memory.wf_tail {x : Host.Cell} {m : Memory} (h : Memory.wf (x :: m) = true) :
    Memory.wf m = true := by
  cases m with
  | nil => rfl
  | cons y m => exact ((Memory.wf_cons_cons x y m).1 h).2

theorem Memory.wf_iff_pairwise (m : Memory) :
    Memory.wf m = true ↔ m.Pairwise fun x y => x.1 < y.1 := by
  induction m with
  | nil => simp [Memory.wf]
  | cons x m ih =>
    cases m with
    | nil => simp [Memory.wf]
    | cons y m =>
      rw [Memory.wf_cons_cons, ih, List.pairwise_cons (a := x)]
      constructor
      · rintro ⟨hxy, h⟩
        refine ⟨fun z hz => ?_, h⟩
        rcases List.mem_cons.1 hz with rfl | hz
        · exact hxy
        · exact hxy.trans ((List.pairwise_cons.1 h).1 z hz)
      · rintro ⟨h1, h⟩
        exact ⟨h1 y (by simp), h⟩

theorem Memory.mem_put {m : Memory} {a : Nat} {b : Byte} {x : Host.Cell}
    (h : x ∈ m.put a b) : x = (a, b) ∨ x ∈ m := by
  induction m with
  | nil => simpa [Memory.put] using h
  | cons c m ih =>
    obtain ⟨k, y⟩ := c
    simp only [Memory.put] at h
    split at h
    · simpa using h
    · split at h
      · rcases List.mem_cons.1 h with h | h
        · exact .inl h
        · exact .inr (by simp [h])
      · rcases List.mem_cons.1 h with h | h
        · exact .inr (by simp [h])
        · rcases ih h with h | h
          · exact .inl h
          · exact .inr (by simp [h])

/-- A write keeps the canonical form. -/
theorem Memory.wf_put {m : Memory} (h : m.wf = true) (a : Nat) (b : Byte) : (m.put a b).wf = true := by
  rw [Memory.wf_iff_pairwise] at *
  induction m with
  | nil => simp [Memory.put]
  | cons c m ih =>
    obtain ⟨k, y⟩ := c
    obtain ⟨h1, h2⟩ := List.pairwise_cons.1 h
    simp only [Memory.put]
    split
    · next hak =>
      refine List.pairwise_cons.2 ⟨fun z hz => ?_, h⟩
      rcases List.mem_cons.1 hz with rfl | hz
      · exact hak
      · exact hak.trans (h1 z hz)
    · split
      · next hak => subst hak; exact List.pairwise_cons.2 ⟨h1, h2⟩
      · next h3 h4 =>
        refine List.pairwise_cons.2 ⟨fun z hz => ?_, ih h2⟩
        rcases Memory.mem_put hz with rfl | hz
        · show k < a
          omega
        · exact h1 z hz

theorem Memory.within_iff (m : Memory) (n : Nat) :
    m.within n = true ↔ ∀ x ∈ m, x.1 < n := by
  simp [Memory.within]

/-- A write inside a size keeps every listed address inside it. -/
theorem Memory.within_put {m : Memory} {n : Nat} (h : m.within n = true) {a : Nat} (ha : a < n)
    (b : Byte) : (m.put a b).within n = true := by
  rw [Memory.within_iff] at *
  intro x hx
  rcases Memory.mem_put hx with rfl | hx
  · exact ha
  · exact h x hx

theorem Memory.byte?_eq_none_of_lt {m : Memory} {x : Nat} (h : ∀ c ∈ m, x < c.1) :
    m.byte? x = none := by
  induction m with
  | nil => rfl
  | cons c m ih =>
    obtain ⟨k, y⟩ := c
    have hk : x < k := h (k, y) (by simp)
    simp only [Memory.byte?]
    rw [if_neg (by omega)]
    exact ih fun c hc => h c (by simp [hc])

/-- Two memories in canonical form that hold the same bytes are equal. -/
theorem Memory.ext_of_wf {m m' : Memory} (h : m.wf = true) (h' : m'.wf = true)
    (hb : ∀ x, m.byte? x = m'.byte? x) : m = m' := by
  rw [Memory.wf_iff_pairwise] at *
  induction m generalizing m' with
  | nil =>
    cases m' with
    | nil => rfl
    | cons c m' => simpa [Memory.byte?] using hb c.1
  | cons c m ih =>
    obtain ⟨k, y⟩ := c
    cases m' with
    | nil => simpa [Memory.byte?] using hb k
    | cons d m' =>
      obtain ⟨k', y'⟩ := d
      obtain ⟨h1, h2⟩ := List.pairwise_cons.1 h
      obtain ⟨h1', h2'⟩ := List.pairwise_cons.1 h'
      have hkk : k = k' := by
        by_contra hne
        rcases Nat.lt_or_gt_of_ne hne with hlt | hlt
        · have := hb k
          rw [Memory.byte?_eq_none_of_lt (m := (k', y') :: m') (x := k)] at this
          · simp [Memory.byte?] at this
          · intro c hc
            rcases List.mem_cons.1 hc with rfl | hc
            · exact hlt
            · exact hlt.trans (h1' c hc)
        · have := hb k'
          rw [Memory.byte?_eq_none_of_lt (m := (k, y) :: m) (x := k')] at this
          · simp [Memory.byte?] at this
          · intro c hc
            rcases List.mem_cons.1 hc with rfl | hc
            · exact hlt
            · exact hlt.trans (h1 c hc)
      subst hkk
      have hy : y = y' := by simpa [Memory.byte?] using hb k
      subst hy
      congr 1
      refine ih h2 h2' fun x => ?_
      by_cases hx : k = x
      · subst hx
        rw [Memory.byte?_eq_none_of_lt fun c hc => h1 c hc,
          Memory.byte?_eq_none_of_lt fun c hc => h1' c hc]
      · simpa [Memory.byte?, hx] using hb x

/-! ## Strings of bytes -/

theorem Memory.byte?_putBytes (m : Memory) (a : Nat) (bs : List Byte) (x : Nat) :
    (m.putBytes a bs).byte? x = if a ≤ x ∧ x < a + bs.length then bs[x - a]? else m.byte? x := by
  induction bs generalizing m a with
  | nil => simp only [Memory.putBytes, List.length_nil]; rw [if_neg (by omega)]
  | cons b bs ih =>
    simp only [Memory.putBytes, ih, Memory.byte?_put, List.length_cons]
    by_cases h1 : a + 1 ≤ x ∧ x < a + 1 + bs.length
    · rw [if_pos h1, if_pos (by omega)]
      have : x - a = (x - (a + 1)) + 1 := by omega
      rw [this, List.getElem?_cons_succ]
    · rw [if_neg h1]
      by_cases h2 : x = a
      · subst h2; simp
      · rw [if_neg h2, if_neg (by omega)]

/-- Bytes written are the bytes held. -/
theorem Memory.holdsBytes_putBytes (m : Memory) (a : Nat) (bs : List Byte) :
    HoldsBytes (m.putBytes a bs) a bs := by
  intro i h
  rw [Memory.byte?_putBytes, if_pos (by omega)]
  simp [h]

/-- Bytes written leave every other byte alone. -/
theorem Memory.byte?_putBytes_outside (m : Memory) (a : Nat) (bs : List Byte) {x : Nat}
    (h : x < a ∨ a + bs.length ≤ x) : (m.putBytes a bs).byte? x = m.byte? x := by
  rw [Memory.byte?_putBytes, if_neg (by omega)]

theorem Memory.wf_putBytes {m : Memory} (h : m.wf = true) (a : Nat) (bs : List Byte) :
    (m.putBytes a bs).wf = true := by
  induction bs generalizing m a with
  | nil => exact h
  | cons b bs ih => exact ih (Memory.wf_put h a b) (a + 1)

theorem Memory.within_putBytes {m : Memory} {n : Nat} (h : m.within n = true) (a : Nat)
    (bs : List Byte) (ha : a + bs.length ≤ n) : (m.putBytes a bs).within n = true := by
  induction bs generalizing m a with
  | nil => exact h
  | cons b bs ih =>
    simp only [List.length_cons] at ha
    exact ih (Memory.within_put h (by omega) b) (a + 1) (by omega)

theorem Memory.putBytes_append (m : Memory) (a : Nat) (bs cs : List Byte) :
    m.putBytes a (bs ++ cs) = (m.putBytes a bs).putBytes (a + bs.length) cs := by
  induction bs generalizing m a with
  | nil => rfl
  | cons b bs ih =>
    simp only [List.cons_append, Memory.putBytes, ih, List.length_cons]
    congr 1
    omega

theorem Memory.wf_putCells {m : Memory} (h : m.wf = true) (xs : List Host.Cell) :
    (m.putCells xs).wf = true := by
  induction xs generalizing m with
  | nil => exact h
  | cons x xs ih => exact ih (Memory.wf_put h x.1 x.2)

theorem Memory.within_putCells {m : Memory} {n : Nat} (h : m.within n = true) (xs : List Host.Cell)
    (hx : ∀ x ∈ xs, x.1 < n) : (m.putCells xs).within n = true := by
  induction xs generalizing m with
  | nil => exact h
  | cons x xs ih =>
    exact ih (Memory.within_put h (hx x (by simp)) x.2) fun y hy => hx y (by simp [hy])

theorem Memory.wf_below {m : Memory} (h : m.wf = true) (a : Nat) : (m.below a).wf = true := by
  rw [Memory.wf_iff_pairwise] at *
  exact h.filter _

theorem Memory.within_below (m : Memory) (a : Nat) : (m.below a).within a = true := by
  simp only [Memory.within, Memory.below, List.all_eq_true, List.mem_filter]
  exact fun x hx => hx.2

theorem Memory.byte?_below (m : Memory) (a x : Nat) :
    (m.below a).byte? x = if x < a then m.byte? x else none := by
  induction m with
  | nil => simp [Memory.below, Memory.byte?]
  | cons c m ih =>
    obtain ⟨k, y⟩ := c
    simp only [Memory.below, List.filter_cons] at ih ⊢
    by_cases hk : k < a
    · simp only [hk, decide_true, if_true, Memory.byte?, ih]
      by_cases hx : k = x
      · subst hx; simp [hk]
      · simp [hx]
    · simp only [hk, decide_false, Memory.byte?]
      rw [if_neg (by simp), ih]
      by_cases hx : k = x
      · subst hx; simp [hk]
      · simp [hx]

/-! ## Big-endian quantities -/

@[simp] theorem wireBytes_length (v n : Nat) : (wireBytes v n).length = n := by
  induction n with
  | zero => rfl
  | succ n ih => simp [wireBytes, ih]

/-- `MemWrite` stores the big-endian bytes of its value (20_memory.md R53). -/
theorem Memory.write_eq_putBytes (m : Memory) (a n v : Nat) :
    m.write a n v = m.putBytes a (wireBytes v n) := by
  induction n generalizing m a with
  | zero => rfl
  | succ n ih => simp only [Memory.write, wireBytes, Memory.putBytes, ih]

theorem wireBytes_getElem (v n i : Nat) (h : i < (wireBytes v n).length) :
    (wireBytes v n)[i] = BitVec.ofNat 8 (v / 256 ^ (n - 1 - i)) := by
  induction n generalizing i with
  | zero => simp at h
  | succ n ih =>
    cases i with
    | zero => simp [wireBytes]
    | succ i =>
      simp only [wireBytes_length] at h
      simp only [wireBytes, List.getElem_cons_succ, ih i (by simp; omega)]
      congr 3
      omega

theorem Memory.byte?_write (m : Memory) (a n v x : Nat) :
    (m.write a n v).byte? x =
      if a ≤ x ∧ x < a + n then some (BitVec.ofNat 8 (v / 256 ^ (a + n - 1 - x))) else m.byte? x := by
  rw [Memory.write_eq_putBytes, Memory.byte?_putBytes, wireBytes_length]
  by_cases h : a ≤ x ∧ x < a + n
  · rw [if_pos h, if_pos h, List.getElem?_eq_getElem (by simp; omega), wireBytes_getElem]
    congr 4
    omega
  · rw [if_neg h, if_neg h]

theorem Memory.wf_write {m : Memory} (h : m.wf = true) (a n v : Nat) : (m.write a n v).wf = true := by
  rw [Memory.write_eq_putBytes]; exact Memory.wf_putBytes h a _

theorem Memory.within_write {m : Memory} {k : Nat} (h : m.within k = true) (a n v : Nat)
    (ha : a + n ≤ k) : (m.write a n v).within k = true := by
  rw [Memory.write_eq_putBytes]; exact Memory.within_putBytes h a _ (by simpa using ha)

/-- The number a string of bytes stands for, most significant byte first (20_memory.md R52). -/
def bigEndian : List Byte → Nat
  | [] => 0
  | b :: bs => b.toNat * 256 ^ bs.length + bigEndian bs

theorem bigEndian_lt (bs : List Byte) : bigEndian bs < 256 ^ bs.length := by
  induction bs with
  | nil => simp [bigEndian]
  | cons b bs ih =>
    have hb : b.toNat ≤ 255 := by have := b.isLt; omega
    simp only [bigEndian, List.length_cons, pow_succ]
    nlinarith [Nat.mul_le_mul_right (256 ^ bs.length) hb]

theorem bigEndian_append (bs cs : List Byte) :
    bigEndian (bs ++ cs) = bigEndian bs * 256 ^ cs.length + bigEndian cs := by
  induction bs with
  | nil => simp [bigEndian]
  | cons b bs ih =>
    simp only [List.cons_append, bigEndian, List.length_append, ih, pow_add]
    ring

theorem bigEndian_wireBytes (v n : Nat) : bigEndian (wireBytes v n) = v % 256 ^ n := by
  induction n with
  | zero => simp [wireBytes, bigEndian, Nat.mod_one]
  | succ n ih =>
    simp only [wireBytes, bigEndian, wireBytes_length, ih, BitVec.toNat_ofNat]
    have h : v % 256 ^ (n + 1) = v % 256 ^ n + 256 ^ n * (v / 256 ^ n % 2 ^ 8) := by
      rw [pow_succ, Nat.mod_mul]
      norm_num
    rw [h]
    ring

/-- `MemRead` of bytes that are held is their big-endian number (20_memory.md R52). -/
theorem Memory.read_of_holdsBytes {m : Memory} {a : Nat} {bs : List Byte} (h : HoldsBytes m a bs) :
    m.read a bs.length = .ok (bigEndian bs) := by
  induction bs generalizing a with
  | nil => rfl
  | cons b bs ih =>
    have h0 : m.byte? a = some b := h 0 (by simp)
    have h1 : HoldsBytes m (a + 1) bs := by
      intro i hi
      have := h (i + 1) (by simpa using hi)
      simpa [Nat.add_assoc, Nat.add_comm 1 i] using this
    simp only [List.length_cons, Memory.read, h0, ih h1, bigEndian]

/-- Where every byte of a range holds a value, the range holds a string of bytes. -/
theorem Memory.exists_holdsBytes (m : Memory) (a n : Nat)
    (h : ∀ x, a ≤ x → x < a + n → (m.byte? x).isSome = true) :
    ∃ bs : List Byte, bs.length = n ∧ HoldsBytes m a bs := by
  induction n generalizing a with
  | zero => exact ⟨[], rfl, fun i hi => by simp at hi⟩
  | succ n ih =>
    obtain ⟨bs, hl, hb⟩ := ih (a + 1) fun x h1 h2 => h x (by omega) (by omega)
    obtain ⟨b, hb0⟩ := Option.isSome_iff_exists.1 (h a le_rfl (by omega))
    refine ⟨b :: bs, by simp [hl], fun i hi => ?_⟩
    cases i with
    | zero => simpa using hb0
    | succ i =>
      have := hb i (by simpa using hi)
      simpa [Nat.add_assoc, Nat.add_comm 1 i] using this

theorem HoldsBytes.append {m : Memory} {a : Nat} {bs cs : List Byte} :
    HoldsBytes m a (bs ++ cs) ↔ HoldsBytes m a bs ∧ HoldsBytes m (a + bs.length) cs := by
  constructor
  · intro h
    refine ⟨fun i hi => ?_, fun i hi => ?_⟩
    · have := h i (by simp; omega)
      rwa [List.getElem_append_left hi] at this
    · have := h (bs.length + i) (by simp; omega)
      rw [List.getElem_append_right (by omega)] at this
      simpa [Nat.add_assoc] using this
  · rintro ⟨h1, h2⟩ i hi
    by_cases hb : i < bs.length
    · rw [List.getElem_append_left hb]; exact h1 i hb
    · rw [List.getElem_append_right (by omega)]
      have := h2 (i - bs.length) (by simp at hi; omega)
      rwa [show a + bs.length + (i - bs.length) = a + i by omega] at this

/-- A read after a write to the same place gives the value written (40_bytecodec.md R109). -/
theorem Memory.read_write (m : Memory) (a n v : Nat) :
    (m.write a n v).read a n = .ok (v % 256 ^ n) := by
  have h := Memory.read_of_holdsBytes (Memory.holdsBytes_putBytes m a (wireBytes v n))
  rwa [wireBytes_length, bigEndian_wireBytes, ← Memory.write_eq_putBytes] at h

end Sys2Proof.Machine
end

