-- ==== Sys2Proof/Laws/State.lean ====
section
/-! SUPPORT. One lemma per field per named update of the state, so that no proof unfolds a record update. -/

namespace Sys2Proof.Machine

section

variable (s : State)

/-! ## `State.raise` -/

@[simp] theorem State.raise_params (c : FatalCause) (op : BitVec 8) : (s.raise c op).params = s.params := by
  unfold State.raise; split <;> rfl

@[simp] theorem State.raise_hdr (c : FatalCause) (op : BitVec 8) : (s.raise c op).hdr = s.hdr := by
  unfold State.raise; split <;> rfl

@[simp] theorem State.raise_fir (c : FatalCause) (op : BitVec 8) : (s.raise c op).fir = s.fir := by
  unfold State.raise; split <;> rfl

@[simp] theorem State.raise_rpsi (c : FatalCause) (op : BitVec 8) : (s.raise c op).rpsi = s.rpsi := by
  unfold State.raise; split <;> rfl

@[simp] theorem State.raise_status (c : FatalCause) (op : BitVec 8) : (s.raise c op).status = s.status := by
  unfold State.raise; split <;> rfl

@[simp] theorem State.raise_rx (c : FatalCause) (op : BitVec 8) : (s.raise c op).rx = s.rx := by
  unfold State.raise; split <;> rfl

@[simp] theorem State.raise_tx (c : FatalCause) (op : BitVec 8) : (s.raise c op).tx = s.tx := by
  unfold State.raise; split <;> rfl

@[simp] theorem State.raise_cur (c : FatalCause) (op : BitVec 8) : (s.raise c op).cur = s.cur := by
  unfold State.raise; split <;> rfl

@[simp] theorem State.raise_maxlen (c : FatalCause) (op : BitVec 8) : (s.raise c op).maxlen = s.maxlen := by
  unfold State.raise; split <;> rfl

@[simp] theorem State.raise_curWritten (c : FatalCause) (op : BitVec 8) : (s.raise c op).curWritten = s.curWritten := by
  unfold State.raise; split <;> rfl

@[simp] theorem State.raise_maxlenWritten (c : FatalCause) (op : BitVec 8) : (s.raise c op).maxlenWritten = s.maxlenWritten := by
  unfold State.raise; split <;> rfl

@[simp] theorem State.raise_installed (c : FatalCause) (op : BitVec 8) : (s.raise c op).installed = s.installed := by
  unfold State.raise; split <;> rfl

@[simp] theorem State.raise_flushLog (c : FatalCause) (op : BitVec 8) : (s.raise c op).flushLog = s.flushLog := by
  unfold State.raise; split <;> rfl

@[simp] theorem State.raise_result (c : FatalCause) (op : BitVec 8) : (s.raise c op).result = s.result := by
  unfold State.raise; split <;> rfl

@[simp] theorem State.raise_phase (c : FatalCause) (op : BitVec 8) : (s.raise c op).phase = s.phase := by
  unfold State.raise; split <;> rfl

@[simp] theorem State.raise_inbox (c : FatalCause) (op : BitVec 8) : (s.raise c op).inbox = s.inbox := by
  unfold State.raise; split <;> rfl

@[simp] theorem State.raise_fatal (c : FatalCause) (op : BitVec 8) :
    (s.raise c op).fatal = some (s.fatal.getD ⟨c, op⟩) := by
  unfold State.raise; split <;> simp_all

/-- A raise changes the latch alone (60_exceptions.md R176). -/
theorem State.raise_eta (c : FatalCause) (op : BitVec 8) :
    s.raise c op = { s with fatal := some (s.fatal.getD ⟨c, op⟩) } := by
  cases s with
  | mk _ _ _ _ _ fatal => cases fatal <;> rfl

/-- Raising changes the latch at most. -/
theorem State.raise_only (s : State) (c : FatalCause) (op : BitVec 8) :
    s.raise c op = { s with fatal := (s.raise c op).fatal } := by
  rw [State.raise_fatal]; exact State.raise_eta s c op

/-- The first assertion is the one recorded (60_exceptions.md R176). -/
theorem State.raise_of_none {s : State} (h : s.fatal = none) (c : FatalCause) (op : BitVec 8) :
    s.raise c op = { s with fatal := some ⟨c, op⟩ } := by
  simp [State.raise, h]

/-! ## `State.hostReset` -/

@[simp] theorem State.hostReset_params : s.hostReset.params = s.params := rfl

@[simp] theorem State.hostReset_hdr : s.hostReset.hdr = none := rfl

@[simp] theorem State.hostReset_fir : s.hostReset.fir = none := rfl

@[simp] theorem State.hostReset_rpsi : s.hostReset.rpsi = none := rfl

@[simp] theorem State.hostReset_status : s.hostReset.status = .ok := rfl

@[simp] theorem State.hostReset_fatal : s.hostReset.fatal = none := rfl

@[simp] theorem State.hostReset_rx : s.hostReset.rx = s.rx := rfl

@[simp] theorem State.hostReset_tx : s.hostReset.tx = s.tx := rfl

@[simp] theorem State.hostReset_cur : s.hostReset.cur = s.cur := rfl

@[simp] theorem State.hostReset_maxlen : s.hostReset.maxlen = s.maxlen := rfl

@[simp] theorem State.hostReset_curWritten :
    s.hostReset.curWritten = (s.curWritten && decide (s.phase = .idle)) := rfl

@[simp] theorem State.hostReset_maxlenWritten : s.hostReset.maxlenWritten = s.maxlenWritten := rfl

@[simp] theorem State.hostReset_installed : s.hostReset.installed = none := rfl

@[simp] theorem State.hostReset_flushLog : s.hostReset.flushLog = [] := rfl

@[simp] theorem State.hostReset_result : s.hostReset.result = .nothing := rfl

@[simp] theorem State.hostReset_phase : s.hostReset.phase = .idle := rfl

@[simp] theorem State.hostReset_inbox : s.hostReset.inbox = s.inbox := rfl

/-! ## `State.ends` -/

@[simp] theorem State.ends_params (x : Status) : (s.ends x).params = s.params := rfl

@[simp] theorem State.ends_hdr (x : Status) : (s.ends x).hdr = s.hdr := rfl

@[simp] theorem State.ends_fir (x : Status) : (s.ends x).fir = s.fir := rfl

@[simp] theorem State.ends_rpsi (x : Status) : (s.ends x).rpsi = s.rpsi := rfl

@[simp] theorem State.ends_status (x : Status) : (s.ends x).status = x := rfl

@[simp] theorem State.ends_fatal (x : Status) : (s.ends x).fatal = s.fatal := rfl

@[simp] theorem State.ends_rx (x : Status) : (s.ends x).rx = s.rx := rfl

@[simp] theorem State.ends_tx (x : Status) : (s.ends x).tx = s.tx := rfl

@[simp] theorem State.ends_cur (x : Status) : (s.ends x).cur = s.cur := rfl

@[simp] theorem State.ends_maxlen (x : Status) : (s.ends x).maxlen = s.maxlen := rfl

@[simp] theorem State.ends_curWritten (x : Status) : (s.ends x).curWritten = s.curWritten := rfl

@[simp] theorem State.ends_maxlenWritten (x : Status) : (s.ends x).maxlenWritten = s.maxlenWritten := rfl

@[simp] theorem State.ends_installed (x : Status) : (s.ends x).installed = s.installed := rfl

@[simp] theorem State.ends_flushLog (x : Status) : (s.ends x).flushLog = s.flushLog := rfl

@[simp] theorem State.ends_result (x : Status) : (s.ends x).result = s.result := rfl

@[simp] theorem State.ends_phase (x : Status) : (s.ends x).phase = s.phase := rfl

@[simp] theorem State.ends_inbox (x : Status) : (s.ends x).inbox = s.inbox := rfl

/-! ## `State.callK` -/

@[simp] theorem State.callK_params (b : Builder) : (s.callK b).params = s.params := rfl

@[simp] theorem State.callK_hdr (b : Builder) : (s.callK b).hdr = s.hdr := rfl

@[simp] theorem State.callK_fir (b : Builder) : (s.callK b).fir = s.fir := rfl

@[simp] theorem State.callK_rpsi (b : Builder) : (s.callK b).rpsi = s.rpsi := rfl

@[simp] theorem State.callK_status (b : Builder) : (s.callK b).status = s.status := rfl

@[simp] theorem State.callK_fatal (b : Builder) : (s.callK b).fatal = s.fatal := rfl

@[simp] theorem State.callK_rx (b : Builder) : (s.callK b).rx = s.rx := rfl

@[simp] theorem State.callK_tx (b : Builder) : (s.callK b).tx = s.tx := rfl

@[simp] theorem State.callK_cur (b : Builder) : (s.callK b).cur = s.cur := rfl

@[simp] theorem State.callK_maxlen (b : Builder) : (s.callK b).maxlen = s.maxlen := rfl

@[simp] theorem State.callK_curWritten (b : Builder) : (s.callK b).curWritten = s.curWritten := rfl

@[simp] theorem State.callK_maxlenWritten (b : Builder) : (s.callK b).maxlenWritten = s.maxlenWritten := rfl

@[simp] theorem State.callK_installed (b : Builder) : (s.callK b).installed = s.installed := rfl

@[simp] theorem State.callK_flushLog (b : Builder) : (s.callK b).flushLog = s.flushLog := rfl

@[simp] theorem State.callK_result (b : Builder) : (s.callK b).result = s.result := rfl

@[simp] theorem State.callK_phase (b : Builder) :
    (s.callK b).phase = .inK ⟨b, s.cur, s.tx.below (min s.cur s.params.txSize)⟩ := rfl

@[simp] theorem State.callK_inbox (b : Builder) : (s.callK b).inbox = s.inbox := rfl

/-! ## `State.adopt` -/

@[simp] theorem State.adopt_params (k : Invocation) (a : KAnswer) :
    (s.adopt k a).params = s.params := rfl

@[simp] theorem State.adopt_hdr (k : Invocation) (a : KAnswer) : (s.adopt k a).hdr = s.hdr := rfl

@[simp] theorem State.adopt_fir (k : Invocation) (a : KAnswer) : (s.adopt k a).fir = s.fir := rfl

@[simp] theorem State.adopt_rpsi (k : Invocation) (a : KAnswer) : (s.adopt k a).rpsi = s.rpsi := rfl

@[simp] theorem State.adopt_status (k : Invocation) (a : KAnswer) :
    (s.adopt k a).status = s.status := rfl

@[simp] theorem State.adopt_fatal (k : Invocation) (a : KAnswer) :
    (s.adopt k a).fatal = s.fatal := rfl

@[simp] theorem State.adopt_rx (k : Invocation) (a : KAnswer) : (s.adopt k a).rx = s.rx := rfl

@[simp] theorem State.adopt_tx (k : Invocation) (a : KAnswer) :
    (s.adopt k a).tx = s.tx.putCells a.writes := rfl

@[simp] theorem State.adopt_cur (k : Invocation) (a : KAnswer) : (s.adopt k a).cur = a.cursor := rfl

@[simp] theorem State.adopt_maxlen (k : Invocation) (a : KAnswer) :
    (s.adopt k a).maxlen = s.maxlen := rfl

@[simp] theorem State.adopt_curWritten (k : Invocation) (a : KAnswer) :
    (s.adopt k a).curWritten = true := rfl

@[simp] theorem State.adopt_maxlenWritten (k : Invocation) (a : KAnswer) :
    (s.adopt k a).maxlenWritten = s.maxlenWritten := rfl

@[simp] theorem State.adopt_installed (k : Invocation) (a : KAnswer) :
    (s.adopt k a).installed = s.installed := rfl

@[simp] theorem State.adopt_flushLog (k : Invocation) (a : KAnswer) :
    (s.adopt k a).flushLog = s.flushLog ++ [⟨k.cursor, k.handed, a.success, a.cursor⟩] := rfl

@[simp] theorem State.adopt_result (k : Invocation) (a : KAnswer) :
    (s.adopt k a).result = s.result := rfl

@[simp] theorem State.adopt_phase (k : Invocation) (a : KAnswer) :
    (s.adopt k a).phase = .idle := rfl

@[simp] theorem State.adopt_inbox (k : Invocation) (a : KAnswer) :
    (s.adopt k a).inbox = s.inbox := rfl

/-! ## `State.badHeader` -/

@[simp] theorem State.badHeader_params : s.badHeader.params = s.params := rfl

@[simp] theorem State.badHeader_hdr : s.badHeader.hdr = none := rfl

@[simp] theorem State.badHeader_fir : s.badHeader.fir = s.fir := rfl

@[simp] theorem State.badHeader_rpsi : s.badHeader.rpsi = s.rpsi := rfl

@[simp] theorem State.badHeader_status : s.badHeader.status = .malformedHeader := rfl

@[simp] theorem State.badHeader_fatal : s.badHeader.fatal = s.fatal := rfl

@[simp] theorem State.badHeader_rx : s.badHeader.rx = s.rx := rfl

@[simp] theorem State.badHeader_tx : s.badHeader.tx = s.tx := rfl

@[simp] theorem State.badHeader_cur : s.badHeader.cur = s.cur := rfl

@[simp] theorem State.badHeader_maxlen : s.badHeader.maxlen = s.maxlen := rfl

@[simp] theorem State.badHeader_curWritten : s.badHeader.curWritten = s.curWritten := rfl

@[simp] theorem State.badHeader_maxlenWritten : s.badHeader.maxlenWritten = s.maxlenWritten := rfl

@[simp] theorem State.badHeader_installed : s.badHeader.installed = s.installed := rfl

@[simp] theorem State.badHeader_flushLog : s.badHeader.flushLog = s.flushLog := rfl

@[simp] theorem State.badHeader_result : s.badHeader.result = s.result := rfl

@[simp] theorem State.badHeader_phase : s.badHeader.phase = s.phase := rfl

@[simp] theorem State.badHeader_inbox : s.badHeader.inbox = s.inbox := rfl

/-! ## `State.badFir` -/

@[simp] theorem State.badFir_params (x : Status) : (s.badFir x).params = s.params := rfl

@[simp] theorem State.badFir_hdr (x : Status) : (s.badFir x).hdr = s.hdr := rfl

@[simp] theorem State.badFir_fir (x : Status) : (s.badFir x).fir = none := rfl

@[simp] theorem State.badFir_rpsi (x : Status) : (s.badFir x).rpsi = s.rpsi := rfl

@[simp] theorem State.badFir_status (x : Status) : (s.badFir x).status = x := rfl

@[simp] theorem State.badFir_fatal (x : Status) : (s.badFir x).fatal = s.fatal := rfl

@[simp] theorem State.badFir_rx (x : Status) : (s.badFir x).rx = s.rx := rfl

@[simp] theorem State.badFir_tx (x : Status) : (s.badFir x).tx = s.tx := rfl

@[simp] theorem State.badFir_cur (x : Status) : (s.badFir x).cur = s.cur := rfl

@[simp] theorem State.badFir_maxlen (x : Status) : (s.badFir x).maxlen = s.maxlen := rfl

@[simp] theorem State.badFir_curWritten (x : Status) : (s.badFir x).curWritten = s.curWritten := rfl

@[simp] theorem State.badFir_maxlenWritten (x : Status) : (s.badFir x).maxlenWritten = s.maxlenWritten := rfl

@[simp] theorem State.badFir_installed (x : Status) : (s.badFir x).installed = s.installed := rfl

@[simp] theorem State.badFir_flushLog (x : Status) : (s.badFir x).flushLog = s.flushLog := rfl

@[simp] theorem State.badFir_result (x : Status) : (s.badFir x).result = s.result := rfl

@[simp] theorem State.badFir_phase (x : Status) : (s.badFir x).phase = s.phase := rfl

@[simp] theorem State.badFir_inbox (x : Status) : (s.badFir x).inbox = s.inbox := rfl

/-! ## `State.badRpsi` -/

@[simp] theorem State.badRpsi_params (x : Status) : (s.badRpsi x).params = s.params := rfl

@[simp] theorem State.badRpsi_hdr (x : Status) : (s.badRpsi x).hdr = s.hdr := rfl

@[simp] theorem State.badRpsi_fir (x : Status) : (s.badRpsi x).fir = s.fir := rfl

@[simp] theorem State.badRpsi_rpsi (x : Status) : (s.badRpsi x).rpsi = none := rfl

@[simp] theorem State.badRpsi_status (x : Status) : (s.badRpsi x).status = x := rfl

@[simp] theorem State.badRpsi_fatal (x : Status) : (s.badRpsi x).fatal = s.fatal := rfl

@[simp] theorem State.badRpsi_rx (x : Status) : (s.badRpsi x).rx = s.rx := rfl

@[simp] theorem State.badRpsi_tx (x : Status) : (s.badRpsi x).tx = s.tx := rfl

@[simp] theorem State.badRpsi_cur (x : Status) : (s.badRpsi x).cur = s.cur := rfl

@[simp] theorem State.badRpsi_maxlen (x : Status) : (s.badRpsi x).maxlen = s.maxlen := rfl

@[simp] theorem State.badRpsi_curWritten (x : Status) : (s.badRpsi x).curWritten = s.curWritten := rfl

@[simp] theorem State.badRpsi_maxlenWritten (x : Status) : (s.badRpsi x).maxlenWritten = s.maxlenWritten := rfl

@[simp] theorem State.badRpsi_installed (x : Status) : (s.badRpsi x).installed = s.installed := rfl

@[simp] theorem State.badRpsi_flushLog (x : Status) : (s.badRpsi x).flushLog = s.flushLog := rfl

@[simp] theorem State.badRpsi_result (x : Status) : (s.badRpsi x).result = s.result := rfl

@[simp] theorem State.badRpsi_phase (x : Status) : (s.badRpsi x).phase = s.phase := rfl

@[simp] theorem State.badRpsi_inbox (x : Status) : (s.badRpsi x).inbox = s.inbox := rfl

/-! ## `hostSetCur` -/

@[simp] theorem hostSetCur_params (n : Nat) : (hostSetCur n s).params = s.params := rfl

@[simp] theorem hostSetCur_hdr (n : Nat) : (hostSetCur n s).hdr = s.hdr := rfl

@[simp] theorem hostSetCur_fir (n : Nat) : (hostSetCur n s).fir = s.fir := rfl

@[simp] theorem hostSetCur_rpsi (n : Nat) : (hostSetCur n s).rpsi = s.rpsi := rfl

@[simp] theorem hostSetCur_status (n : Nat) : (hostSetCur n s).status = s.status := rfl

@[simp] theorem hostSetCur_fatal (n : Nat) : (hostSetCur n s).fatal = s.fatal := rfl

@[simp] theorem hostSetCur_rx (n : Nat) : (hostSetCur n s).rx = s.rx := rfl

@[simp] theorem hostSetCur_tx (n : Nat) : (hostSetCur n s).tx = s.tx := rfl

@[simp] theorem hostSetCur_cur (n : Nat) : (hostSetCur n s).cur = n := rfl

@[simp] theorem hostSetCur_maxlen (n : Nat) : (hostSetCur n s).maxlen = s.maxlen := rfl

@[simp] theorem hostSetCur_curWritten (n : Nat) : (hostSetCur n s).curWritten = true := rfl

@[simp] theorem hostSetCur_maxlenWritten (n : Nat) : (hostSetCur n s).maxlenWritten = s.maxlenWritten := rfl

@[simp] theorem hostSetCur_installed (n : Nat) : (hostSetCur n s).installed = s.installed := rfl

@[simp] theorem hostSetCur_flushLog (n : Nat) : (hostSetCur n s).flushLog = s.flushLog := rfl

@[simp] theorem hostSetCur_result (n : Nat) : (hostSetCur n s).result = s.result := rfl

@[simp] theorem hostSetCur_phase (n : Nat) : (hostSetCur n s).phase = s.phase := rfl

@[simp] theorem hostSetCur_inbox (n : Nat) : (hostSetCur n s).inbox = s.inbox := rfl

/-! ## `hostSetMaxlen` -/

@[simp] theorem hostSetMaxlen_params (n : Nat) : (hostSetMaxlen n s).params = s.params := rfl

@[simp] theorem hostSetMaxlen_hdr (n : Nat) : (hostSetMaxlen n s).hdr = s.hdr := rfl

@[simp] theorem hostSetMaxlen_fir (n : Nat) : (hostSetMaxlen n s).fir = s.fir := rfl

@[simp] theorem hostSetMaxlen_rpsi (n : Nat) : (hostSetMaxlen n s).rpsi = s.rpsi := rfl

@[simp] theorem hostSetMaxlen_status (n : Nat) : (hostSetMaxlen n s).status = s.status := rfl

@[simp] theorem hostSetMaxlen_fatal (n : Nat) : (hostSetMaxlen n s).fatal = s.fatal := rfl

@[simp] theorem hostSetMaxlen_rx (n : Nat) : (hostSetMaxlen n s).rx = s.rx := rfl

@[simp] theorem hostSetMaxlen_tx (n : Nat) : (hostSetMaxlen n s).tx = s.tx := rfl

@[simp] theorem hostSetMaxlen_cur (n : Nat) : (hostSetMaxlen n s).cur = s.cur := rfl

@[simp] theorem hostSetMaxlen_maxlen (n : Nat) : (hostSetMaxlen n s).maxlen = n := rfl

@[simp] theorem hostSetMaxlen_curWritten (n : Nat) : (hostSetMaxlen n s).curWritten = s.curWritten := rfl

@[simp] theorem hostSetMaxlen_maxlenWritten (n : Nat) : (hostSetMaxlen n s).maxlenWritten = true := rfl

@[simp] theorem hostSetMaxlen_installed (n : Nat) : (hostSetMaxlen n s).installed = s.installed := rfl

@[simp] theorem hostSetMaxlen_flushLog (n : Nat) : (hostSetMaxlen n s).flushLog = s.flushLog := rfl

@[simp] theorem hostSetMaxlen_result (n : Nat) : (hostSetMaxlen n s).result = s.result := rfl

@[simp] theorem hostSetMaxlen_phase (n : Nat) : (hostSetMaxlen n s).phase = s.phase := rfl

@[simp] theorem hostSetMaxlen_inbox (n : Nat) : (hostSetMaxlen n s).inbox = s.inbox := rfl

/-! ## `hostInstallK` -/

@[simp] theorem hostInstallK_params (c : Option Continuation) :
    (hostInstallK c s).params = s.params := rfl

@[simp] theorem hostInstallK_hdr (c : Option Continuation) :
    (hostInstallK c s).hdr = s.hdr := rfl

@[simp] theorem hostInstallK_fir (c : Option Continuation) :
    (hostInstallK c s).fir = s.fir := rfl

@[simp] theorem hostInstallK_rpsi (c : Option Continuation) :
    (hostInstallK c s).rpsi = s.rpsi := rfl

@[simp] theorem hostInstallK_status (c : Option Continuation) :
    (hostInstallK c s).status = s.status := rfl

@[simp] theorem hostInstallK_fatal (c : Option Continuation) :
    (hostInstallK c s).fatal = s.fatal := rfl

@[simp] theorem hostInstallK_rx (c : Option Continuation) :
    (hostInstallK c s).rx = s.rx := rfl

@[simp] theorem hostInstallK_tx (c : Option Continuation) :
    (hostInstallK c s).tx = s.tx := rfl

@[simp] theorem hostInstallK_cur (c : Option Continuation) :
    (hostInstallK c s).cur = s.cur := rfl

@[simp] theorem hostInstallK_maxlen (c : Option Continuation) :
    (hostInstallK c s).maxlen = s.maxlen := rfl

@[simp] theorem hostInstallK_curWritten (c : Option Continuation) :
    (hostInstallK c s).curWritten = s.curWritten := rfl

@[simp] theorem hostInstallK_maxlenWritten (c : Option Continuation) :
    (hostInstallK c s).maxlenWritten = s.maxlenWritten := rfl

@[simp] theorem hostInstallK_installed (c : Option Continuation) :
    (hostInstallK c s).installed = c := rfl

@[simp] theorem hostInstallK_flushLog (c : Option Continuation) :
    (hostInstallK c s).flushLog = s.flushLog := rfl

@[simp] theorem hostInstallK_result (c : Option Continuation) :
    (hostInstallK c s).result = s.result := rfl

@[simp] theorem hostInstallK_phase (c : Option Continuation) :
    (hostInstallK c s).phase = s.phase := rfl

@[simp] theorem hostInstallK_inbox (c : Option Continuation) :
    (hostInstallK c s).inbox = s.inbox := rfl

/-! ## `untaken` -/

theorem untaken_idle {s : State} (h : s.phase = .idle) : untaken s = bytesBelow s.tx s.cur := by
  simp only [untaken, h]

theorem untaken_inK {s : State} {k : Invocation} (h : s.phase = .inK k) :
    untaken s = bytesBelow k.handed k.cursor := by
  simp only [untaken, h]

end

end Sys2Proof.Machine
end

