-- ==== Sys2Proof/Laws/Ops.lean ====
section
/-! SUPPORT. What each shared operation can do, said once: the ByteCodec accesses, the sequences of writes, the pieces of a block, the end of a build. -/

namespace Sys2Proof.Machine

/-! ## Reading -/

/-- A read inside RX of bytes that hold a value gives their big-endian number. -/
theorem readBE_of_holdsBytes {s : State} {w : Width} {a : Nat} {bs : List Byte}
    (hl : bs.length = w.bytes) (hin : a + w.bytes ≤ s.params.rxSize) (hb : HoldsBytes s.rx a bs) :
    readBE s w a = .ok (bigEndian bs) := by
  rw [← hl] at hin
  simp only [readBE, ← hl, if_pos hin, Memory.read_of_holdsBytes hb]

/-- A read that leaves RX raises `OutOfBounds` under the name of the ByteCodec operation. -/
theorem readBE_outside {s : State} {w : Width} {a : Nat} (h : s.params.rxSize < a + w.bytes) :
    readBE s w a = .error (.fatal .outOfBounds w.rdOp) := by
  simp only [readBE, if_neg (Nat.not_le.2 h)]

theorem Memory.read_error {m : Memory} {a n e : Nat} (h : m.read a n = .error e) :
    a ≤ e ∧ e < a + n ∧ m.byte? e = none := by
  induction n generalizing a with
  | zero => simp [Memory.read] at h
  | succ n ih =>
    simp only [Memory.read] at h
    split at h
    · next hb => cases h; exact ⟨le_rfl, by omega, hb⟩
    · split at h
      · next hr => cases h; obtain ⟨h1, h2, h3⟩ := ih hr; exact ⟨by omega, by omega, h3⟩
      · cases h

/-- Everything a ByteCodec read can do. -/
theorem readBE_cases (s : State) (w : Width) (a : Nat) :
    (∃ v, readBE s w a = .ok v ∧ a + w.bytes ≤ s.params.rxSize ∧ s.rx.read a w.bytes = .ok v) ∨
    (readBE s w a = .error (.fatal .outOfBounds w.rdOp) ∧ s.params.rxSize < a + w.bytes) ∨
    (∃ e, readBE s w a = .error (.noValue e) ∧ a ≤ e ∧ e < a + w.bytes ∧ s.rx.byte? e = none) := by
  unfold readBE
  split
  · next h =>
    cases hr : s.rx.read a w.bytes with
    | ok v => exact .inl ⟨v, rfl, h, rfl⟩
    | error e => exact .inr (.inr ⟨e, rfl, Memory.read_error hr⟩)
  · next h => exact .inr (.inl ⟨rfl, by omega⟩)

/-- The outcome of an operation stopped while it reads: the latch at most. -/
theorem State.stopped_next {s t : State} {x : Stop} (h : s.stopped x = .next t) :
    ∃ c op, x = .fatal c op ∧ t = s.raise c op := by
  cases x with
  | fatal c op => exact ⟨c, op, rfl, by simpa [State.stopped] using h.symm⟩
  | noValue a => simp [State.stopped] at h

/-! ## Writing -/

@[simp] theorem Flow.state_on (s : State) : (Flow.on s).state = s := rfl
@[simp] theorem Flow.state_ended (s : State) : (Flow.ended s).state = s := rfl
@[simp] theorem Flow.andThen_on (s : State) (k : State → Flow) : (Flow.on s).andThen k = k s := rfl
@[simp] theorem Flow.andThen_ended (s : State) (k : State → Flow) :
    (Flow.ended s).andThen k = .ended s := rfl

/-- A sequence of writes changes TX inside a window and the latch, and nothing else; going on leaves the
latch alone, ending has set it. -/
def WritesOnly (s : State) (lo hi : Nat) (r : Flow) : Prop :=
  r.state = { s with tx := r.state.tx, fatal := r.state.fatal } ∧
    (∀ x, x < lo ∨ hi ≤ x → r.state.tx.byte? x = s.tx.byte? x) ∧
    (∀ t, r = .on t → t.fatal = s.fatal) ∧
    (∀ t, r = .ended t → t.fatal.isSome = true) ∧
    (s.tx.wf = true → r.state.tx.wf = true) ∧
    (s.tx.within s.params.txSize = true → r.state.tx.within s.params.txSize = true)

theorem writeBE_inside {s : State} {w : Width} {a : Nat} (v : Nat)
    (h : a + w.bytes ≤ s.params.txSize) :
    writeBE s w a v = .on { s with tx := s.tx.putBytes a (wireBytes v w.bytes) } := by
  simp only [writeBE, if_pos h, Memory.write_eq_putBytes]

theorem writeBE_outside {s : State} {w : Width} {a : Nat} (v : Nat)
    (h : s.params.txSize < a + w.bytes) :
    writeBE s w a v = .ended (s.raise .outOfBounds w.wrOp) := by
  simp only [writeBE, if_neg (Nat.not_le.2 h)]

theorem writeBE_writesOnly (s : State) (w : Width) (a v : Nat) :
    WritesOnly s a (a + w.bytes) (writeBE s w a v) := by
  rcases Nat.lt_or_ge s.params.txSize (a + w.bytes) with h | h
  · rw [writeBE_outside v h]
    refine ⟨?_, ?_, ?_, ?_, ?_, ?_⟩
    · simpa using s.raise_eta _ _
    · simp
    · intro t ht; cases ht
    · intro t ht; cases ht; simp
    · simp
    · simp
  · rw [writeBE_inside v h]
    refine ⟨rfl, fun x hx => ?_, ?_, ?_, fun hw => ?_, fun hw => ?_⟩
    · exact Memory.byte?_putBytes_outside _ _ _ (by simpa using hx)
    · intro t ht; cases ht; rfl
    · intro t ht; cases ht
    · exact Memory.wf_putBytes hw _ _
    · exact Memory.within_putBytes hw _ _ (by simpa using h)

/-- Two sequences of writes one after the other. -/
theorem WritesOnly.andThen {s : State} {lo hi : Nat} {r : Flow} {k : State → Flow}
    (h : WritesOnly s lo hi r) (hk : ∀ t, r = .on t → WritesOnly t lo hi (k t)) :
    WritesOnly s lo hi (r.andThen k) := by
  cases r with
  | ended t => exact h
  | on t =>
    obtain ⟨h1, h2, h3, -, h5, h6⟩ := h
    obtain ⟨g1, g2, g3, g4, g5, g6⟩ := hk t rfl
    have hp : t.params = s.params := by rw [show t = _ from h1]
    simp only [Flow.state_on, Flow.andThen_on] at *
    refine ⟨?_, fun x hx => (g2 x hx).trans (h2 x hx), fun u hu => ?_, g4, fun hw => g5 (h5 hw),
      fun hw => ?_⟩
    · rw [g1, h1]
    · rw [g3 u hu, h3 t rfl]
    · rw [← hp]; exact g6 (by rw [hp]; exact h6 hw)

theorem WritesOnly.mono {s : State} {lo hi lo' hi' : Nat} {r : Flow} (h : WritesOnly s lo hi r)
    (h1 : lo' ≤ lo) (h2 : hi ≤ hi') : WritesOnly s lo' hi' r :=
  ⟨h.1, fun x hx => h.2.1 x (by omega), h.2.2⟩

theorem writeHeader_writesOnly (s : State) (c : Nat) (f : BitVec 5) (t : BitVec 8) (n : Nat) :
    WritesOnly s c (c + 4) (writeHeader s c f t n) := by
  refine ((writeBE_writesOnly s .w1 c _).mono le_rfl (by simp [Width.bytes])).andThen fun u _ => ?_
  refine ((writeBE_writesOnly u .w1 (c + 1) _).mono (by simp) (by simp [Width.bytes])).andThen
    fun v _ => ?_
  exact (writeBE_writesOnly v .w2 (c + 2) _).mono (by simp) (by simp [Width.bytes])

theorem writeFeedback_writesOnly (s : State) (c : Nat) (a b : Ssrc) :
    WritesOnly s c (c + 8) (writeFeedback s c a b) := by
  refine ((writeBE_writesOnly s .w4 c _).mono le_rfl (by simp [Width.bytes])).andThen fun u _ => ?_
  exact (writeBE_writesOnly u .w4 (c + 4) _).mono (by simp) (by simp [Width.bytes])

theorem Piece.write_writesOnly (p : Piece) (s : State) (c : Nat) :
    WritesOnly s c (c + p.size) (p.write s c) := by
  cases p with
  | header f t n => exact writeHeader_writesOnly s c f t n
  | feedback a b => exact writeFeedback_writesOnly s c a b
  | be w v => exact writeBE_writesOnly s w c v

/-- The bytes of a piece. -/
def Piece.wire : Piece → List Byte
  | .header f t n =>
    wireBytes (headerByte0 f) 1 ++ wireBytes t.toNat 1 ++ wireBytes (fieldOfLen n) 2
  | .feedback a b => wireBytes a.toNat 4 ++ wireBytes b.toNat 4
  | .be w v => wireBytes v w.bytes

@[simp] theorem Piece.wire_length (p : Piece) : p.wire.length = p.size := by
  cases p <;> simp [Piece.wire, Piece.size]

/-- A piece inside TX is written as its bytes. -/
theorem Piece.write_inside (p : Piece) {s : State} {c : Nat} (h : c + p.size ≤ s.params.txSize) :
    p.write s c = .on { s with tx := s.tx.putBytes c p.wire } := by
  cases p with
  | header f t n =>
    simp only [Piece.size] at h
    simp only [Piece.write, writeHeader]
    rw [writeBE_inside _ (by simp only [Width.bytes]; omega), Flow.andThen_on,
      writeBE_inside _ (by simp only [Width.bytes]; omega), Flow.andThen_on,
      writeBE_inside _ (by simp only [Width.bytes]; omega)]
    simp only [Piece.wire, Memory.putBytes_append, Width.bytes, wireBytes_length,
      List.length_append]
  | feedback a b =>
    simp only [Piece.size] at h
    simp only [Piece.write, writeFeedback]
    rw [writeBE_inside _ (by simp only [Width.bytes]; omega), Flow.andThen_on,
      writeBE_inside _ (by simp only [Width.bytes]; omega)]
    simp only [Piece.wire, Memory.putBytes_append, Width.bytes, wireBytes_length]
  | be w v => exact writeBE_inside v h

/-- How far the pieces of a block move the cursor. -/
def piecesLen (ps : List Piece) : Nat := (ps.map Piece.size).sum

@[simp] theorem piecesLen_nil : piecesLen [] = 0 := rfl
@[simp] theorem piecesLen_cons (p : Piece) (ps : List Piece) :
    piecesLen (p :: ps) = p.size + piecesLen ps := by simp [piecesLen]

theorem length_flatMap_wire (ps : List Piece) : (ps.flatMap Piece.wire).length = piecesLen ps := by
  induction ps with
  | nil => rfl
  | cons p ps ih => simp [ih]

/-- A block inside TX is written as its bytes, and the cursor ends behind them. -/
theorem emit_inside (ps : List Piece) {s : State} (h : s.cur + piecesLen ps ≤ s.params.txSize) :
    emit s ps = .on { s with
      tx := s.tx.putBytes s.cur (ps.flatMap Piece.wire), cur := s.cur + piecesLen ps } := by
  induction ps generalizing s with
  | nil => simp [emit, Memory.putBytes]
  | cons p ps ih =>
    rw [piecesLen_cons] at h
    simp only [emit]
    rw [Piece.write_inside p (by omega)]
    simp only
    rw [ih (by simp only; omega)]
    simp only [List.flatMap_cons, Memory.putBytes_append, Piece.wire_length, piecesLen_cons]
    congr 2
    omega

theorem writeBE_cut {s : State} {w : Width} {a : Nat} (v : Nat) (hf : s.fatal = none)
    (h : s.params.txSize < a + w.bytes) :
    ∃ op, op ∈ ([0x09, 0x0A, 0x0B, 0x0C] : List (BitVec 8)) ∧
      writeBE s w a v = .ended { s with fatal := some ⟨.outOfBounds, op⟩ } := by
  refine ⟨w.wrOp, by cases w <;> simp [Width.wrOp], ?_⟩
  rw [writeBE_outside v h, State.raise_of_none hf]

/-- A piece that does not lie inside TX. -/
theorem Piece.write_cut (p : Piece) {s : State} {c : Nat} (hf : s.fatal = none)
    (h : s.params.txSize < c + p.size) :
    ∃ k op, p.write s c = .ended { s with
        tx := s.tx.putBytes c (p.wire.take k), fatal := some ⟨.outOfBounds, op⟩ } ∧
      op ∈ ([0x09, 0x0A, 0x0B, 0x0C] : List (BitVec 8)) ∧ k ≤ p.size ∧
      (k = 0 ∨ c + k ≤ s.params.txSize) ∧ s.params.txSize < c + k + 4 := by
  cases p with
  | be w v =>
    obtain ⟨op, ho, e⟩ := writeBE_cut v hf h
    refine ⟨0, op, e, ho, Nat.zero_le _, .inl rfl, ?_⟩
    cases w <;> simp only [Piece.size, Width.bytes] at h <;> omega
  | feedback a b =>
    simp only [Piece.size] at h
    simp only [Piece.write, writeFeedback]
    rcases Nat.lt_or_ge s.params.txSize (c + 4) with h4 | h4
    · obtain ⟨op, ho, e⟩ := writeBE_cut (w := .w4) a.toNat hf h4
      exact ⟨0, op, by rw [e]; rfl, ho, Nat.zero_le _, .inl rfl, by omega⟩
    · rw [writeBE_inside (w := .w4) _ h4, Flow.andThen_on]
      obtain ⟨op, ho, e⟩ := writeBE_cut (w := .w4) (a := c + 4) (s := { s with
        tx := s.tx.putBytes c (wireBytes a.toNat 4) }) b.toNat hf (by simp only [Width.bytes]; omega)
      exact ⟨4, op, e, ho, by simp only [Piece.size]; omega, .inr h4, by omega⟩
  | header f t n =>
    simp only [Piece.size] at h
    simp only [Piece.write, writeHeader]
    rcases Nat.lt_or_ge s.params.txSize (c + 1) with h1 | h1
    · obtain ⟨op, ho, e⟩ := writeBE_cut (w := .w1) (headerByte0 f) hf h1
      exact ⟨0, op, by rw [e]; rfl, ho, Nat.zero_le _, .inl rfl, by omega⟩
    · rw [writeBE_inside (w := .w1) _ h1, Flow.andThen_on]
      rcases Nat.lt_or_ge s.params.txSize (c + 2) with h2 | h2
      · obtain ⟨op, ho, e⟩ := writeBE_cut (w := .w1) (a := c + 1) (s := { s with
          tx := s.tx.putBytes c (wireBytes (headerByte0 f) 1) }) t.toNat hf
          (by simp only [Width.bytes]; omega)
        exact ⟨1, op, by rw [show Width.bytes .w1 = 1 from rfl, e]; rfl, ho,
          by simp only [Piece.size]; omega, .inr h1, by omega⟩
      · rw [writeBE_inside (w := .w1) _ (by simp only [Width.bytes]; omega), Flow.andThen_on]
        obtain ⟨op, ho, e⟩ := writeBE_cut (w := .w2) (a := c + 2) (s := { s with
          tx := (s.tx.putBytes c (wireBytes (headerByte0 f) 1)).putBytes (c + 1)
            (wireBytes t.toNat 1) }) (fieldOfLen n) hf (by simp only [Width.bytes]; omega)
        exact ⟨2, op, e, ho, by simp only [Piece.size]; omega, .inr h2, by omega⟩

/-- A block that does not lie inside TX is written up to the access that leaves it, and stays so
(60_exceptions.md R176). -/
theorem emit_cut (ps : List Piece) {s : State} (hf : s.fatal = none) (hps : ps ≠ [])
    (h : s.params.txSize < s.cur + piecesLen ps) :
    ∃ k op c, emit s ps = .ended { s with
        tx := s.tx.putBytes s.cur ((ps.flatMap Piece.wire).take k), cur := c,
        fatal := some ⟨.outOfBounds, op⟩ } ∧
      op ∈ ([0x09, 0x0A, 0x0B, 0x0C] : List (BitVec 8)) ∧ s.cur ≤ c ∧ c ≤ s.cur + k ∧
      (k = 0 ∨ s.cur + k ≤ s.params.txSize) ∧ s.params.txSize < s.cur + k + 4 := by
  induction ps generalizing s with
  | nil => exact absurd rfl hps
  | cons p ps ih =>
    rw [piecesLen_cons] at h
    simp only [emit]
    rcases Nat.lt_or_ge s.params.txSize (s.cur + p.size) with hp | hp
    · obtain ⟨k, op, e, ho, hkp, hk, hk4⟩ := p.write_cut hf hp
      rw [e]
      refine ⟨k, op, s.cur, ?_, ho, le_rfl, by omega, hk, hk4⟩
      rw [List.flatMap_cons, List.take_append_of_le_length (by simpa using hkp)]
    · have hne : ps ≠ [] := by rintro rfl; rw [piecesLen_nil] at h; omega
      rw [Piece.write_inside p hp]
      simp only
      obtain ⟨k, op, c, e, ho, h1, h2, hk, hk4⟩ := ih (s := { s with
        tx := s.tx.putBytes s.cur p.wire, cur := s.cur + p.size }) hf hne (by simp only; omega)
      simp only at h1 h2 hk hk4
      rw [e]
      refine ⟨p.size + k, op, c, ?_, ho, by omega, by omega, by omega, by omega⟩
      simp only [List.flatMap_cons]
      rw [show p.size = p.wire.length by simp, List.take_length_add_append, Memory.putBytes_append]

/-- Everything writing the pieces of a block can do: TX changes only from the cursor on and within the
block's length, the cursor moves, and the latch is set exactly where the writing ends early. -/
theorem emit_spec (ps : List Piece) (s : State) :
    (emit s ps).state = { s with
        tx := (emit s ps).state.tx, cur := (emit s ps).state.cur,
        fatal := (emit s ps).state.fatal } ∧
      (∀ x, x < s.cur ∨ s.cur + piecesLen ps ≤ x →
        (emit s ps).state.tx.byte? x = s.tx.byte? x) ∧
      (∀ t, emit s ps = .on t → t.fatal = s.fatal ∧ t.cur = s.cur + piecesLen ps) ∧
      (∀ t, emit s ps = .ended t → t.fatal.isSome = true) ∧
      (s.tx.wf = true → (emit s ps).state.tx.wf = true) ∧
      (s.tx.within s.params.txSize = true →
        (emit s ps).state.tx.within s.params.txSize = true) := by
  induction ps generalizing s with
  | nil =>
    refine ⟨rfl, fun _ _ => rfl, ?_, ?_, id, id⟩
    · intro t ht; cases ht; exact ⟨rfl, rfl⟩
    · intro t ht; cases ht
  | cons p ps ih =>
    obtain ⟨h1, h2, h3, h4, h5, h6⟩ := Piece.write_writesOnly p s s.cur
    simp only [emit]
    cases hp : p.write s s.cur with
    | ended t =>
      rw [hp] at h1 h2 h4 h5 h6
      simp only [Flow.state_ended] at *
      refine ⟨?_, ?_, ?_, h4, h5, h6⟩
      · rw [h1]
      · intro x hx; exact h2 x (by rw [piecesLen_cons] at hx; omega)
      · intro u hu; cases hu
    | on t =>
      rw [hp] at h1 h2 h3 h5 h6
      simp only [Flow.state_on] at *
      obtain ⟨g1, g2, g3, g4, g5, g6⟩ := ih { t with cur := t.cur + p.size }
      have hc : t.cur = s.cur := by rw [h1]
      have hpar : t.params = s.params := by rw [h1]
      rw [hc] at g1 g2 g3 g4 g5 g6
      simp only at g1 g2 g3 g4 g5 g6
      rw [hc]
      refine ⟨?_, ?_, ?_, g4, fun hw => g5 (h5 hw), fun hw => ?_⟩
      · rw [g1, h1]
      · intro x hx
        rw [piecesLen_cons] at hx
        rw [g2 x (by omega), h2 x (by omega)]
      · intro u hu
        obtain ⟨k1, k2⟩ := g3 u hu
        exact ⟨k1.trans (h3 t rfl), by rw [k2, piecesLen_cons]; omega⟩
      · rw [← hpar]; exact g6 (by rw [hpar]; exact h6 hw)

/-- Everything writing a block can do. -/
theorem writeBlock_spec (s : State) (j : Job) (hj : piecesLen j.pieces = j.blockLen) :
    writeBlock s j = { s with
        tx := (writeBlock s j).tx, cur := (writeBlock s j).cur, status := (writeBlock s j).status,
        fatal := (writeBlock s j).fatal } ∧
      (∀ x, x < s.cur ∨ s.cur + j.blockLen ≤ x → (writeBlock s j).tx.byte? x = s.tx.byte? x) ∧
      (((writeBlock s j).status = .ok ∧ (writeBlock s j).fatal = s.fatal ∧
          (writeBlock s j).cur = s.cur + j.blockLen) ∨
        ((writeBlock s j).status = s.status ∧ (writeBlock s j).fatal.isSome = true)) ∧
      (s.tx.wf = true → (writeBlock s j).tx.wf = true) ∧
      (s.tx.within s.params.txSize = true →
        (writeBlock s j).tx.within s.params.txSize = true) := by
  obtain ⟨h1, h2, h3, h4, h5, h6⟩ := emit_spec j.pieces s
  unfold writeBlock
  cases he : emit s j.pieces with
  | ended t =>
    rw [he] at h1 h2 h4 h5 h6
    simp only [Flow.state_ended, Flow.andThen_ended, hj] at *
    refine ⟨?_, h2, .inr ⟨?_, h4 t rfl⟩, h5, h6⟩
    · rw [h1]
    · rw [h1]
  | on t =>
    rw [he] at h1 h2 h3 h5 h6
    simp only [Flow.state_on, Flow.andThen_on, hj] at *
    obtain ⟨k1, k2⟩ := h3 t rfl
    simp only [State.commit, if_pos k2, State.ends_tx, State.ends_cur, State.ends_status,
      State.ends_fatal]
    refine ⟨?_, h2, .inl ⟨trivial, k1, k2⟩, h5, h6⟩
    simp only [State.ends]
    rw [h1]

/-- A block that lies inside TX is written whole, the end-offset check passes, and the build ends `Ok`. -/
theorem writeBlock_inside {s : State} {j : Job} (hj : piecesLen j.pieces = j.blockLen)
    (h : s.cur + j.blockLen ≤ s.params.txSize) :
    writeBlock s j = { s with
      tx := s.tx.putBytes s.cur (j.pieces.flatMap Piece.wire), cur := s.cur + j.blockLen,
      status := .ok } := by
  unfold writeBlock
  rw [emit_inside j.pieces (by omega)]
  simp [State.commit, State.ends, hj]

/-- A block that does not lie inside TX is written up to the access that leaves it, and the build ends there. -/
theorem writeBlock_cut {s : State} {j : Job} (hf : s.fatal = none) (hne : j.pieces ≠ [])
    (hj : piecesLen j.pieces = j.blockLen) (h : s.params.txSize < s.cur + j.blockLen) :
    ∃ k op c, writeBlock s j = { s with
        tx := s.tx.putBytes s.cur ((j.pieces.flatMap Piece.wire).take k), cur := c,
        fatal := some ⟨.outOfBounds, op⟩ } ∧
      op ∈ ([0x09, 0x0A, 0x0B, 0x0C] : List (BitVec 8)) ∧ s.cur ≤ c ∧ c ≤ s.cur + k ∧
      (k = 0 ∨ s.cur + k ≤ s.params.txSize) ∧ s.params.txSize < s.cur + k + 4 := by
  obtain ⟨k, op, c, e, h⟩ := emit_cut j.pieces hf hne (by rw [hj]; exact h)
  exact ⟨k, op, c, by simp only [writeBlock, e, Flow.andThen_ended], h⟩

end Sys2Proof.Machine
end

