-- ==== Sys2Proof/Laws/Codec.lean ====
section
/-! SUPPORT. The wire forms and the reading operations: which bytes stand for which fields, and what the readers of a header, the feedback fields, the FIR entries and the RPSI region answer. -/

namespace Sys2Proof.Machine

/-! ## Bytes and fields -/

theorem wireBytes_eq_of_bigEndian (bs : List Byte) : wireBytes (bigEndian bs) bs.length = bs := by
  induction bs with
  | nil => rfl
  | cons b bs ih =>
    have hlt := bigEndian_lt bs
    have hpos : 0 < 256 ^ bs.length := by positivity
    have hdiv : (b.toNat * 256 ^ bs.length + bigEndian bs) / 256 ^ bs.length = b.toNat := by
      rw [Nat.add_comm, Nat.add_mul_div_right _ _ hpos, Nat.div_eq_of_lt hlt, Nat.zero_add]
    have hcongr : ∀ n u w, u % 256 ^ n = w % 256 ^ n → wireBytes u n = wireBytes w n := by
      intro n
      induction n with
      | zero => intros; rfl
      | succ n ihn =>
        intro u w h
        rw [pow_succ, Nat.mod_mul, Nat.mod_mul] at h
        have hp : 0 < 256 ^ n := by positivity
        have h1 : u % 256 ^ n = w % 256 ^ n := by
          have := congrArg (· % 256 ^ n) h
          simpa [Nat.add_mul_mod_self_left, Nat.mod_mod] using this
        have h2 : u / 256 ^ n % 256 = w / 256 ^ n % 256 := by
          rw [h1] at h
          exact Nat.eq_of_mul_eq_mul_left hp (Nat.add_left_cancel h)
        simp only [wireBytes, ihn u w h1]
        congr 1
        exact BitVec.eq_of_toNat_eq (by simpa using h2)
    simp only [List.length_cons, wireBytes, bigEndian, hdiv, BitVec.ofNat_toNat, BitVec.setWidth_eq]
    rw [hcongr bs.length _ (bigEndian bs) (by simp), ih]

/-- Two strings of one length with one big-endian number are one string. -/
theorem bigEndian_inj {bs cs : List Byte} (hl : bs.length = cs.length)
    (h : bigEndian bs = bigEndian cs) : bs = cs := by
  rw [← wireBytes_eq_of_bigEndian bs, ← wireBytes_eq_of_bigEndian cs, h, hl]

@[simp] theorem wire32_length (v : Ssrc) : (wire32 v).length = 4 := rfl

theorem wire32_eq_wireBytes (v : Ssrc) : wire32 v = wireBytes v.toNat 4 := by
  simp only [wire32, wireBytes, List.cons.injEq, and_true]
  refine ⟨?_, ?_, ?_, ?_⟩ <;> apply BitVec.eq_of_toNat_eq <;>
    simp [BitVec.extractLsb'_toNat, Nat.shiftRight_eq_div_pow]

@[simp] theorem bigEndian_wire32 (v : Ssrc) : bigEndian (wire32 v) = v.toNat := by
  rw [wire32_eq_wireBytes, bigEndian_wireBytes, Nat.mod_eq_of_lt]
  have := v.isLt
  norm_num at this ⊢
  omega

/-- Four bytes are the wire form of their number. -/
theorem wire32_of_bigEndian {bs : List Byte} (h : bs.length = 4) :
    wire32 (BitVec.ofNat 32 (bigEndian bs)) = bs := by
  refine bigEndian_inj (by simp [h]) ?_
  have := bigEndian_lt bs
  rw [h] at this
  rw [bigEndian_wire32, BitVec.toNat_ofNat, Nat.mod_eq_of_lt]
  norm_num at this ⊢
  omega

@[simp] theorem bigEndian_singleton (b : Byte) : bigEndian [b] = b.toNat := by simp [bigEndian]

theorem headerByte0_wire (f : BitVec 5) : BitVec.ofNat 8 (headerByte0 f) = (4 : BitVec 3) ++ f := by
  revert f; decide

/-- The header fields, by bits of the bytes (30_encoding.md R70). -/
theorem headerOf_bytes (base : Nat) (b0 b1 b2 b3 : Byte) :
    headerOf base b0.toNat b1.toNat (b2.toNat * 256 + b3.toNat) =
      ⟨b0.extractLsb' 6 2, b0.getLsbD 5, b0.extractLsb' 0 5, b1, b2 ++ b3, base⟩ := by
  have h0 := b0.isLt
  have h2 := b2.isLt
  have h3 := b3.isLt
  simp only [headerOf, Hdr.mk.injEq, and_true]
  refine ⟨?_, ?_, ?_, ?_, ?_⟩
  · apply BitVec.eq_of_toNat_eq
    simp [BitVec.extractLsb'_toNat, Nat.shiftRight_eq_div_pow]
  · revert b0; decide
  · apply BitVec.eq_of_toNat_eq
    simp [BitVec.extractLsb'_toNat]
  · simp
  · apply BitVec.eq_of_toNat_eq
    rw [BitVec.toNat_append, ← Nat.shiftLeft_add_eq_or_of_lt h3, Nat.shiftLeft_eq]
    simp only [BitVec.toNat_ofNat]
    norm_num at h2 h3 ⊢
    omega

/-! ## Strings held by a memory -/

/-- What a read that succeeds has read. -/
theorem Memory.read_ok {m : Memory} {a n v : Nat} (h : m.read a n = .ok v) :
    ∃ bs : List Byte, bs.length = n ∧ HoldsBytes m a bs ∧ v = bigEndian bs := by
  have hw : ∀ x, a ≤ x → x < a + n → (m.byte? x).isSome = true := by
    induction n generalizing a v with
    | zero => intro x h1 h2; omega
    | succ n ih =>
      simp only [Memory.read] at h
      split at h
      · cases h
      · next b hb =>
        split at h
        · cases h
        · next w hr =>
          intro x h1 h2
          by_cases hx : x = a
          · subst hx; simp [hb]
          · exact ih hr x (by omega) (by omega)
  obtain ⟨bs, hl, hb⟩ := Memory.exists_holdsBytes m a n hw
  refine ⟨bs, hl, hb, ?_⟩
  have := Memory.read_of_holdsBytes hb
  rw [hl, h] at this
  exact Except.ok.inj this

theorem HoldsBytes.cons {m : Memory} {a : Nat} {b : Byte} {bs : List Byte} :
    HoldsBytes m a (b :: bs) ↔ m.byte? a = some b ∧ HoldsBytes m (a + 1) bs := by
  rw [← List.singleton_append, HoldsBytes.append]
  simp [HoldsBytes]

@[simp] theorem HoldsBytes.nil (m : Memory) (a : Nat) : HoldsBytes m a [] := by
  intro i h; simp at h

/-- A memory that agrees byte by byte on a range holds the same string there. -/
theorem HoldsBytes.congr {m m' : Memory} {a a' : Nat} {bs : List Byte} (h : HoldsBytes m a bs)
    (he : ∀ i, i < bs.length → m'.byte? (a' + i) = m.byte? (a + i)) : HoldsBytes m' a' bs :=
  fun i hi => (he i hi).trans (h i hi)

/-- Two strings of one length held at one place are one string. -/
theorem HoldsBytes.unique {m : Memory} {a : Nat} {bs cs : List Byte} (h : HoldsBytes m a bs)
    (h' : HoldsBytes m a cs) (hl : bs.length = cs.length) : bs = cs := by
  refine List.ext_getElem hl fun i h1 h2 => ?_
  have := (h i h1).symm.trans (h' i h2)
  simpa using this

/-! ## The readers -/

theorem readBE_w1 {s : State} {a : Nat} {b : Byte} (h : s.rx.byte? a = some b)
    (hin : a + 1 ≤ s.params.rxSize) : readBE s .w1 a = .ok b.toNat := by
  rw [readBE_of_holdsBytes (bs := [b]) rfl hin (HoldsBytes.cons.2 ⟨h, by simp⟩), bigEndian_singleton]

theorem readBE_wire32 {s : State} {a : Nat} {v : Ssrc} (h : HoldsBytes s.rx a (wire32 v))
    (hin : a + 4 ≤ s.params.rxSize) : readBE s .w4 a = .ok v.toNat := by
  rw [readBE_of_holdsBytes rfl hin h, bigEndian_wire32]

/-- What a read that succeeds has read, and where. -/
theorem readBE_ok {s : State} {w : Width} {a v : Nat} (h : readBE s w a = .ok v) :
    a + w.bytes ≤ s.params.rxSize ∧
      ∃ bs : List Byte, bs.length = w.bytes ∧ HoldsBytes s.rx a bs ∧ v = bigEndian bs := by
  rcases readBE_cases s w a with ⟨u, hu, hin, hr⟩ | ⟨he, -⟩ | ⟨e, he, -⟩
  · rw [h] at hu
    cases hu
    exact ⟨hin, Memory.read_ok hr⟩
  · rw [h] at he; cases he
  · rw [h] at he; cases he

theorem readFeedback_of_holdsBytes {s : State} {p : Nat} {sender media : Ssrc}
    (hin : p + 8 ≤ s.params.rxSize) (h : HoldsBytes s.rx p (wire32 sender ++ wire32 media)) :
    readFeedback s p = .ok (sender, media) := by
  obtain ⟨h1, h2⟩ := HoldsBytes.append.1 h
  rw [wire32_length] at h2
  simp only [readFeedback, readBE_wire32 h1 (by omega), readBE_wire32 h2 (by omega), bind,
    Except.bind, pure, Except.pure, BitVec.ofNat_toNat, BitVec.setWidth_eq]

theorem readFeedback_ok {s : State} {p : Nat} {x : Ssrc × Ssrc} (h : readFeedback s p = .ok x) :
    p + 8 ≤ s.params.rxSize ∧ HoldsBytes s.rx p (wire32 x.1 ++ wire32 x.2) := by
  simp only [readFeedback, bind, Except.bind, pure, Except.pure] at h
  split at h
  · cases h
  · next a ha =>
    split at h
    · cases h
    · next b hb =>
      cases h
      obtain ⟨-, bs, hl, hbs, rfl⟩ := readBE_ok ha
      obtain ⟨h2, cs, hl', hcs, rfl⟩ := readBE_ok hb
      simp only [Width.bytes] at hl hl' h2
      refine ⟨by omega, HoldsBytes.append.2 ⟨?_, ?_⟩⟩
      · simpa only [wire32_of_bigEndian hl] using hbs
      · simpa only [wire32_of_bigEndian hl', wire32_length] using hcs

theorem readHeader_of_holdsBytes {s : State} {base : Nat} {b0 b1 b2 b3 : Byte}
    (hin : base + 4 ≤ s.params.rxSize) (h : HoldsBytes s.rx base [b0, b1, b2, b3]) :
    readHeader s base =
      .ok ⟨b0.extractLsb' 6 2, b0.getLsbD 5, b0.extractLsb' 0 5, b1, b2 ++ b3, base⟩ := by
  obtain ⟨h0, h⟩ := HoldsBytes.cons.1 h
  obtain ⟨h1, h⟩ := HoldsBytes.cons.1 h
  have h2 : readBE s .w2 (base + 2) = .ok (b2.toNat * 256 + b3.toNat) := by
    rw [readBE_of_holdsBytes (bs := [b2, b3]) rfl (by simp only [Width.bytes]; omega) h]
    simp [bigEndian]
  simp only [readHeader, readBE_w1 h0 (by omega), readBE_w1 h1 (by omega), h2, bind, Except.bind,
    pure, Except.pure, headerOf_bytes]

theorem readHeader_ok {s : State} {base : Nat} {h : Hdr} (hr : readHeader s base = .ok h) :
    base + 4 ≤ s.params.rxSize ∧ ∃ b0 b1 b2 b3, HoldsBytes s.rx base [b0, b1, b2, b3] ∧
      h = ⟨b0.extractLsb' 6 2, b0.getLsbD 5, b0.extractLsb' 0 5, b1, b2 ++ b3, base⟩ := by
  have hr' := hr
  simp only [readHeader, bind, Except.bind, pure, Except.pure] at hr
  split at hr
  · cases hr
  · next x0 e0 =>
    split at hr
    · cases hr
    · next x1 e1 =>
      split at hr
      · cases hr
      · next x2 e2 =>
        obtain ⟨-, c0, l0, k0, -⟩ := readBE_ok e0
        obtain ⟨-, c1, l1, k1, -⟩ := readBE_ok e1
        obtain ⟨hin, c2, l2, k2, -⟩ := readBE_ok e2
        obtain ⟨b0, rfl⟩ := List.length_eq_one_iff.1 l0
        obtain ⟨b1, rfl⟩ := List.length_eq_one_iff.1 l1
        obtain ⟨b2, b3, rfl⟩ := List.length_eq_two.1 l2
        have hb : HoldsBytes s.rx base [b0, b1, b2, b3] :=
          HoldsBytes.cons.2 ⟨(HoldsBytes.cons.1 k0).1, HoldsBytes.cons.2
            ⟨(HoldsBytes.cons.1 k1).1, k2⟩⟩
        have hin' : base + 4 ≤ s.params.rxSize := by simp only [Width.bytes] at hin; omega
        refine ⟨hin', b0, b1, b2, b3, hb, ?_⟩
        rw [readHeader_of_holdsBytes hin' hb] at hr'
        exact (Except.ok.inj hr').symm

/-- The entries read are the entries on the wire, their reserved bytes left out (30_encoding.md R73). -/
theorem readRequests_of_holdsBytes {s : State} {e : Nat} {reqs : List Request}
    (hin : e + 8 * reqs.length ≤ s.params.rxSize)
    (h : ∀ i, (hi : i < reqs.length) →
      HoldsBytes s.rx (e + 8 * i) (wire32 reqs[i].ssrc ++ [reqs[i].seqNr])) :
    readRequests s e reqs.length = .ok reqs := by
  induction reqs generalizing e with
  | nil => rfl
  | cons r rs ih =>
    simp only [List.length_cons] at hin h ⊢
    obtain ⟨h1, h2⟩ := HoldsBytes.append.1 (h 0 (by omega))
    have hrest : readRequests s (e + 8) rs.length = .ok rs := by
      refine ih (by omega) fun i hi => ?_
      have := h (i + 1) (by omega)
      simpa [show e + 8 + 8 * i = e + 8 * (i + 1) by omega] using this
    simp only [List.getElem_cons_zero, Nat.mul_zero, Nat.add_zero, wire32_length] at h1 h2
    simp only [readRequests, readBE_wire32 h1 (by omega),
      readBE_w1 (HoldsBytes.cons.1 h2).1 (by omega), hrest, bind, Except.bind, pure, Except.pure,
      BitVec.ofNat_toNat, BitVec.setWidth_eq]

theorem readRequests_ok {s : State} {e n : Nat} {reqs : List Request}
    (h : readRequests s e n = .ok reqs) :
    reqs.length = n ∧ ∀ i, (hi : i < reqs.length) →
      HoldsBytes s.rx (e + 8 * i) (wire32 reqs[i].ssrc ++ [reqs[i].seqNr]) := by
  induction n generalizing e reqs with
  | zero =>
    cases h
    exact ⟨rfl, fun i hi => by simp at hi⟩
  | succ n ih =>
    simp only [readRequests, bind, Except.bind, pure, Except.pure] at h
    split at h
    · cases h
    · next x hx =>
      split at h
      · cases h
      · next y hy =>
        split at h
        · cases h
        · next rs hrs =>
          cases h
          obtain ⟨hl, hh⟩ := ih hrs
          obtain ⟨-, bs, lb, kb, rfl⟩ := readBE_ok hx
          obtain ⟨-, cs, lc, kc, rfl⟩ := readBE_ok hy
          obtain ⟨c, rfl⟩ := List.length_eq_one_iff.1 lc
          refine ⟨by simp [hl], fun i hi => ?_⟩
          cases i with
          | zero =>
            refine HoldsBytes.append.2 ⟨?_, ?_⟩
            · simpa [wire32_of_bigEndian lb] using kb
            · simpa using kc
          | succ i =>
            have := hh i (by simpa using hi)
            simpa [show e + 8 + 8 * i = e + 8 * (i + 1) by omega] using this

/-- The region read is the big-endian number of its bytes (30_encoding.md R86). -/
theorem readRegion_of_holdsBytes {s : State} {a acc : Nat} {bs : List Byte}
    (hin : a + bs.length ≤ s.params.rxSize) (h : HoldsBytes s.rx a bs) :
    readRegion s a bs.length acc = .ok (acc * 256 ^ bs.length + bigEndian bs) := by
  induction bs generalizing a acc with
  | nil => simp [readRegion, bigEndian]
  | cons b bs ih =>
    obtain ⟨h1, h2⟩ := HoldsBytes.cons.1 h
    simp only [List.length_cons] at hin
    simp only [List.length_cons, readRegion, readBE_w1 h1 (by omega), bind, Except.bind]
    rw [ih (by omega) h2]
    simp only [bigEndian, pow_succ]
    congr 1
    ring

theorem readRegion_ok {s : State} {a n acc v : Nat} (h : readRegion s a n acc = .ok v) :
    ∃ bs : List Byte, bs.length = n ∧ HoldsBytes s.rx a bs ∧
      (0 < n → a + n ≤ s.params.rxSize) ∧ v = acc * 256 ^ n + bigEndian bs := by
  induction n generalizing a acc v with
  | zero =>
    cases h
    exact ⟨[], rfl, by simp, by omega, by simp [bigEndian]⟩
  | succ n ih =>
    simp only [readRegion, bind, Except.bind] at h
    split at h
    · cases h
    · next x hx =>
      obtain ⟨hin, cs, lc, kc, rfl⟩ := readBE_ok hx
      obtain ⟨c, rfl⟩ := List.length_eq_one_iff.1 lc
      obtain ⟨bs, hl, hb, hle, hv⟩ := ih h
      refine ⟨c :: bs, by simp [hl], HoldsBytes.cons.2 ⟨(HoldsBytes.cons.1 kc).1, hb⟩, ?_, ?_⟩
      · intro _
        simp only [Width.bytes] at hin
        rcases Nat.eq_zero_or_pos n with rfl | hn
        · exact hin
        · have := hle hn; omega
      · simp only [hv, bigEndian, hl, pow_succ, List.length_nil, pow_zero]
        ring

/-! ## The sizes of the two blocks -/

/-- The pieces of the entries of a FIR block are their wire form. -/
theorem requestPieces_wire (rs : List Request) :
    (requestPieces rs).flatMap Piece.wire = rs.flatMap wireRequest := by
  induction rs with
  | nil => rfl
  | cons r rs ih =>
    simp only [requestPieces, List.flatMap_cons, ih, Piece.wire, Width.bytes, wireRequest,
      wire32_eq_wireBytes]
    simp [wireBytes]

theorem requestPieces_len (rs : List Request) : piecesLen (requestPieces rs) = 8 * rs.length := by
  induction rs with
  | nil => rfl
  | cons r rs ih =>
    simp only [requestPieces, piecesLen_cons, ih, Piece.size, Width.bytes, List.length_cons]
    omega

/-- The pieces of a FIR block add up to its length (43_fir.md R131, R132). -/
theorem firBlock_len (p : Params) (f : Fir) :
    piecesLen (firBlock p f).pieces = (firBlock p f).blockLen := by
  simp only [firBlock, piecesLen_cons, requestPieces_len, Piece.size, firBlockLen]
  omega

theorem regionPieces_wire (v n : Nat) :
    (regionPieces v n).flatMap Piece.wire = wireBytes v n := by
  induction n with
  | zero => rfl
  | succ n ih =>
    simp only [regionPieces, List.flatMap_cons, ih, Piece.wire, Width.bytes, wireBytes,
      List.singleton_append, List.cons.injEq, and_true, pow_zero, Nat.div_one]
    exact BitVec.eq_of_toNat_eq (by simp)

theorem regionPieces_len (v n : Nat) : piecesLen (regionPieces v n) = n := by
  induction n with
  | zero => rfl
  | succ n ih => simp only [regionPieces, piecesLen_cons, ih, Piece.size, Width.bytes]; omega

/-- The pieces of an RPSI block add up to its length (44_rpsi.md R141, R143). -/
theorem rpsiBlock_len (p : Params) (m : Rpsi) :
    piecesLen (rpsiBlock p m).pieces = (rpsiBlock p m).blockLen := by
  simp only [rpsiBlock, piecesLen_cons, regionPieces_len, Piece.size, Width.bytes, rpsiBlockLen]
  omega

/-- The wire form of a header piece. -/
theorem header_wire (f : BitVec 5) (t : BitVec 8) (n : Nat) :
    (Piece.header f t n).wire = wireHeader f t (BitVec.ofNat 16 (fieldOfLen n)) := by
  simp only [Piece.wire, wireHeader, wireBytes, pow_zero, Nat.div_one, pow_one, List.cons_append, List.nil_append, headerByte0_wire, BitVec.ofNat_toNat, BitVec.setWidth_eq,
    List.cons.injEq, and_true, true_and]
  constructor
  · apply BitVec.eq_of_toNat_eq
    simp only [BitVec.extractLsb'_toNat, BitVec.toNat_ofNat, Nat.shiftRight_eq_div_pow]
    norm_num
    omega
  · apply BitVec.eq_of_toNat_eq
    simp only [BitVec.extractLsb'_toNat, BitVec.toNat_ofNat, Nat.shiftRight_eq_div_pow]
    norm_num

/-- The bytes of the FIR block are the wire form of the message. -/
theorem firBlock_wire (p : Params) (f : Fir) :
    (firBlock p f).pieces.flatMap Piece.wire = wireFir p f := by
  simp only [firBlock, List.flatMap_cons, requestPieces_wire, header_wire, wireFir,
    List.append_assoc]
  congr 1
  · simp only [fieldOfLen, firBlockLen]
    congr 2
    omega
  · simp only [Piece.wire, wire32_eq_wireBytes, List.append_assoc]

/-- The bytes of the RPSI block are the wire form of the message. -/
theorem rpsiBlock_wire (p : Params) (m : Rpsi) :
    (rpsiBlock p m).pieces.flatMap Piece.wire = wireRpsi p m := by
  simp only [rpsiBlock, List.flatMap_cons, regionPieces_wire, header_wire, wireRpsi, fieldOfLen,
    List.append_assoc]
  have h : BitVec.ofNat 8 m.payloadType.toNat = (0 : BitVec 1) ++ m.payloadType := by
    generalize m.payloadType = x
    revert x
    decide
  simp only [Piece.wire, wire32_eq_wireBytes, Width.bytes, wireBytes, pow_zero, Nat.div_one, h,
    List.cons_append, List.nil_append]

theorem wireFir_length (p : Params) (f : Fir) :
    (wireFir p f).length = 12 + 8 * f.reqs.length := by
  rw [← firBlock_wire, length_flatMap_wire, firBlock_len]; rfl

theorem wireRpsi_length (p : Params) (m : Rpsi) :
    (wireRpsi p m).length = rpsiBlockLen m.pictureId.toNat := by
  rw [← rpsiBlock_wire, length_flatMap_wire, rpsiBlock_len]; rfl

end Sys2Proof.Machine
end

