-- ==== Sys2Proof/Laws/Exec.lean ====
section
/-! SUPPORT. For each operation, the states it can answer; for a step, the events it can take. Proofs over all operations cite these instead of unfolding a meaning. -/

namespace Sys2Proof.Machine

variable {s t : State}

/-! ## Reading operations -/

/-- What a ByteCodec read answers. -/
theorem runRead_next {w : Width} {a : Nat} (h : runRead w a s = .next t) :
    (∃ v, t = { s with result := .value v }) ∨ ∃ c op, t = s.raise c op := by
  unfold runRead at h
  split at h
  · cases h; exact .inl ⟨_, rfl⟩
  · obtain ⟨c, op, -, ht⟩ := State.stopped_next h
    exact .inr ⟨c, op, ht⟩

/-- What `FB.RD` answers. -/
theorem execFbRd_next {p : Nat} (h : execFbRd p s = .next t) :
    (∃ a b, t = { s with result := .ssrcs a b }) ∨ ∃ c op, t = s.raise c op := by
  unfold execFbRd at h
  split at h
  · cases h; exact .inl ⟨_, _, rfl⟩
  · obtain ⟨c, op, -, ht⟩ := State.stopped_next h
    exact .inr ⟨c, op, ht⟩

/-- `DISPATCH` on a valid header. -/
theorem execDispatch_of_hdr {h : Hdr} (hh : s.hdr = some h) :
    execDispatch s = .next { s with status := .ok, result := .kind (kindOf s.params h) } := by
  unfold execDispatch
  split
  · rename_i e; rw [hh] at e; cases e
  · rename_i h' e; rw [hh] at e; cases e; rfl

/-- What `DISPATCH` answers. -/
theorem execDispatch_next (h : execDispatch s = .next t) :
    (∃ k, t = { s with status := .ok, result := .kind k }) ∨ ∃ c op, t = s.raise c op := by
  unfold execDispatch at h
  split at h
  · cases h; exact .inr ⟨_, _, rfl⟩
  · cases h; exact .inl ⟨_, rfl⟩

/-! ## Parses -/

/-- What `HDR.PARSE` answers, and what it has tested where it accepts. -/
theorem execHdrParse_next {base avail : Nat} (h : execHdrParse base avail s = .next t) :
    (∃ c op, t = s.raise c op) ∨ t = s.badHeader ∨
      ∃ x, readHeader s base = .ok x ∧ x.version = 2 ∧ x.blockSize ≤ avail ∧
        base + avail ≤ s.params.rxSize ∧ t = { s with hdr := some x, status := .ok } := by
  unfold execHdrParse at h
  split at h
  · cases h; exact .inl ⟨_, _, rfl⟩
  · split at h
    · cases h; exact .inr (.inl rfl)
    · split at h
      · obtain ⟨c, op, -, ht⟩ := State.stopped_next h
        exact .inl ⟨c, op, ht⟩
      · rename_i x hx
        split at h
        · rename_i hok
          cases h
          simp only [headerOk, Bool.and_eq_true, beq_iff_eq, decide_eq_true_eq] at hok
          exact .inr (.inr ⟨x, hx, hok.1, hok.2, by omega, rfl⟩)
        · cases h; exact .inr (.inl rfl)

/-- `FIR.PARSE` on a valid header. -/
theorem execFirParse_of_hdr {h : Hdr} (hh : s.hdr = some h) :
    execFirParse s =
      if isFir s.params h then
        if h.payloadSize < 16 then .next (s.badFir .tooShort)
        else if (h.payloadSize - 8) % 8 ≠ 0 then .next (s.badFir .badAlignment)
        else
          match readFir s h with
          | .error x => s.stopped x
          | .ok f => .next { s with fir := some f, status := .ok }
      else .next (s.raise .wrongDispatch 0x20) := by
  unfold execFirParse
  split
  · rename_i e; rw [hh] at e; cases e
  · rename_i h' e; rw [hh] at e; cases e; rfl

/-- What `FIR.PARSE` answers. -/
theorem execFirParse_next (h : execFirParse s = .next t) :
    (∃ c op, t = s.raise c op) ∨ (∃ x, t = s.badFir x) ∨
      ∃ f, t = { s with fir := some f, status := .ok } := by
  unfold execFirParse at h
  split at h
  · cases h; exact .inl ⟨_, _, rfl⟩
  · split at h
    · split at h
      · cases h; exact .inr (.inl ⟨_, rfl⟩)
      · split at h
        · cases h; exact .inr (.inl ⟨_, rfl⟩)
        · split at h
          · obtain ⟨c, op, -, ht⟩ := State.stopped_next h
            exact .inl ⟨c, op, ht⟩
          · cases h; exact .inr (.inr ⟨_, rfl⟩)
    · cases h; exact .inl ⟨_, _, rfl⟩

/-- `RPSI.PARSE` on a valid header. -/
theorem execRpsiParse_of_hdr {h : Hdr} (hh : s.hdr = some h) :
    execRpsiParse s =
      if isRpsi s.params h then
        if h.payloadSize < 11 then .next (s.badRpsi .tooShort)
        else
          match readRpsi s h with
          | .error x => s.stopped x
          | .ok none => .next (s.badRpsi .badPadding)
          | .ok (some m) => .next { s with rpsi := some m, status := .ok }
      else .next (s.raise .wrongDispatch 0x30) := by
  unfold execRpsiParse
  split
  · rename_i e; rw [hh] at e; cases e
  · rename_i h' e; rw [hh] at e; cases e; rfl

/-- What `RPSI.PARSE` answers. -/
theorem execRpsiParse_next (h : execRpsiParse s = .next t) :
    (∃ c op, t = s.raise c op) ∨ (∃ x, t = s.badRpsi x) ∨
      ∃ m, t = { s with rpsi := some m, status := .ok } := by
  unfold execRpsiParse at h
  split at h
  · cases h; exact .inl ⟨_, _, rfl⟩
  · split at h
    · split at h
      · cases h; exact .inr (.inl ⟨_, rfl⟩)
      · split at h
        · obtain ⟨c, op, -, ht⟩ := State.stopped_next h
          exact .inl ⟨c, op, ht⟩
        · cases h; exact .inr (.inl ⟨_, rfl⟩)
        · cases h; exact .inr (.inr ⟨_, rfl⟩)
    · cases h; exact .inl ⟨_, _, rfl⟩

/-! ## Builds -/

/-- `FIR.BUILD` on a register that holds a message. -/
theorem firJob_of_fir {f : Fir} (hf : s.fir = some f) :
    firJob s =
      if f.reqs.length = 0 then .error .emptyFirList
      else if firMax < f.reqs.length then .error .lengthOverflow
      else .ok (firBlock s.params f) := by
  unfold firJob
  split
  · rename_i e; rw [hf] at e; cases e
  · rename_i f' e; rw [hf] at e; cases e; rfl

/-- `FIR.BUILD` under `FirReady` goes to its space test. -/
theorem firBuild_of_ready {f : Fir} (h : FirReady s f) :
    firBuild s = buildBlock .fir s (firBlock s.params f) := by
  obtain ⟨hf, h1, h2⟩ := h
  simp only [firBuild, firJob_of_fir hf]
  rw [if_neg (by omega), if_neg (by simp only [firMax]; omega)]

/-- `RPSI.BUILD` under `RpsiReady` goes to its space test. -/
theorem rpsiBuild_of_ready {m : Rpsi} (h : RpsiReady s m) :
    rpsiBuild s = buildBlock .rpsi s (rpsiBlock s.params m) := by
  have h' : s.rpsi = some m := h
  unfold rpsiBuild
  split
  · rename_i e; rw [h'] at e; cases e
  · rename_i m' e; rw [h'] at e; cases e; rfl

/-- `FIR.BUILD` raises, or goes to its space test under `FirReady`. -/
theorem firBuild_cases (s : State) :
    (∃ c op, firBuild s = s.raise c op) ∨
      ∃ f, FirReady s f ∧ firBuild s = buildBlock .fir s (firBlock s.params f) := by
  cases hf : s.fir with
  | none => exact .inl ⟨.invalidRegister, 0x21, by simp only [firBuild, firJob, hf]⟩
  | some f =>
    by_cases h1 : f.reqs.length = 0
    · exact .inl ⟨.emptyFirList, 0x21, by simp only [firBuild, firJob_of_fir hf]; rw [if_pos h1]⟩
    · by_cases h2 : firMax < f.reqs.length
      · exact .inl ⟨.lengthOverflow, 0x21, by
          simp only [firBuild, firJob_of_fir hf]; rw [if_neg h1, if_pos h2]⟩
      · have hr : FirReady s f := ⟨hf, by omega, by simp only [firMax] at h2; omega⟩
        exact .inr ⟨f, hr, firBuild_of_ready hr⟩

/-- `RPSI.BUILD` raises, or goes to its space test under `RpsiReady`. -/
theorem rpsiBuild_cases (s : State) :
    (∃ c op, rpsiBuild s = s.raise c op) ∨
      ∃ m, RpsiReady s m ∧ rpsiBuild s = buildBlock .rpsi s (rpsiBlock s.params m) := by
  cases hm : s.rpsi with
  | none => exact .inl ⟨.invalidRegister, 0x31, by simp only [rpsiBuild, hm]⟩
  | some m => exact .inr ⟨m, hm, rpsiBuild_of_ready hm⟩

/-- The space test, where there is room. -/
theorem buildBlock_room {b : Builder} {j : Job} (h : s.cur + j.blockLen ≤ s.maxlen) :
    buildBlock b s j = writeBlock s j := by
  unfold buildBlock
  rw [if_pos (show hasRoom s j.blockLen = true from decide_eq_true h)]

/-- The space test, where there is none. -/
theorem buildBlock_noRoom {b : Builder} {j : Job} (h : s.maxlen < s.cur + j.blockLen) :
    buildBlock b s j = s.callK b := by
  unfold buildBlock
  rw [if_neg (by simp only [hasRoom, decide_eq_true_eq]; omega)]

/-- The space test of `BLD.RESERVE`. -/
theorem reserve_cases (n : Nat) (s : State) :
    (s.cur + n ≤ s.maxlen ∧ reserve n s = { s with result := .room true }) ∨
      (s.maxlen < s.cur + n ∧ reserve n s = s.callK (.reserve n)) := by
  unfold reserve
  rcases Nat.lt_or_ge s.maxlen (s.cur + n) with h | h
  · exact .inr ⟨h, if_neg (by simp only [hasRoom, decide_eq_true_eq]; omega)⟩
  · exact .inl ⟨h, if_pos (show hasRoom s n = true from decide_eq_true h)⟩

/-! ## Steps -/

/-- The next event between operations. -/
theorem fetch_idle {e : Event} {rest : List Event} (hfd : FormatsDiffer s) (hp : s.phase = .idle)
    (hi : s.inbox = e :: rest) : fetch s = takeIdle e { s with inbox := rest } := by
  simp only [fetch]
  rw [if_neg hfd, hp, hi]

/-- A step while `K` is invoked. -/
theorem step_inK {k : Invocation} (hfd : FormatsDiffer s) (hp : s.phase = .inK k) :
    step s = awaitK k s := by
  have : fetch s = .done (awaitK k s) := by
    simp only [fetch]
    rw [if_neg hfd, hp]
  simp only [step, this]

/-- An answer in the inbox is what `K` answers. -/
theorem kAnswer?_kReturn {k : Invocation} {a : KAnswer} {rest : List Event}
    (hi : s.inbox = .kReturn a :: rest) : kAnswer? k s = some (a, rest) := by
  simp only [kAnswer?, hi]

/-- An installed continuation answers unless an answer or reset comes first. -/
theorem kAnswer?_installed {k : Invocation} {c : Continuation} (hc : s.installed = some c)
    (h1 : ∀ a rest, s.inbox ≠ .kReturn a :: rest) (h2 : ∀ rest, s.inbox ≠ .reset :: rest) :
    kAnswer? k s = some (c.answer s.flushLog.length k.cursor, s.inbox) := by
  unfold kAnswer?
  split <;> simp_all

/-- Nothing answers where none is installed and the next event is no answer. -/
theorem kAnswer?_none {k : Invocation} (hc : s.installed = none)
    (h1 : ∀ a rest, s.inbox ≠ .kReturn a :: rest) : kAnswer? k s = none := by
  unfold kAnswer?
  split <;> simp_all

/-- A step in which `K` answers. -/
theorem step_answer {k : Invocation} {a : KAnswer} {rest : List Event} (hfd : FormatsDiffer s)
    (hp : s.phase = .inK k) (ha : kAnswer? k s = some (a, rest)) :
    step s = answerK k a { s with inbox := rest } := by
  rw [step_inK hfd hp]
  simp only [awaitK, ha]

/-- A step that takes an event while `K` is invoked. -/
theorem step_event {k : Invocation} {e : Event} {rest : List Event} (hfd : FormatsDiffer s)
    (hp : s.phase = .inK k) (ha : kAnswer? k s = none) (hi : s.inbox = e :: rest) :
    step s = takeInK k e { s with inbox := rest } := by
  rw [step_inK hfd hp]
  simp only [awaitK, ha, hi]

/-- An answer whose writes lie in TX. -/
theorem answerK_inside {k : Invocation} {a : KAnswer} (h : WritesInTx s a) :
    answerK k a s = .next (kReturns k a s) := by
  unfold answerK
  rw [if_pos (List.all_eq_true.2 fun x hx => decide_eq_true (h x hx))]

/-- An answer one of whose writes leaves TX. -/
theorem answerK_outside {k : Invocation} {a : KAnswer} (h : ¬ WritesInTx s a) :
    answerK k a s = .refused .outsideMemory := by
  unfold answerK
  rw [if_neg]
  exact fun hall => h fun x hx => of_decide_eq_true (List.all_eq_true.1 hall x hx)

/-- Everything an answer can do. -/
theorem answerK_next {k : Invocation} {a : KAnswer} (h : answerK k a s = .next t) :
    WritesInTx s a ∧ t = kReturns k a s := by
  by_cases hw : WritesInTx s a
  · rw [answerK_inside hw] at h; cases h; exact ⟨hw, rfl⟩
  · rw [answerK_outside hw] at h; cases h

/-- Every way a step comes to a next state: nothing to do; an operation that runs; an event settled between
operations; a step while `K` is invoked. -/
theorem step_next (h : step s = .next t) :
    FormatsDiffer s ∧
      ((s.phase = .idle ∧ s.inbox = [] ∧ t = s) ∨
        (∃ e rest, s.inbox = e :: rest ∧ s.phase = .idle ∧
          ((s.fatal = none ∧ ∃ i,
              takeIdle e { s with inbox := rest } = .run i { s with inbox := rest } ∧
              exec i { s with inbox := rest } = .next t) ∨
            takeIdle e { s with inbox := rest } = .done (.next t))) ∨
        ∃ k, s.phase = .inK k ∧ awaitK k s = .next t) := by
  unfold step fetch at h
  by_cases hfd : s.params.firFmt = s.params.rpsiFmt
  · rw [if_pos hfd] at h; cases h
  · refine ⟨hfd, ?_⟩
    rw [if_neg hfd] at h
    cases hp : s.phase with
    | inK k =>
      rw [hp] at h
      exact .inr (.inr ⟨k, rfl, h⟩)
    | idle =>
      rw [hp] at h
      cases hi : s.inbox with
      | nil => rw [hi] at h; cases h; exact .inl ⟨rfl, rfl, rfl⟩
      | cons e rest =>
        rw [hi] at h
        refine .inr (.inl ⟨e, rest, rfl, rfl, ?_⟩)
        simp only at h
        split at h
        · rename_i i u hu
          refine .inl ?_
          cases e <;> simp only [takeIdle, takeCommand, takeMicro] at hu <;> try cases hu
          all_goals
            split at hu
            · cases hu
            · rename_i hf
              have hf' : s.fatal = none := by
                simpa [State.fatalSet] using hf
              split at hu
              · rename_i j hj
                cases hu
                exact ⟨hf', i, by simp only [takeIdle, takeCommand, takeMicro, hj]; rw [if_neg hf], h⟩
              · cases hu
        · rename_i o ho
          exact .inr (by rw [ho, h])

/-- A host read changes nothing. -/
theorem hostRead_next {v : HostView} (h : hostRead v s = .next t) : t = s := by
  cases v <;> simp only [hostRead] at h <;> (try split at h) <;> cases h <;> rfl

/-- Everything an event settled between operations can do. -/
theorem takeIdle_next {e : Event} (h : takeIdle e s = .done (.next t)) :
    t = s ∨ (∃ c op, s.fatal = none ∧ t = s.raise c op) ∨ (∃ v, t = { s with fir := some v }) ∨
      (∃ v, t = { s with rpsi := some v }) ∨
      (∃ a bs, a + bs.length ≤ s.params.rxSize ∧ t = { s with rx := s.rx.putBytes a bs }) ∨
      (∃ a bs, a + bs.length ≤ s.params.txSize ∧ t = { s with tx := s.tx.putBytes a bs }) ∨
      (∃ n, t = hostSetCur n s) ∨ (∃ n, t = hostSetMaxlen n s) ∨
      (e = .reset ∧ t = s.hostReset) ∨ ∃ c, t = hostInstallK c s := by
  cases e with
  | command c =>
    simp only [takeIdle, takeCommand] at h
    split at h
    · cases h; exact .inl rfl
    · rename_i hf
      split at h
      · cases h
      · cases h; exact .inr (.inl ⟨_, _, by simpa [State.fatalSet] using hf, rfl⟩)
  | micro c =>
    simp only [takeIdle, takeMicro] at h
    split at h
    · cases h; exact .inl rfl
    · split at h <;> cases h
  | writeFir v => cases h; exact .inr (.inr (.inl ⟨_, rfl⟩))
  | writeRpsi v => cases h; exact .inr (.inr (.inr (.inl ⟨_, rfl⟩)))
  | writeRx a bs =>
    simp only [takeIdle, hostWriteRx] at h
    split at h
    · rename_i hin
      cases h; exact .inr (.inr (.inr (.inr (.inl ⟨a, bs, hin, rfl⟩))))
    · cases h
  | writeTx a bs =>
    simp only [takeIdle, hostWriteTx] at h
    split at h
    · rename_i hin
      cases h; exact .inr (.inr (.inr (.inr (.inr (.inl ⟨a, bs, hin, rfl⟩)))))
    · cases h
  | setCur n => cases h; exact .inr (.inr (.inr (.inr (.inr (.inr (.inl ⟨_, rfl⟩))))))
  | setMaxlen n => cases h; exact .inr (.inr (.inr (.inr (.inr (.inr (.inr (.inl ⟨_, rfl⟩)))))))
  | kReturn a => cases h
  | read v =>
    simp only [takeIdle] at h
    injection h with h
    exact .inl (hostRead_next h)
  | reset => cases h; exact .inr (.inr (.inr (.inr (.inr (.inr (.inr (.inr (.inl ⟨rfl, rfl⟩))))))))
  | installK c => cases h; exact .inr (.inr (.inr (.inr (.inr (.inr (.inr (.inr (.inr ⟨_, rfl⟩))))))))

/-- Everything an event while `K` is invoked can do. -/
theorem takeInK_next {k : Invocation} {e : Event} (h : takeInK k e s = .next t) :
    t = s ∨ (∃ a, e = .kReturn a ∧ WritesInTx s a ∧ t = kReturns k a s) ∨
      (∃ a bs, a + bs.length ≤ s.params.txSize ∧ t = { s with tx := s.tx.putBytes a bs }) ∨
      (∃ n, t = hostSetCur n s) ∨ (e = .reset ∧ t = s.hostReset) := by
  cases e <;> simp only [takeInK] at h <;> try cases h
  · rename_i a bs
    simp only [hostWriteTx] at h
    split at h
    · rename_i hin
      cases h; exact .inr (.inr (.inl ⟨a, bs, hin, rfl⟩))
    · cases h
  · exact .inr (.inr (.inr (.inl ⟨_, rfl⟩)))
  · obtain ⟨hw, rfl⟩ := answerK_next h
    exact .inr (.inl ⟨_, rfl, hw, rfl⟩)
  · split at h
    · exact .inl (hostRead_next h)
    · cases h
  · exact .inr (.inr (.inr (.inr ⟨rfl, rfl⟩)))

/-- Everything a step while `K` is invoked can do. -/
theorem awaitK_next {k : Invocation} (h : awaitK k s = .next t) :
    ∃ inbox, t = { s with inbox := inbox } ∨
      (∃ a, kAnswer? k s = some (a, inbox) ∧ WritesInTx s a ∧
        t = kReturns k a { s with inbox := inbox }) ∨
      (∃ a bs, a + bs.length ≤ s.params.txSize ∧
        t = { s with inbox := inbox, tx := s.tx.putBytes a bs }) ∨
      (∃ n, t = hostSetCur n { s with inbox := inbox }) ∨
      (s.inbox = .reset :: inbox ∧ t = { s with inbox := inbox }.hostReset) := by
  unfold awaitK at h
  split at h
  · rename_i a rest ha
    obtain ⟨hw, rfl⟩ := answerK_next h
    exact ⟨rest, .inr (.inl ⟨a, ha, hw, rfl⟩)⟩
  · rename_i hn
    split at h
    · cases h; exact ⟨s.inbox, .inl rfl⟩
    · rename_i e rest hi
      refine ⟨rest, ?_⟩
      rcases takeInK_next h with rfl | ⟨a, rfl, -, -⟩ | ⟨a, bs, hb, rfl⟩ | ⟨n, rfl⟩ | ⟨rfl, rfl⟩
      · exact .inl rfl
      · rw [kAnswer?_kReturn hi] at hn; cases hn
      · exact .inr (.inr (.inl ⟨a, bs, hb, rfl⟩))
      · exact .inr (.inr (.inr (.inl ⟨n, rfl⟩)))
      · exact .inr (.inr (.inr (.inr ⟨hi, rfl⟩)))

/-- Two runs of steps, one after the other. -/
theorem steps_add {n : Nat} (m : Nat) (h : steps n s = .next t) : steps (n + m) s = steps m t := by
  induction n generalizing s with
  | zero => cases h; rw [Nat.zero_add]
  | succ n ih =>
    rw [Nat.succ_add]
    simp only [steps] at h ⊢
    cases hs : step s with
    | next u => rw [hs] at h; exact ih h
    | fault f => rw [hs] at h; cases h
    | refused r => rw [hs] at h; cases h

/-- How long the awaited block is depends on the message registers alone. -/
theorem waitsFor_congr (b : Builder) (h1 : t.fir = s.fir) (h2 : t.rpsi = s.rpsi) :
    waitsFor t b = waitsFor s b := by
  cases b <;> simp only [waitsFor, h1, h2]

/-- The first step of an operation that comes to wait. -/
theorem WaitsIn.first {k : Invocation} (h : step s = .next t) (hp : t.phase = .inK k) :
    WaitsIn s t := by
  have h1 : steps (0 + 1) s = .next t := by simp only [steps, h]
  refine ⟨0, h1, fun m u hm hu => ?_⟩
  obtain rfl : m = 0 := by omega
  rw [h1] at hu
  cases hu
  exact ⟨k, hp⟩

/-- A step after which the operation still waits. -/
theorem WaitsIn.step {u : State} {k : Invocation} (h : WaitsIn s t) (hs : step t = .next u)
    (hp : u.phase = .inK k) : WaitsIn s u := by
  obtain ⟨n, ht, hn⟩ := h
  have h2 : steps (n + 1 + 1) s = .next u := by
    rw [steps_add 1 ht]
    simp only [steps, hs]
  refine ⟨n + 1, h2, fun m v hm hv => ?_⟩
  rcases Nat.lt_or_ge n m with hlt | hle
  · obtain rfl : m = n + 1 := by omega
    rw [h2] at hv
    cases hv
    exact ⟨k, hp⟩
  · exact hn m v hle hv

end Sys2Proof.Machine
end

