-- ==== Sys2Proof/Laws/PerInstr.lean ====
section
/-! SUPPORT. Statements about every operation as syntax, one lemma per constructor. -/

namespace Sys2Proof.Laws.SelectorNamed

/-- The record of an operation carries its op id (00_scope.md R2), and a host may issue it exactly where the
id is one of the six host selectors (30_encoding.md R79). -/
def Statement (i : Instr) : Prop :=
  (encode i).op = i.opId ∧
    (i.hostIssuable = true ↔ i.opId ∈ ([0x10, 0x11, 0x20, 0x21, 0x30, 0x31] : List (BitVec 8)))

theorem rdbe8 (a : Nat) : Statement (.rdbe8 a) :=
  ⟨rfl, by simp [Instr.hostIssuable, Instr.opId]⟩

theorem rdbe16 (a : Nat) : Statement (.rdbe16 a) :=
  ⟨rfl, by simp [Instr.hostIssuable, Instr.opId]⟩

theorem rdbe24 (a : Nat) : Statement (.rdbe24 a) :=
  ⟨rfl, by simp [Instr.hostIssuable, Instr.opId]⟩

theorem rdbe32 (a : Nat) : Statement (.rdbe32 a) :=
  ⟨rfl, by simp [Instr.hostIssuable, Instr.opId]⟩

theorem wrbe8 (a : Nat) (v : BitVec 8) : Statement (.wrbe8 a v) :=
  ⟨rfl, by simp [Instr.hostIssuable, Instr.opId]⟩

theorem wrbe16 (a : Nat) (v : BitVec 16) : Statement (.wrbe16 a v) :=
  ⟨rfl, by simp [Instr.hostIssuable, Instr.opId]⟩

theorem wrbe24 (a : Nat) (v : BitVec 24) : Statement (.wrbe24 a v) :=
  ⟨rfl, by simp [Instr.hostIssuable, Instr.opId]⟩

theorem wrbe32 (a : Nat) (v : BitVec 32) : Statement (.wrbe32 a v) :=
  ⟨rfl, by simp [Instr.hostIssuable, Instr.opId]⟩

theorem hdrParse (base avail : Nat) : Statement (.hdrParse base avail) :=
  ⟨rfl, by simp [Instr.hostIssuable, Instr.opId]⟩

theorem dispatch : Statement .dispatch :=
  ⟨rfl, by simp [Instr.hostIssuable, Instr.opId]⟩

theorem hdrWr (c : Nat) (f : BitVec 5) (t : BitVec 8) (blockLen : Nat) : Statement (.hdrWr c f t blockLen) :=
  ⟨rfl, by simp [Instr.hostIssuable, Instr.opId]⟩

theorem fbRd (p : Nat) : Statement (.fbRd p) :=
  ⟨rfl, by simp [Instr.hostIssuable, Instr.opId]⟩

theorem fbWr (c : Nat) (sender media : Ssrc) : Statement (.fbWr c sender media) :=
  ⟨rfl, by simp [Instr.hostIssuable, Instr.opId]⟩

theorem firParse : Statement .firParse :=
  ⟨rfl, by simp [Instr.hostIssuable, Instr.opId]⟩

theorem firBuild : Statement .firBuild :=
  ⟨rfl, by simp [Instr.hostIssuable, Instr.opId]⟩

theorem rpsiParse : Statement .rpsiParse :=
  ⟨rfl, by simp [Instr.hostIssuable, Instr.opId]⟩

theorem rpsiBuild : Statement .rpsiBuild :=
  ⟨rfl, by simp [Instr.hostIssuable, Instr.opId]⟩

theorem bldReserve (blockLen : Nat) : Statement (.bldReserve blockLen) :=
  ⟨rfl, by simp [Instr.hostIssuable, Instr.opId]⟩

theorem bldCommit (endOff : Nat) : Statement (.bldCommit endOff) :=
  ⟨rfl, by simp [Instr.hostIssuable, Instr.opId]⟩

end Sys2Proof.Laws.SelectorNamed
end

