-- ==== Sys2Proof/Tests/Slice0.lean ====
section
/-! SUPPORT. Tests: what the well-formedness check refuses, selectors written out from 00_scope.md R2, single operations on the vectors of spec/95_test_vectors.md, and for every obligation a state and operands that meet its hypotheses. -/

namespace Sys2Proof.Tests

open Sys2Proof.Machine

/-! ## Helpers -/

/-- 64 bytes of RX and of TX, the spec's default constants. -/
def small : Params := ⟨206, 4, 3, 64, 64, true⟩

/-- After reset, the host having set `CUR` to 0 and `MAXLEN` to 64. -/
def start : State :=
  { State.reset with params := small, cur := 0, maxlen := 64, curWritten := true, maxlenWritten := true }

/-- A memory that holds some bytes from an address on. -/
def bytesAt (a : Nat) (bs : List Byte) : Memory := Memory.putBytes [] a bs

/-- A state with some bytes in RX. -/
def rxAt (a : Nat) (bs : List Byte) : State := { start with rx := bytesAt a bs }

/-- The outcome is a next state with a property. -/
def nextIs (o : Host.Outcome State Fault Refusal) (p : State → Bool) : Bool :=
  match o with
  | .next t => p t
  | .fault _ => false
  | .refused _ => false

/-- The outcome is a fault. -/
def faultIs (o : Host.Outcome State Fault Refusal) (f : Fault) : Bool :=
  match o with
  | .next _ => false
  | .fault g => decide (g = f)
  | .refused _ => false

/-- The outcome is a refusal. -/
def refusalIs (o : Host.Outcome State Fault Refusal) (r : Refusal) : Bool :=
  match o with
  | .next _ => false
  | .fault _ => false
  | .refused q => decide (q = r)

/-- The decoder's answer is an operation. -/
def decodesTo (r : Except Reject Instr) (i : Instr) : Bool :=
  match r with
  | .ok j => decide (j = i)
  | .error _ => false

/-- A decoder's answer is a rejection. -/
def rejects (r : Except Reject Instr) (e : Reject) : Bool :=
  match r with
  | .ok _ => false
  | .error x => decide (x = e)

/-- Vector V1 (43_fir.md R134). -/
def v1 : List Byte :=
  [0x84, 0xCE, 0x00, 0x04, 0x12, 0x34, 0x56, 0x78, 0x00, 0x00, 0x00, 0x00, 0x23, 0x45, 0x67, 0x89,
    0x18, 0x00, 0x00, 0x00]

/-- Vector V2. -/
def v2 : List Byte :=
  [0x83, 0xCE, 0x00, 0x04, 0x12, 0x34, 0x56, 0x78, 0x23, 0x45, 0x67, 0x89, 0x03, 0x64, 0x00, 0x00,
    0x00, 0x83, 0x0A, 0x18]

/-- The message of V1, `media_ssrc` not 0 in the register. -/
def firMsg : Fir := ⟨0x12345678, 0x55, [⟨0x23456789, 24⟩]⟩

/-- The message of V2. -/
def rpsiMsg : Rpsi := ⟨0x12345678, 0x23456789, 100, 0x106143⟩

/-- The header of V1 at an address. -/
def v1Hdr (base : Nat) : Hdr := ⟨2, false, 4, 206, 4, base⟩

/-- The header of V2 at an address. -/
def v2Hdr (base : Nat) : Hdr := ⟨2, false, 3, 206, 4, base⟩

/-- V1 at the end of RX, its header parsed. -/
def firIn : State := { rxAt 44 v1 with hdr := some (v1Hdr 44) }

/-- V2 at the end of RX, its header parsed. -/
def rpsiIn : State := { rxAt 44 v2 with hdr := some (v2Hdr 44) }

/-- Both messages ready, a block of 20 bytes just fitting at the end of TX. -/
def ready : State := { start with fir := some firMsg, rpsi := some rpsiMsg, cur := 44 }

/-- Both messages ready, one byte too little room, four bytes in TX. -/
def full : State :=
  { ready with cur := 45, tx := bytesAt 0 [0xEE, 0xEE, 0xEE, 0xEE] }

/-- An operation of `full` waits for `K`, and the next events are given. -/
def waiting (b : Builder) (es : List Event) : State :=
  { full with phase := .inK ⟨b, 45, bytesAt 0 [0xEE, 0xEE, 0xEE, 0xEE]⟩, inbox := es }

/-! ## Well-formedness: an ill-formed term for each check -/

/-- 41_header.md R113: `block_len` a multiple of 4, at least 4, at most 262144. -/
theorem test_wf_header_length :
    Instr.wf (.hdrWr 0 4 206 6) = false ∧ Instr.wf (.hdrWr 0 4 206 0) = false ∧
      Instr.wf (.hdrWr 0 4 206 262148) = false ∧ Instr.wf (.hdrWr 0 4 206 4) = true ∧
      Instr.wf (.hdrWr 0 4 206 262144) = true := by decide

/-- 45_builder.md R160: `block_len` a positive multiple of 4. -/
theorem test_wf_reserve_length :
    Instr.wf (.bldReserve 0) = false ∧ Instr.wf (.bldReserve 6) = false ∧
      Instr.wf (.bldReserve 4) = true := by decide

/-! ## Decoding: every selector of 00_scope.md R2, bit by bit -/

theorem test_decode_reads :
    decodesTo (decode 0b00000001 [9]) (.rdbe8 9) = true ∧
      decodesTo (decode 0b00000010 [9]) (.rdbe16 9) = true ∧
      decodesTo (decode 0b00000011 [9]) (.rdbe24 9) = true ∧
      decodesTo (decode 0b00000100 [9]) (.rdbe32 9) = true := by decide

theorem test_decode_writes :
    decodesTo (decode 0b00001001 [1, 0xFF]) (.wrbe8 1 0xFF) = true ∧
      decodesTo (decode 0b00001010 [1, 0xFFFF]) (.wrbe16 1 0xFFFF) = true ∧
      decodesTo (decode 0b00001011 [1, 0xFFFFFF]) (.wrbe24 1 0xFFFFFF) = true ∧
      decodesTo (decode 0b00001100 [1, 0xFFFFFFFF]) (.wrbe32 1 0xFFFFFFFF) = true := by decide

theorem test_decode_header :
    decodesTo (decodeCommand ⟨0b00010000, 20, 40⟩) (.hdrParse 20 40) = true ∧
      decodesTo (decodeCommand ⟨0b00010001, 0, 0⟩) .dispatch = true ∧
      decodesTo (decode 0b00010010 [8, 3, 206, 3]) (.hdrWr 8 3 206 16) = true := by decide

theorem test_decode_feedback :
    decodesTo (decode 0b00011000 [4]) (.fbRd 4) = true ∧
      decodesTo (decode 0b00011001 [4, 0x12345678, 0x23456789])
        (.fbWr 4 0x12345678 0x23456789) = true := by decide

theorem test_decode_fir :
    decodesTo (decodeCommand ⟨0b00100000, 0, 0⟩) .firParse = true ∧
      decodesTo (decodeCommand ⟨0b00100001, 0, 0⟩) .firBuild = true := by decide

theorem test_decode_rpsi :
    decodesTo (decodeCommand ⟨0b00110000, 0, 0⟩) .rpsiParse = true ∧
      decodesTo (decodeCommand ⟨0b00110001, 0, 0⟩) .rpsiBuild = true := by decide

theorem test_decode_builder :
    decodesTo (decode 0b01000000 [4]) (.bldReserve 20) = true ∧
      decodesTo (decode 0b01000001 [20]) (.bldCommit 20) = true := by decide

/-- FT1, FT2: an internal selector and no selector at all are no host command; operands too wide. -/
theorem test_decode_rejects :
    rejects (decodeCommand ⟨0x01, 0, 0⟩) (.notHostIssuable 0x01) = true ∧
      rejects (decodeCommand ⟨0xFF, 0, 0⟩) (.noSuchOperation 0xFF) = true ∧
      rejects (decodeMicro ⟨0x21, []⟩) (.notInternal 0x21) = true ∧
      rejects (decode 0x09 [0, 256]) (.operandTooWide 0x09) = true := by decide

/-- The words of spec/opcode_table.json, numbered as it numbers them. -/
theorem test_decode_table_words :
    decodeTableWord 8 0x04 = some (.rdbe32 0) ∧ decodeTableWord 8 0x12 = some (.hdrWr 0 0 0 4) ∧
      decodeTableWord 8 0x31 = some .rpsiBuild ∧ decodeTableWord 8 0x05 = none := by decide

/-! ## One operation at a time, on the vectors of spec/95_test_vectors.md -/

/-- The memory of section 2, at the end of RX. -/
def sixBytes : State := rxAt 58 [0x12, 0x34, 0x56, 0x78, 0x9A, 0xBC]

/-- B1 to B6. -/
theorem test_reads :
    nextIs (exec (.rdbe8 58) sixBytes) (fun t => t.result = .value 0x12) = true ∧
      nextIs (exec (.rdbe16 58) sixBytes) (fun t => t.result = .value 0x1234) = true ∧
      nextIs (exec (.rdbe24 61) sixBytes) (fun t => t.result = .value 0x789ABC) = true ∧
      nextIs (exec (.rdbe32 59) sixBytes) (fun t => t.result = .value 0x3456789A) = true := by decide

/-- B7, and a byte that holds no value. -/
theorem test_read_stops :
    nextIs (exec (.rdbe32 61) sixBytes) (fun t => t.fatal = some ⟨.outOfBounds, 0x04⟩) = true ∧
      faultIs (exec (.rdbe16 57) sixBytes) (.rxNoValue 57) = true := by decide

/-- B8 to B12. -/
theorem test_writes :
    nextIs (exec (.wrbe8 0 0x18) start) (fun t => t.tx = [(0, 0x18)]) = true ∧
      nextIs (exec (.wrbe16 2 4) start) (fun t => t.tx = [(2, 0x00), (3, 0x04)]) = true ∧
      nextIs (exec (.wrbe24 1 0xABCDEF) { start with tx := bytesAt 0 [1, 2, 3, 4, 5] })
        (fun t => t.tx = [(0, 1), (1, 0xAB), (2, 0xCD), (3, 0xEF), (4, 5)]) = true ∧
      nextIs (exec (.wrbe32 4 0x23456789) start)
        (fun t => t.tx = [(4, 0x23), (5, 0x45), (6, 0x67), (7, 0x89)]) = true := by decide

/-- B13. -/
theorem test_write_stops :
    nextIs (exec (.wrbe32 61 0) start)
      (fun t => t.fatal = some ⟨.outOfBounds, 0x0C⟩ && t.tx = []) = true := by decide

/-- H1 and H3 at an address other than 0, as H14. -/
theorem test_hdr_parse :
    nextIs (exec (.hdrParse 44 20) (rxAt 44 v1))
        (fun t => t.status = .ok && t.hdr = some (v1Hdr 44)) = true ∧
      nextIs (exec (.hdrParse 44 19) firIn)
        (fun t => t.status = .malformedHeader && t.hdr = none) = true := by decide

/-- H9 (the padding flag) and H15. -/
theorem test_hdr_parse_padding_and_bounds :
    nextIs (exec (.hdrParse 0 20) (rxAt 0 [0xA4, 0xCE, 0x00, 0x04]))
        (fun t => t.hdr = some ⟨2, true, 4, 206, 4, 0⟩) = true ∧
      nextIs (exec (.hdrParse 60 8) start)
        (fun t => t.fatal = some ⟨.outOfBounds, 0x10⟩ && t.hdr = none) = true := by decide

/-- DP2 and DP5. -/
theorem test_dispatch :
    nextIs (exec .dispatch rpsiIn) (fun t => t.result = .kind .rpsi) = true ∧
      nextIs (exec .dispatch { start with hdr := some ⟨2, false, 3, 205, 4, 0⟩ })
        (fun t => t.result = .kind .unknown && t.status = .ok) = true := by decide

/-- The lengths of section 3's `HDR.WR` vectors. -/
theorem test_hdr_wr :
    nextIs (exec (.hdrWr 8 3 206 16) start)
        (fun t => t.tx = [(8, 0x83), (9, 0xCE), (10, 0x00), (11, 0x03)]) = true ∧
      nextIs (exec (.hdrWr 0 4 206 262140) start)
        (fun t => t.tx = [(0, 0x84), (1, 0xCE), (2, 0xFF), (3, 0xFE)]) = true := by decide

/-- CF1 and CF4. -/
theorem test_feedback :
    nextIs (exec (.fbRd 48) rpsiIn) (fun t => t.result = .ssrcs 0x12345678 0x23456789) = true ∧
      nextIs (exec (.fbWr 4 0xFFFFFFFF 0) start)
        (fun t => t.tx = [(4, 0xFF), (5, 0xFF), (6, 0xFF), (7, 0xFF), (8, 0), (9, 0), (10, 0),
          (11, 0)]) = true := by decide

/-- FP7: `media_ssrc` stored as read, reserved bytes ignored. -/
theorem test_fir_parse :
    nextIs (exec .firParse { rxAt 0 [0x84, 0xCE, 0x00, 0x04, 0x12, 0x34, 0x56, 0x78, 0xDE, 0xAD,
        0xBE, 0xEF, 0x23, 0x45, 0x67, 0x89, 0x18, 0xAA, 0xBB, 0xCC] with hdr := some (v1Hdr 0) })
      (fun t => t.fir = some ⟨0x12345678, 0xDEADBEEF, [⟨0x23456789, 24⟩]⟩) = true := by decide

/-- FP3 (a check before b), FP6 and FP10. -/
theorem test_fir_parse_rejects :
    nextIs (exec .firParse { firIn with hdr := some { v1Hdr 44 with lengthWords := 3 } })
        (fun t => t.status = .tooShort) = true ∧
      nextIs (exec .firParse { firIn with hdr := some { v1Hdr 44 with lengthWords := 5 } })
        (fun t => t.status = .badAlignment) = true ∧
      nextIs (exec .firParse rpsiIn) (fun t => t.fatal = some ⟨.wrongDispatch, 0x20⟩) = true := by
  decide

/-- FB2: the block fits exactly at the end of TX, media written 0. -/
theorem test_fir_build :
    nextIs (exec .firBuild ready)
      (fun t => t.tx = bytesAt 44 v1 && t.cur = 64 && t.status = .ok) = true := by decide

/-- FB8 and the first half of FB3. -/
theorem test_fir_build_other :
    nextIs (exec .firBuild { ready with fir := some ⟨1, 0, []⟩ })
        (fun t => t.fatal = some ⟨.emptyFirList, 0x21⟩) = true ∧
      nextIs (exec .firBuild full)
        (fun t => t.tx = full.tx &&
          t.phase = .inK ⟨.fir, 45, bytesAt 0 [0xEE, 0xEE, 0xEE, 0xEE]⟩) = true := by decide

/-- Both messages ready, a block of 20 bytes one byte too long for TX, and a `MAXLEN` that breaks the host
duty. -/
def long : State := { ready with cur := 45, maxlen := 99 }

/-- 60_exceptions.md R176: the first 17 bytes of V1 stay when the reserved field leaves TX, and the first 19
of V2 when its last byte does. -/
theorem test_build_cut :
    nextIs (exec .firBuild long)
        (fun t => t.tx = bytesAt 45 (v1.take 17) && t.cur = 62 &&
          t.fatal = some ⟨.outOfBounds, 0x0B⟩ && t.status = .ok) = true ∧
      nextIs (exec .rpsiBuild long)
        (fun t => t.tx = bytesAt 45 (v2.take 19) && t.cur = 64 &&
          t.fatal = some ⟨.outOfBounds, 0x09⟩) = true := by decide

/-- RP1. -/
theorem test_rpsi_parse :
    nextIs (exec .rpsiParse rpsiIn) (fun t => t.rpsi = some rpsiMsg && t.status = .ok) = true := by
  decide

/-- The header of a 16-byte RPSI block and its feedback fields, then the given rest, with a reading of the
second `BadPadding` clause. -/
def rpsiCase (canonical : Bool) (rest : List Byte) : State :=
  { rxAt 0 ([0x83, 0xCE, 0x00, 0x03, 0x12, 0x34, 0x56, 0x78, 0x23, 0x45, 0x67, 0x89] ++ rest) with
    params := { small with rpsiCanonical := canonical }, hdr := some ⟨2, false, 3, 206, 3, 0⟩ }

/-- RP3, RP6, RP8, RP15 and RP16 in both readings. -/
theorem test_rpsi_parse_padding :
    nextIs (exec .rpsiParse (rpsiCase true [0x07, 0xE4, 0x00, 0x00]))
        (fun t => t.rpsi = some ⟨0x12345678, 0x23456789, 100, 0⟩) = true ∧
      nextIs (exec .rpsiParse (rpsiCase false [0x08, 0x64, 0x00, 0x00]))
        (fun t => t.status = .badPadding) = true ∧
      nextIs (exec .rpsiParse (rpsiCase false [0x07, 0x64, 0x80, 0x01]))
        (fun t => t.status = .badPadding) = true ∧
      nextIs (exec .rpsiParse (rpsiCase true [0x07, 0x64, 0x80, 0x80]))
        (fun t => t.rpsi = some ⟨0x12345678, 0x23456789, 100, 0x101⟩) = true ∧
      nextIs (exec .rpsiParse (rpsiCase true [0x00, 0x64, 0x00, 0x41]))
        (fun t => t.status = .badPadding) = true ∧
      nextIs (exec .rpsiParse (rpsiCase false [0x00, 0x64, 0x00, 0x41]))
        (fun t => t.rpsi = some ⟨0x12345678, 0x23456789, 100, 0x41⟩) = true := by decide

/-- RB12. -/
theorem test_rpsi_build :
    nextIs (exec .rpsiBuild ready)
      (fun t => t.tx = bytesAt 44 v2 && t.cur = 64 && t.status = .ok) = true := by decide

/-- RB7 (a bit length that is a multiple of 8) and RB19 (the widest identifier), at the cursor 40. -/
theorem test_rpsi_build_widths :
    nextIs (exec .rpsiBuild
          { ready with cur := 40, rpsi := some { rpsiMsg with pictureId := 0xFF } })
        (fun t => t.tx = bytesAt 40 [0x83, 0xCE, 0x00, 0x03, 0x12, 0x34, 0x56, 0x78, 0x23, 0x45,
          0x67, 0x89, 0x00, 0x64, 0x00, 0xFF]) = true ∧
      nextIs (exec .rpsiBuild
          { ready with cur := 40, rpsi := some { rpsiMsg with pictureId := 0xFFFFFFFFFFFFFFFF } })
        (fun t => t.tx = bytesAt 40 [0x83, 0xCE, 0x00, 0x05, 0x12, 0x34, 0x56, 0x78, 0x23, 0x45,
          0x67, 0x89, 0x00, 0x64, 0x00, 0x00, 0xFF, 0xFF, 0xFF, 0xFF, 0xFF, 0xFF, 0xFF, 0xFF]) =
        true := by decide

/-- 45_builder.md R160, R162 at the boundary. -/
theorem test_builder :
    nextIs (exec (.bldReserve 20) ready) (fun t => t.result = .room true) = true ∧
      nextIs (exec (.bldReserve 24) ready)
        (fun t => t.phase = .inK ⟨.reserve 24, 44, []⟩) = true ∧
      nextIs (exec (.bldCommit 44) ready) (fun t => t.fatal = none) = true ∧
      nextIs (exec (.bldCommit 45) ready)
        (fun t => t.fatal = some ⟨.cursorInvariant, 0x41⟩) = true := by decide

/-- FB3 and FB4: `K_reset` and `K_fail`. -/
theorem test_k_answers :
    nextIs (step (waiting .fir [.kReturn kReset]))
        (fun t => t.cur = 20 && t.status = .ok && t.phase = .idle && t.tx = bytesAt 0 v1 &&
          t.flushLog = [⟨45, bytesAt 0 [0xEE, 0xEE, 0xEE, 0xEE], true, 0⟩]) = true ∧
      nextIs (step (waiting .fir [.kReturn ⟨false, 45, []⟩]))
        (fun t => t.cur = 45 && t.status = .buildFailed && t.tx = full.tx) = true := by decide

/-- P7 and FB7: an installed `K_reset` that cannot make room is invoked again and again, and the events wait;
an installed `K_fail` ends the build. -/
theorem test_installed_k :
    nextIs (step { waiting .fir [.read .status] with maxlen := 16, installed := some .kReset })
        (fun t => t.phase = .inK ⟨.fir, 0, []⟩ && t.cur = 0 && t.tx = full.tx &&
          t.flushLog.length = 1 && t.inbox = [.read .status]) = true ∧
      nextIs (step { waiting .fir [] with installed := some .kReset })
        (fun t => t.cur = 20 && t.status = .ok && t.tx = bytesAt 0 v1) = true ∧
      nextIs (step { waiting .rpsi [] with installed := some .kFail })
        (fun t => t.cur = 45 && t.status = .buildFailed && t.tx = full.tx) = true ∧
      nextIs (step { waiting .fir [.reset] with installed := some .kReset })
        (fun t => t.phase = .idle && t.installed = none && t.flushLog = []) = true := by decide

/-- 10_state.md R31: inside `K` TX and `CUR` may be written and `MAXLEN` read, `HDR` not. -/
theorem test_inside_k :
    nextIs (step (waiting .fir [.writeTx 63 [7]]))
        (fun t => t.tx.byte? 63 = some 7 && t.cur = 45) = true ∧
      nextIs (step (waiting .fir [.setCur 3])) (fun t => t.cur = 3 && t.tx = full.tx) = true ∧
      refusalIs (step (waiting .fir [.writeTx 64 [7]])) .outsideMemory = true ∧
      nextIs (step (waiting .fir [.read .maxlen])) (fun t => t.inbox = []) = true ∧
      refusalIs (step (waiting .fir [.read .hdr])) .hostWhileBusy = true := by decide

/-- 70_reset_and_hazards.md R200, R203: after a reset `CUR` counts as written, unless `K` was invoked. -/
theorem test_written :
    State.reset.curWritten = false ∧ State.reset.maxlenWritten = false ∧
      nextIs (step { start with inbox := [.reset] }) (fun t => t.curWritten) = true ∧
      nextIs (step (waiting .fir [.reset])) (fun t => !t.curWritten && t.maxlenWritten) = true := by
  decide

/-- FT1, FT3 and FT4. -/
theorem test_latch :
    nextIs (step { start with inbox := [.command ⟨0x01, 0, 0⟩] })
        (fun t => t.fatal = some ⟨.badCommand, 0x01⟩) = true ∧
      nextIs (step { rxAt 0 v1 with
          fatal := some ⟨.badCommand, 0x01⟩, inbox := [.command ⟨0x10, 0, 20⟩] })
        (fun t => t.hdr = none && t.fatal = some ⟨.badCommand, 0x01⟩) = true ∧
      nextIs (step { firIn with fatal := some ⟨.badCommand, 0x01⟩, inbox := [.reset] })
        (fun t => t.hdr = none && t.fatal = none && t.status = .ok) = true := by decide

/-- An operation placed as the next one runs in the very next step after reset. -/
theorem test_first_step :
    nextIs (step (State.reset.withFetchWord 8 0x21))
        (fun t => t.fatal = some ⟨.invalidRegister, 0x21⟩) = true ∧
      faultIs (step (State.reset.withFetchWord 8 0x04)) (.rxNoValue 0) = true ∧
      nextIs (step (State.reset.withFetchWord 8 0x09)) (fun t => t.tx = [(0, 0)]) = true := by decide

/-! ## Witnesses: a state and operands that meet the hypotheses of each obligation, every clause at a boundary -/

/-- ByteReadsReturnBigEndian: the last bytes of RX, and one address further. -/
theorem test_witness_byte_reads :
    ((rxAt 60 [1, 2, 3, 4]).rx.byte? 63 = some 4 ∧ 63 + 1 ≤ small.rxSize) ∧
      ((rxAt 60 [1, 2, 3, 4]).rx.byte? 62 = some 3 ∧ 62 + 2 ≤ small.rxSize) ∧
      ((rxAt 60 [1, 2, 3, 4]).rx.byte? 61 = some 2 ∧ 61 + 3 ≤ small.rxSize) ∧
      ((rxAt 60 [1, 2, 3, 4]).rx.byte? 60 = some 1 ∧ 60 + 4 ≤ small.rxSize) ∧
      (rxAt 60 [1, 2, 3, 4]).params = small ∧ start.fatal = none ∧ small.rxSize < 64 + 1 ∧
      small.rxSize < 63 + 2 ∧ small.rxSize < 62 + 3 ∧ small.rxSize < 61 + 4 := by decide

/-- ValuelessRxByteFaults: the last byte of the access has no value; for `FB.RD` also the first one. -/
theorem test_witness_valueless :
    (rxAt 60 [1, 2, 3]).rx.byte? 63 = none ∧
      (∀ x, 60 ≤ x → x < 63 → ((rxAt 60 [1, 2, 3]).rx.byte? x).isSome = true) ∧
      63 < 60 + 4 ∧ 60 + 4 ≤ small.rxSize ∧ 63 < 61 + 3 ∧ 63 < 62 + 2 ∧ 63 < 63 + 1 ∧
      63 + 1 ≤ small.rxSize ∧ small.rxSize < 60 + 8 ∧
      (rxAt 56 [1, 2, 3, 4, 5, 6, 7]).rx.byte? 63 = none ∧
      (∀ x, 56 ≤ x → x < 63 → ((rxAt 56 [1, 2, 3, 4, 5, 6, 7]).rx.byte? x).isSome = true) ∧
      63 < 56 + 8 ∧ 56 + 8 ≤ small.rxSize := by decide

/-- ValuelessRxByteFaults, `FIR.PARSE` and `RPSI.PARSE`: V1 and V2 at the end of RX, the host having written
neither the reserved bytes and the sequence number of V1's entry nor the last byte of V2. -/
theorem test_witness_valueless_messages :
    ((v1Hdr 44).base + 4 = 48 ∧ 60 < 48 + 4 * (v1Hdr 44).lengthWords.toNat ∧
        48 + 4 * (v1Hdr 44).lengthWords.toNat ≤ small.rxSize ∧ (v1Hdr 44).packetType = small.psfbPt ∧
        (v1Hdr 44).formatOrCount = small.firFmt ∧ 16 ≤ 4 * (v1Hdr 44).lengthWords.toNat ∧
        (4 * (v1Hdr 44).lengthWords.toNat - 8) % 8 = 0 ∧ (60 - (48 + 8)) % 8 < 5 ∧
        (rxAt 44 (v1.take 16)).rx.byte? 60 = none ∧
        ∀ x, 48 ≤ x → x < 60 → x < 48 + 8 ∨ (x - (48 + 8)) % 8 < 5 →
          ((rxAt 44 (v1.take 16)).rx.byte? x).isSome = true) ∧
      (63 < 48 + 4 * (v2Hdr 44).lengthWords.toNat ∧
        48 + 4 * (v2Hdr 44).lengthWords.toNat ≤ small.rxSize ∧ (v2Hdr 44).packetType = small.psfbPt ∧
        (v2Hdr 44).formatOrCount = small.rpsiFmt ∧ small.firFmt ≠ small.rpsiFmt ∧
        11 ≤ 4 * (v2Hdr 44).lengthWords.toNat ∧ (rxAt 44 (v2.take 19)).rx.byte? 63 = none ∧
        (∀ x, 48 ≤ x → x < 63 → ((rxAt 44 (v2.take 19)).rx.byte? x).isSome = true) ∧
        (rxAt 44 (v2.take 19)).rx.byte? (48 + 8) = some 3 ∧ (3 : Byte).toNat < 8) := by decide

/-- ByteWritesStoreBigEndian: the last bytes of TX, and one address further. -/
theorem test_witness_byte_writes :
    63 + 1 ≤ start.params.txSize ∧ 62 + 2 ≤ start.params.txSize ∧ 61 + 3 ≤ start.params.txSize ∧
      60 + 4 ≤ start.params.txSize ∧ start.fatal = none ∧ start.params.txSize < 64 + 1 ∧
      start.params.txSize < 63 + 2 ∧ start.params.txSize < 62 + 3 ∧
      start.params.txSize < 61 + 4 := by decide

/-- ByteCodecLaws: the largest value of a width, an address outside, two ranges that touch. -/
theorem test_witness_byte_codec_laws :
    0xFFFFFF < 256 ^ 3 ∧ (4 < 5 ∨ 5 + 3 ≤ 4) ∧ 5 ≤ 7 ∧ 7 < 5 + 3 ∧
      Memory.wf (bytesAt 0 [1, 2]) = true ∧ (5 + 3 ≤ 8 ∨ 8 + 2 ≤ 5) := by decide

/-- StoredBytesOutliveLaterFatal: each place where the write that leaves TX can stand. -/
theorem test_witness_stored_bytes :
    start.fatal = none ∧ start.params.txSize < 61 + 4 ∧
      (60 + 4 ≤ start.params.txSize ∧ start.params.txSize < 60 + 8) ∧
      start.params.txSize < 64 + 1 ∧ start.params.txSize = 63 + 1 ∧
      (62 + 2 ≤ start.params.txSize ∧ start.params.txSize < 62 + 4) ∧
      (61 + 2 ≤ start.params.txSize ∧ start.params.txSize < 61 + 4) := by decide

/-- StoredBytesOutliveLaterFatal, the builds: V1 and V2 one byte too far, `MAXLEN` beyond TX. -/
theorem test_witness_stored_build :
    long.fatal = none ∧ FirReady long firMsg ∧ RpsiReady long rpsiMsg ∧
      long.cur + (wireFir long.params firMsg).length ≤ long.maxlen ∧
      long.params.txSize < long.cur + (wireFir long.params firMsg).length ∧
      long.cur + (wireRpsi long.params rpsiMsg).length ≤ long.maxlen ∧
      long.params.txSize < long.cur + (wireRpsi long.params rpsiMsg).length := by
  unfold FirReady RpsiReady; decide

/-- HdrParseOutcomes, first two clauses. -/
theorem test_witness_hdr_parse_window :
    start.fatal = none ∧ start.params.rxSize < 45 + 20 ∧ 61 + 3 ≤ start.params.rxSize ∧ 3 < 4 := by
  decide

/-- HdrParseOutcomes, the rejected headers (H6, H3) and the accepted one (H1). -/
theorem test_witness_hdr_parse_header :
    (44 + 20 ≤ (rxAt 44 v1).params.rxSize ∧ HoldsBytes (rxAt 44 v1).rx 44 [0x84, 0xCE, 0, 4] ∧
        (0x84 : Byte).extractLsb' 6 2 = 2 ∧ 4 + 4 * ((0 : Byte).toNat * 256 + (4 : Byte).toNat) ≤ 20) ∧
      (HoldsBytes (rxAt 44 [0x44, 0xCE, 0, 4]).rx 44 [0x44, 0xCE, 0, 4] ∧
        (0x44 : Byte).extractLsb' 6 2 ≠ 2) ∧
      19 < 4 + 4 * ((0 : Byte).toNat * 256 + (4 : Byte).toNat) := by
  unfold HoldsBytes; decide

/-- DispatchAnswersKind: no header, and DP1, DP2, DP4. -/
theorem test_witness_dispatch :
    (start.hdr = none ∧ start.fatal = none) ∧ firIn.hdr = some (v1Hdr 44) ∧
      ((v1Hdr 44).packetType = small.psfbPt ∧ (v1Hdr 44).formatOrCount = small.firFmt) ∧
      ((v2Hdr 44).packetType = small.psfbPt ∧ (v2Hdr 44).formatOrCount ≠ small.firFmt ∧
        (v2Hdr 44).formatOrCount = small.rpsiFmt) ∧
      { v1Hdr 44 with packetType := 200 }.packetType ≠ small.psfbPt := by decide

/-- HdrWrStoresHeader: the largest length, at the last place of TX. -/
theorem test_witness_hdr_wr :
    262144 % 4 = 0 ∧ 4 ≤ 262144 ∧ 262144 ≤ 262144 ∧ 60 + 4 ≤ start.params.txSize := by decide

/-- FbRdReturnsSsrcs: inside, both reads outside, the second read outside. -/
theorem test_witness_fb_rd :
    (48 + 8 ≤ rpsiIn.params.rxSize ∧
        HoldsBytes rpsiIn.rx 48 (wire32 0x12345678 ++ wire32 0x23456789)) ∧
      start.params.rxSize < 61 + 4 ∧
      (60 + 4 ≤ (rxAt 60 [1, 2, 3, 4]).params.rxSize ∧
        (rxAt 60 [1, 2, 3, 4]).params.rxSize < 60 + 8 ∧
        HoldsBytes (rxAt 60 [1, 2, 3, 4]).rx 60 (wire32 0x01020304)) := by
  unfold HoldsBytes; decide

/-- FbWrStoresSsrcs. -/
theorem test_witness_fb_wr :
    56 + 8 ≤ start.params.txSize ∧ start.fatal = none ∧ start.params.txSize < 57 + 8 := by decide

/-- FirParseDecodes: V1 at the end of RX. -/
theorem test_witness_fir_parse :
    firIn.hdr = some (v1Hdr 44) ∧ (v1Hdr 44).packetType = firIn.params.psfbPt ∧
      (v1Hdr 44).formatOrCount = firIn.params.firFmt ∧ 1 ≤ firMsg.reqs.length ∧
      (v1Hdr 44).lengthWords.toNat = 2 + 2 * firMsg.reqs.length ∧
      44 + 12 + 8 * firMsg.reqs.length ≤ firIn.params.rxSize ∧
      HoldsBytes firIn.rx (44 + 4) (wire32 0x12345678 ++ wire32 0) ∧
      ∀ i, (hi : i < firMsg.reqs.length) →
        HoldsBytes firIn.rx (44 + 12 + 8 * i)
          (wire32 firMsg.reqs[i].ssrc ++ [firMsg.reqs[i].seqNr]) := by
  unfold HoldsBytes; decide

/-- FirParseRejects: no header, another message, payloads of 12 and of 20 bytes. -/
theorem test_witness_fir_rejects :
    (start.fatal = none ∧ start.hdr = none) ∧
      (rpsiIn.hdr = some (v2Hdr 44) ∧ rpsiIn.fatal = none ∧
        (v2Hdr 44).formatOrCount ≠ rpsiIn.params.firFmt) ∧
      4 * { v1Hdr 44 with lengthWords := 3 }.lengthWords.toNat < 16 ∧
      (16 ≤ 4 * { v1Hdr 44 with lengthWords := 5 }.lengthWords.toNat ∧
        (4 * { v1Hdr 44 with lengthWords := 5 }.lengthWords.toNat - 8) % 8 ≠ 0) := by decide

/-- FirBuildWritesBlock, FirBuildThenParse (with the copy of `test_witness_fir_round_trip`). -/
theorem test_witness_fir_build :
    FirReady ready firMsg ∧ ready.cur + (12 + 8 * firMsg.reqs.length) ≤ ready.maxlen ∧
      ready.cur + (12 + 8 * firMsg.reqs.length) ≤ ready.params.txSize := by
  unfold FirReady; decide

/-- EmptyFirListIsFatal and BuildsAssertTheirRegister, whose list of 32767 entries is V1's repeated. -/
theorem test_witness_build_assertions :
    start.fatal = none ∧
      ({ ready with fir := some ⟨1, 0, []⟩ } : State).fir = some ⟨1, 0, []⟩ ∧ start.fir = none ∧
      start.rpsi = none ∧
      (∃ f, ({ ready with fir := some ⟨1, 0, List.replicate 32767 ⟨2, 3⟩⟩ } : State).fir = some f ∧
        32766 < f.reqs.length) := by
  refine ⟨rfl, rfl, rfl, rfl, _, rfl, ?_⟩
  rw [List.length_replicate]
  decide

/-- RpsiParseDecodes: V2 at the end of RX. -/
theorem test_witness_rpsi_parse :
    rpsiIn.hdr = some (v2Hdr 44) ∧ (v2Hdr 44).packetType = rpsiIn.params.psfbPt ∧
      (v2Hdr 44).formatOrCount = rpsiIn.params.rpsiFmt ∧
      4 * (v2Hdr 44).lengthWords.toNat = 10 + 6 ∧ 44 + 14 + 6 ≤ rpsiIn.params.rxSize ∧
      HoldsBytes rpsiIn.rx (44 + 4)
        (wire32 0x12345678 ++ wire32 0x23456789 ++ [3, 100] ++ [0, 0, 0, 0x83, 0x0A, 0x18]) ∧
      rpsiIn.rx.read (44 + 14) 6 = .ok (0x106143 * 2 ^ 3) ∧ 0x106143 < 2 ^ 64 ∧
      3 = padBits 0x106143 ∧ 6 = alignRegion (nativeBytes 0x106143) := by
  refine ⟨rfl, rfl, rfl, by decide, by decide, ?_, rfl, by decide, by decide, by decide⟩
  unfold HoldsBytes; decide

/-- RpsiParseRejects: no header, another message, a payload of 8 bytes, a padding count of 8 (RP6). -/
theorem test_witness_rpsi_rejects_early :
    (start.fatal = none ∧ start.hdr = none) ∧
      (firIn.hdr = some (v1Hdr 44) ∧ firIn.fatal = none ∧
        (v1Hdr 44).formatOrCount ≠ firIn.params.rpsiFmt) ∧
      4 * { v2Hdr 44 with lengthWords := 2 }.lengthWords.toNat < 11 ∧
      (11 ≤ 4 * (3 : BitVec 16).toNat ∧ 0 + 13 ≤ (rpsiCase true [8]).params.rxSize ∧
        HoldsBytes (rpsiCase true [8]).rx (0 + 4) (wire32 0x12345678 ++ wire32 0x23456789 ++ [8]) ∧
        8 ≤ (8 : Byte).toNat) := by
  unfold HoldsBytes; decide

/-- RpsiParseRejects, last clause: a padding bit set (RP8), and a count that is not the canonical one
(RP16). -/
theorem test_witness_rpsi_rejects_padding :
    (4 * (3 : BitVec 16).toNat = 10 + 2 ∧ 0 + 14 + 2 ≤ small.rxSize ∧
        HoldsBytes (rpsiCase true [7, 100, 0x80, 1]).rx (0 + 4)
          (wire32 0x12345678 ++ wire32 0x23456789 ++ [7, 100] ++ [0x80, 1]) ∧
        (7 : Byte).toNat < 8 ∧ 0x8001 % 2 ^ (7 : Byte).toNat ≠ 0) ∧
      (HoldsBytes (rpsiCase true [0, 100, 0, 0x41]).rx (0 + 4)
          (wire32 0x12345678 ++ wire32 0x23456789 ++ [0, 100] ++ [0, 0x41]) ∧
        (rpsiCase true []).params.rpsiCanonical = true ∧ 0 ≠ padBits (0x41 / 2 ^ 0)) ∧
      (rpsiCase true [7, 100, 0x80, 1]).rx.read 14 2 = .ok 0x8001 ∧
      (rpsiCase true [0, 100, 0, 0x41]).rx.read 14 2 = .ok 0x41 := by
  refine ⟨?_, ?_, rfl, rfl⟩ <;> unfold HoldsBytes <;> decide

/-- RP19: an identifier of 65 bits, for the middle alternative of the last clause. -/
theorem test_witness_rpsi_rejects_width : 2 ^ 64 ≤ 2 ^ 71 / 2 ^ (7 : Byte).toNat := by decide

/-- RpsiBuildWritesBlock. -/
theorem test_witness_rpsi_build :
    RpsiReady ready rpsiMsg ∧
      ready.cur + (14 + alignRegion (nativeBytes rpsiMsg.pictureId.toNat)) ≤ ready.maxlen ∧
      ready.cur + (14 + alignRegion (nativeBytes rpsiMsg.pictureId.toNat)) ≤
        ready.params.txSize := by
  unfold RpsiReady; decide

/-- CanonicalParseAcceptsBuiltFormOnly and FlippedPaddingIsRejected: V2, and its last byte with bit 0 set. -/
theorem test_witness_accepted_rpsi :
    rpsiIn.params.rpsiCanonical = true ∧ rpsiIn.hdr = some (v2Hdr 44) ∧ rpsiIn.fatal = none ∧
      (∃ t, exec .rpsiParse rpsiIn = .next t ∧ t.fatal = none ∧ t.status = .ok) ∧
      rpsiIn.rx.byte? (44 + 12) = some 3 ∧ (0x19 : Byte).toNat % 2 ^ (3 : Byte).toNat ≠ 0 :=
  ⟨rfl, rfl, rfl, ⟨_, rfl, rfl, rfl⟩, rfl, by decide⟩

/-- BitLenIsMinimal, NativeBytesAndPadding, RegionFillsWholeWords: both ends of each range. -/
theorem test_witness_bit_length :
    (1 ≤ 1 ∧ 2 ^ (1 - 1) ≤ 1 ∧ 1 < 2 ^ 1) ∧ 2 ^ 64 - 1 < 2 ^ 64 ∧ bitLen 0xFFFF % 8 = 0 ∧
      bitLen 0xFFFF ≤ 16 ∧ 17 ≤ bitLen 0x10000 ∧ bitLen 0xFFFFFFFFFFFF ≤ 48 ∧
      49 ≤ bitLen 0x1000000000000 ∧ bitLen 0xFFFFFFFFFFFFFFFF ≤ 64 ∧
      (3 ≤ 6 ∧ (14 + 6) % 4 = 0) := by decide

/-- FirBuildThenParse: V1 built at the end of TX and copied to the end of RX. -/
theorem test_witness_fir_round_trip :
    ∃ t u : State, exec .firBuild ready = .next t ∧ ready.maxlen ≤ ready.params.txSize ∧
      u.params = ready.params ∧ 44 + (12 + 8 * firMsg.reqs.length) ≤ u.params.rxSize ∧
      ∀ i, i < 12 + 8 * firMsg.reqs.length → u.rx.byte? (44 + i) = t.tx.byte? (ready.cur + i) :=
  ⟨_, rxAt 44 v1, rfl, by decide, rfl, by decide, by decide⟩

/-- RpsiBuildThenParse: V2 in the same way. -/
theorem test_witness_rpsi_round_trip :
    ∃ t u : State, RpsiReady ready rpsiMsg ∧ FormatsDiffer ready ∧
      exec .rpsiBuild ready = .next t ∧ ready.maxlen ≤ ready.params.txSize ∧
      u.params = ready.params ∧ 44 + rpsiBlockLen rpsiMsg.pictureId.toNat ≤ u.params.rxSize ∧
      ∀ i, i < rpsiBlockLen rpsiMsg.pictureId.toNat →
        u.rx.byte? (44 + i) = t.tx.byte? (ready.cur + i) :=
  ⟨_, rxAt 44 v2, rfl, by unfold FormatsDiffer; decide, rfl, by decide, rfl, by decide, by decide⟩

/-- FirParseThenBuild: V1 at the end of RX, parsed, and built at the end of TX. -/
theorem test_witness_fir_parse_then_build :
    ∃ t u v : State, ∃ f : Fir, (rxAt 44 v1).fatal = none ∧
      exec (.hdrParse 44 20) { rxAt 44 v1 with cur := 44 } = .next t ∧
      t.hdr = some (v1Hdr 44) ∧ t.status = .ok ∧ exec .firParse t = .next u ∧ u.fatal = none ∧
      u.status = .ok ∧ u.fir = some f ∧ (v1Hdr 44).hasPadding = false ∧ f.mediaSsrc = 0 ∧
      (∀ i, i < f.reqs.length → HoldsBytes (rxAt 44 v1).rx (44 + 17 + 8 * i) [0, 0, 0]) ∧
      u.cur + (v1Hdr 44).blockSize ≤ u.maxlen ∧ u.maxlen ≤ u.params.txSize ∧
      exec .firBuild u = .next v := by
  refine ⟨_, _, _, ⟨0x12345678, 0, [⟨0x23456789, 24⟩]⟩, rfl, rfl, rfl, rfl, rfl, rfl, rfl, rfl, rfl,
    rfl, ?_, by decide, by decide, rfl⟩
  unfold HoldsBytes; decide

/-- SpaceTestDecides: exactly enough room, and one byte too little for each of the three operations. -/
theorem test_witness_space :
    ready.cur + 20 ≤ ready.maxlen ∧ full.maxlen < full.cur + 20 ∧ FirReady full firMsg ∧
      full.maxlen < full.cur + (12 + 8 * firMsg.reqs.length) ∧ RpsiReady full rpsiMsg ∧
      full.maxlen < full.cur + rpsiBlockLen rpsiMsg.pictureId.toNat := by
  unfold FirReady RpsiReady; decide

/-- CommitChecksEndOffset. -/
theorem test_witness_commit : ready.cur = 44 ∧ ready.cur ≠ 45 ∧ ready.fatal = none := by decide

/-- KFailureEndsBuild and KSuccessTestsAgain: an answer of each kind for each waiting operation, and an
installed continuation. -/
theorem test_witness_k_answers (b : Builder) (success : Bool) :
    FormatsDiffer (waiting b [.kReturn ⟨success, 0, [(63, 7)]⟩]) ∧
      (∃ k, (waiting b [.kReturn ⟨success, 0, [(63, 7)]⟩]).phase = .inK k ∧ k.builder = b ∧
        kAnswer? k (waiting b [.kReturn ⟨success, 0, [(63, 7)]⟩]) =
          some (⟨success, 0, [(63, 7)]⟩, []) ∧
        kAnswer? k { waiting b [] with installed := some .kReset } = some (kReset, []) ∧
        kAnswer? k { waiting b [] with installed := some .kFail } = some (⟨false, 45, []⟩, [])) ∧
      WritesInTx (waiting b [.kReturn ⟨success, 0, [(63, 7)]⟩]) ⟨success, 0, [(63, 7)]⟩ := by
  refine ⟨?_, ⟨_, rfl, rfl, rfl, rfl, rfl⟩, ?_⟩
  · unfold FormatsDiffer; show (4 : BitVec 5) ≠ 3; decide
  · unfold WritesInTx; show ∀ x ∈ [((63 : Nat), (7 : Byte))], x.1 < 64; decide

/-- LyingContinuationNeverEnds: answers that leave one byte too little, and that write TX's last byte. -/
theorem test_witness_lying_continuation :
    (∀ b ∈ [Builder.fir, Builder.rpsi, Builder.reserve 20],
      waitsFor (waiting b [.kReturn ⟨true, 45, []⟩, .kReturn ⟨true, 99, [(63, 7)]⟩]) b = some 20) ∧
      (∀ a ∈ [KAnswer.mk true 45 [], ⟨true, 99, [(63, 7)]⟩],
        a.success = true ∧ full.maxlen < a.cursor + 20 ∧ WritesInTx full a) ∧
      full.fatal = none ∧ FormatsDiffer full := by
  refine ⟨?_, ?_, rfl, ?_⟩
  · intro b hb
    simp only [List.mem_cons, List.not_mem_nil, or_false] at hb
    rcases hb with rfl | rfl | rfl <;> rfl
  · unfold WritesInTx; decide
  · unfold FormatsDiffer; decide

/-- LyingContinuationNeverEnds, second part: `K_reset` installed, the block 4 bytes longer than `MAXLEN`. -/
theorem test_witness_lying_installed :
    ∀ b ∈ [Builder.fir, Builder.rpsi, Builder.reserve 20],
      waitsFor { waiting b [.read .cur] with maxlen := 16, installed := some .kReset } b = some 20 ∧
        (∀ m x, (Continuation.kReset.answer m x).success = true ∧
          16 < (Continuation.kReset.answer m x).cursor + 20 ∧
          WritesInTx full (Continuation.kReset.answer m x)) ∧
        (∀ a rest, [Event.read .cur] ≠ .kReturn a :: rest) ∧
        ∀ rest, [Event.read .cur] ≠ .reset :: rest := by
  intro b hb
  refine ⟨?_, fun _ x => ⟨rfl, by show 16 < 0 + 20; decide, fun y hy => by cases hy⟩,
    (fun a rest h => by cases h), fun rest h => by cases h⟩
  simp only [List.mem_cons, List.not_mem_nil, or_false] at hb
  rcases hb with rfl | rfl | rfl <;> rfl

/-- A build command to a block without room; `K` moves the cursor and answers. -/
def honest (op : BitVec 8) : State :=
  { full with inbox := [.command ⟨op, 0, 0⟩, .setCur 0, .kReturn kReset] }

/-- What happens while a build of `honest` waits for `K`. -/
theorem honest_waits {op : BitVec 8} (h : op = 0x21 ∨ op = 0x31) {t : State}
    (hw : WaitsIn (honest op) t) :
    t.maxlen = 64 ∧ t.params = small ∧ t.installed = none ∧
      (t.inbox = [.setCur 0, .kReturn kReset] ∨ t.inbox = [.kReturn kReset]) := by
  obtain ⟨n, ht, hn⟩ := hw
  rcases h with rfl | rfl
  all_goals
    match n with
    | 0 => cases ht; exact ⟨rfl, rfl, rfl, .inl rfl⟩
    | 1 => cases ht; exact ⟨rfl, rfl, rfl, .inr rfl⟩
    | n + 2 =>
      obtain ⟨k, hk⟩ := hn 2 _ (by omega) rfl
      cases hk

/-- HonestContinuationEndsBuild: both builds, through `K`. -/
theorem test_witness_honest_continuation (op : BitVec 8) (h : op = 0x21 ∨ op = 0x31) :
    NoFatal (honest op) ∧ FormatsDiffer (honest op) ∧ TxContext (honest op) ∧
      (honest op).phase = .idle ∧ FirReady (honest op) firMsg ∧
      20 = 12 + 8 * firMsg.reqs.length ∧ RpsiReady (honest op) rpsiMsg ∧
      20 = rpsiBlockLen rpsiMsg.pictureId.toNat ∧ KTotal (honest op) ∧ KHonest (honest op) 20 ∧
      KQuiet (honest op) ∧ Exclusive (honest op) ∧ KInTx (honest op) := by
  have ans : ∀ p : State → KAnswer → Prop, (∀ t, t.maxlen = 64 → p t kReset) →
      EachAnswer (honest op) p := by
    intro p hp t k a rest hw _ ha
    obtain ⟨hm, -, hn, e | e⟩ := honest_waits h hw
    · rw [kAnswer?_none hn (fun a r hc => by rw [e] at hc; cases hc)] at ha; cases ha
    · rw [kAnswer?_kReturn e] at ha; cases ha; exact hp t hm
  have ev : ∀ p : State → Event → Prop, (∀ t, p t (.setCur 0)) → EachEvent (honest op) p := by
    intro p hp t k e rest hw _ ha hi
    obtain ⟨-, -, -, hc | hc⟩ := honest_waits h hw
    · rw [hc] at hi; cases hi; exact hp t
    · rw [kAnswer?_kReturn hc] at ha; cases ha
  refine ⟨rfl, ?_, ?_, rfl, ?_, by decide, rfl, by decide, fun t ht => .inr ?_,
    ans _ fun t hm _ => ?_, ev _ fun _ => rfl, ev _ fun _ => rfl, ans _ fun t _ x hx => ?_,
    ev _ fun t a bs ha => ?_⟩
  · show (4 : BitVec 5) ≠ 3; decide
  · show true = true ∧ true = true ∧ 45 ≤ 64 ∧ 64 ≤ 64; decide
  · show some firMsg = some firMsg ∧ 1 ≤ firMsg.reqs.length ∧ firMsg.reqs.length ≤ 32766; decide
  · rcases (honest_waits h ht).2.2.2 with e | e <;> rw [e] <;> exact ⟨kReset, by simp⟩
  · rw [hm]; decide
  · cases hx
  · cases ha

/-- No invocation is outstanding in `ready`; the one in `waiting` is sound. -/
theorem test_witness_waiting_sound :
    WaitingSound ready ∧ WaitingSound (waiting .fir [.kReturn kReset]) ∧
      WaitingSound (waiting .rpsi [.kReturn kReset]) := by
  refine ⟨(fun k hk => by cases hk), fun k hk => ?_, fun k hk => ?_⟩ <;> cases hk <;>
    exact ⟨rfl, by decide, by decide, 20, rfl, by decide⟩

/-- BuildsAppendWholeBlocks: a block that fits, and one that `K_reset` makes room for. -/
theorem test_witness_streams :
    MemoriesCanonical full ∧ FormatsDiffer full ∧ ready.phase = .idle ∧ full.phase = .idle ∧
      ready.maxlen ≤ ready.params.txSize ∧ FirReady ready firMsg ∧ RpsiReady ready rpsiMsg ∧
      ready.cur + (wireFir ready.params firMsg).length ≤ ready.maxlen ∧
      ready.cur + (wireRpsi ready.params rpsiMsg).length ≤ ready.maxlen ∧
      full.maxlen < full.cur + (wireFir full.params firMsg).length ∧
      full.maxlen < full.cur + (wireRpsi full.params rpsiMsg).length ∧
      (wireFir full.params firMsg).length ≤ full.maxlen ∧
      (wireRpsi full.params rpsiMsg).length ≤ full.maxlen := by
  unfold MemoriesCanonical FormatsDiffer FirReady RpsiReady; decide

/-- BuildsAppendWholeBlocks: the steps of its clauses answer a next state. -/
theorem test_witness_streams_step :
    (∃ t, exec .firBuild ready = .next t) ∧ (∃ t, exec .rpsiBuild ready = .next t) ∧
      (∃ t, exec .firBuild full = .next t) ∧ (∃ t, exec .rpsiBuild full = .next t) ∧
      (∃ t, step (waiting .fir [.kReturn kReset]) = .next t) ∧
      (∃ t, step { waiting .rpsi [] with installed := some .kReset } = .next t) ∧
      ∃ k, (waiting .rpsi []).phase = .inK k ∧ k.builder = .rpsi ∧
        kAnswer? k { waiting .rpsi [] with installed := some .kReset } = some (kReset, []) :=
  ⟨⟨_, rfl⟩, ⟨_, rfl⟩, ⟨_, rfl⟩, ⟨_, rfl⟩, ⟨_, rfl⟩, ⟨_, rfl⟩, _, rfl, rfl, rfl⟩

/-- ParseSequenceNeverFatal: V1 and V2 at the end of RX; their kinds are the two the clauses name. -/
theorem test_witness_parse_sequence :
    NoFatal (rxAt 44 v1) ∧ RxWritten (rxAt 44 v1) 44 20 ∧ RxWritten (rxAt 44 v2) 44 20 ∧
      kindOf small (v1Hdr 44) = .fir ∧ kindOf small (v2Hdr 44) = .rpsi := by
  unfold NoFatal RxWritten; decide

/-- StepRunsCommand and StepRunsMicroOperation. -/
theorem test_witness_step_runs :
    FormatsDiffer start ∧ start.phase = .idle ∧ start.fatal = none ∧
      decodeCommand ⟨0x10, 44, 20⟩ = .ok (.hdrParse 44 20) ∧
      decodeMicro ⟨0x0C, [60, 5]⟩ = .ok (.wrbe32 60 5) :=
  ⟨by unfold FormatsDiffer; decide, rfl, rfl, rfl, rfl⟩

/-- OtherSelectorsAreBadCommands and LatchedBlockIgnoresCommands, with `test_witness_step_runs`. -/
theorem test_witness_bad_command :
    (0x01 : BitVec 8) ∉ ([0x10, 0x11, 0x20, 0x21, 0x30, 0x31] : List (BitVec 8)) ∧
      ({ start with fatal := some ⟨.badCommand, 1⟩ } : State).fatal =
        some ⟨.badCommand, 1⟩ := by decide

/-- OnlyResetClearsFatal, ResetInputRestores: a latched state, a host write and a reset, idle and in `K`. -/
theorem test_witness_latched_steps :
    (∃ t, step { start with fatal := some ⟨.badCommand, 1⟩, inbox := [.setCur 3] } = .next t) ∧
      (∃ t, step { start with fatal := some ⟨.badCommand, 1⟩, inbox := [.reset] } = .next t) ∧
      FormatsDiffer start ∧ FormatsDiffer (waiting .fir [.reset]) ∧
      (waiting .fir [.reset]).inbox = [.reset] :=
  ⟨⟨_, rfl⟩, ⟨_, rfl⟩, by unfold FormatsDiffer; decide, by unfold FormatsDiffer; decide, rfl⟩

/-- HostWritesAndReadsRegisters, HostWritesBuffers: registers invalid and valid; the last byte of each
memory and one byte further, in an answer of `K` too. -/
theorem test_witness_host_accesses :
    FormatsDiffer start ∧ start.phase = .idle ∧ start.hdr = none ∧ start.fir = none ∧
      start.rpsi = none ∧ ready.fir = some firMsg ∧
      62 + [(1 : Byte), 2].length ≤ start.params.rxSize ∧
      62 + [(1 : Byte), 2].length ≤ start.params.txSize ∧
      start.params.rxSize < 63 + [(1 : Byte), 2].length ∧
      start.params.txSize < 63 + [(1 : Byte), 2].length ∧
      ((waiting .fir [.writeTx 62 [1, 2]]).installed = none ∧
        ∃ k, (waiting .fir [.writeTx 62 [1, 2]]).phase = .inK k ∧
          kAnswer? k (waiting .fir [.kReturn ⟨false, 0, [(64, 7)]⟩]) =
            some (⟨false, 0, [(64, 7)]⟩, [])) ∧
      ¬ WritesInTx (waiting .fir []) ⟨false, 0, [(64, 7)]⟩ := by
  refine ⟨by unfold FormatsDiffer; decide, rfl, rfl, rfl, rfl, rfl, by decide, by decide, by decide,
    by decide, ⟨rfl, _, rfl, rfl⟩, fun h => absurd (h (64, 7) (by simp)) (by decide)⟩

/-- HostActsWhileBusyRefused: a command, a write of `MAXLEN`, and the installing of a continuation. -/
theorem test_witness_busy :
    FormatsDiffer (waiting .fir []) ∧ (∃ k, (waiting .fir []).phase = .inK k) ∧
      (waiting .fir []).installed = none ∧
      ∀ e ∈ [Event.command ⟨0x11, 0, 0⟩, .setMaxlen 9, .installK none],
        (∀ a, e ≠ .kReturn a) ∧ (∀ v, e ≠ .read v) ∧ (∀ a bytes, e ≠ .writeTx a bytes) ∧
          (∀ n, e ≠ .setCur n) ∧ e ≠ .reset := by
  refine ⟨by unfold FormatsDiffer; decide, ⟨_, rfl⟩, rfl, fun e he => ?_⟩
  simp only [List.mem_cons, List.not_mem_nil, or_false] at he
  rcases he with rfl | rfl | rfl <;> refine ⟨?_, ?_, ?_, ?_, ?_⟩ <;> intros <;> exact Event.noConfusion

/-- HostReadsInsideK, OperandsReachHdrParseAlone. -/
theorem test_witness_reads_inside_k :
    (waiting .rpsi [.read .cur]).inbox = [.read .cur] ∧
      (waiting .rpsi [.read .maxlen]).inbox = [.read .maxlen] ∧
      (∃ k, (waiting .rpsi [.read .hdr]).phase = .inK k) ∧
      (waiting .rpsi [.read .hdr]).installed = none ∧ FormatsDiffer (waiting .rpsi [.read .hdr]) ∧
      (⟨0x21, 1, 2⟩ : Command).op = (⟨0x21, 3, 4⟩ : Command).op ∧
      (⟨0x21, 1, 2⟩ : Command).op ≠ 0x10 :=
  ⟨rfl, rfl, ⟨_, rfl⟩, rfl, by unfold FormatsDiffer; decide, rfl, by decide⟩

/-- AmbiguousConfigurationRefused, BlockWaitsForHost. -/
theorem test_witness_configuration :
    ({ start with params := { small with firFmt := 3 } } : State).params.firFmt = 3 ∧
      small.rpsiFmt = 3 ∧ FormatsDiffer start ∧ start.inbox = [] ∧ start.phase = .idle ∧
      (waiting .fir []).inbox = [] ∧ (waiting .fir []).installed = none := by
  unfold FormatsDiffer; decide

/-- StepKeepsInv, ParametersNeverChange: a sound state whose step answers a next state. -/
theorem test_witness_inv :
    Inv (waiting .fir [.kReturn kReset]) ∧
      ∃ t, step (waiting .fir [.kReturn kReset]) = .next t := by
  refine ⟨⟨?_, (fun h hh => by cases hh), test_witness_waiting_sound.2.1⟩, ⟨_, rfl⟩⟩
  unfold MemoriesCanonical; decide

/-- EachRegisterHasItsWriters, ReadingFrame: each reading operation answers a next state. -/
theorem test_witness_reading_frame :
    (∃ t, exec (.rdbe8 63) rpsiIn = .next t) ∧ (∃ t, exec (.rdbe16 62) rpsiIn = .next t) ∧
      (∃ t, exec (.rdbe24 61) rpsiIn = .next t) ∧ (∃ t, exec (.rdbe32 60) rpsiIn = .next t) ∧
      (∃ t, exec (.fbRd 56) rpsiIn = .next t) ∧ (∃ t, exec .dispatch rpsiIn = .next t) ∧
      ∃ t, exec (.bldCommit 44) ready = .next t :=
  ⟨⟨_, rfl⟩, ⟨_, rfl⟩, ⟨_, rfl⟩, ⟨_, rfl⟩, ⟨_, rfl⟩, ⟨_, rfl⟩, ⟨_, rfl⟩⟩

/-- ParsingFrame. -/
theorem test_witness_parsing_frame :
    (∃ t, exec (.hdrParse 44 20) rpsiIn = .next t) ∧ (∃ t, exec .firParse firIn = .next t) ∧
      ∃ t, exec .rpsiParse rpsiIn = .next t :=
  ⟨⟨_, rfl⟩, ⟨_, rfl⟩, ⟨_, rfl⟩⟩

/-- StoringFrame: each storing operation at its last place in TX. -/
theorem test_witness_storing_frame :
    (∃ t, exec (.wrbe8 63 1) start = .next t) ∧ (∃ t, exec (.wrbe16 62 1) start = .next t) ∧
      (∃ t, exec (.wrbe24 61 1) start = .next t) ∧ (∃ t, exec (.wrbe32 60 1) start = .next t) ∧
      (∃ t, exec (.hdrWr 60 3 206 4) start = .next t) ∧ (∃ t, exec (.fbWr 56 1 2) start = .next t) ∧
      (59 < 60 ∨ 60 + 4 ≤ 59) :=
  ⟨⟨_, rfl⟩, ⟨_, rfl⟩, ⟨_, rfl⟩, ⟨_, rfl⟩, ⟨_, rfl⟩, ⟨_, rfl⟩, by decide⟩

/-- BuildingFrame: a reservation, and the builds that write, that have no register, and that invoke `K`. -/
theorem test_witness_building_frame :
    (∃ t, exec (.bldReserve 20) ready = .next t) ∧ (∃ t, exec .firBuild ready = .next t) ∧
      (∃ t, exec .rpsiBuild ready = .next t) ∧ (∃ t, exec .firBuild start = .next t) ∧
      (∃ t, exec .rpsiBuild start = .next t) ∧
      (∃ t, exec .firBuild full = .next t ∧ t.phase ≠ full.phase) ∧
      (∃ t, exec .rpsiBuild full = .next t ∧ t.phase ≠ full.phase) ∧ ready.fir = some firMsg ∧
      ready.rpsi = some rpsiMsg ∧ 43 < ready.cur ∧
      (start.maxlen ≤ start.params.txSize ∧
        (∃ t, exec .firBuild start = .next t ∧ t.fatal ≠ start.fatal) ∧
        ∃ t, exec .rpsiBuild start = .next t ∧ t.fatal ≠ start.fatal) :=
  ⟨⟨_, rfl⟩, ⟨_, rfl⟩, ⟨_, rfl⟩, ⟨_, rfl⟩, ⟨_, rfl⟩, ⟨_, rfl, by decide⟩, ⟨_, rfl, by decide⟩, rfl, rfl,
    by decide, by decide, ⟨_, rfl, by decide⟩, ⟨_, rfl, by decide⟩⟩

/-- DecodeOfEncode, DecodedIsWellFormed: the longest header length. -/
theorem test_witness_decode :
    Instr.wf (.hdrWr 8 3 206 262144) = true ∧
      decode 0x12 [8, 3, 206, 65535] = .ok (.hdrWr 8 3 206 262144) := ⟨by decide, rfl⟩

end Sys2Proof.Tests
end

/-! PROOFS. Decode and encode (00_scope.md R2, 30_encoding.md R79): operands, block lengths, the two directions. -/

namespace Sys2Proof

/-! ## Operands of a record -/

@[simp] theorem operand_cons_zero (a : Nat) (args : List Nat) : operand (a :: args) 0 = a := rfl

@[simp] theorem operand_cons_succ (a : Nat) (args : List Nat) (k : Nat) :
    operand (a :: args) (k + 1) = operand args k := rfl

/-- A number that fits its width is handed on. -/
theorem narrow_of_lt {op : BitVec 8} {w n : Nat} {k : BitVec w → Except Reject Instr}
    (h : n < 2 ^ w) : narrow op w n k = k (BitVec.ofNat w n) := if_pos h

/-- The value of a bit vector of the operand's width is handed on as that bit vector. -/
@[simp] theorem narrow_toNat {op : BitVec 8} {w : Nat} (v : BitVec w)
    (k : BitVec w → Except Reject Instr) : narrow op w v.toNat k = k v := by
  rw [narrow_of_lt v.isLt, BitVec.ofNat_toNat, BitVec.setWidth_eq]

/-- An operand that is accepted is the value of a bit vector of its width. -/
theorem narrow_ok {op : BitVec 8} {w n : Nat} {k : BitVec w → Except Reject Instr} {i : Instr}
    (h : narrow op w n k = .ok i) : ∃ v : BitVec w, n = v.toNat ∧ k v = .ok i := by
  by_cases hn : n < 2 ^ w
  · rw [narrow_of_lt hn] at h
    exact ⟨BitVec.ofNat w n, (Nat.mod_eq_of_lt hn).symm, h⟩
  · rw [narrow, if_neg hn] at h; cases h

/-! ## Block lengths -/

theorem wfHeaderLen_iff (n : Nat) : wfHeaderLen n = true ↔ n % 4 = 0 ∧ 4 ≤ n ∧ n ≤ 262144 := by
  simp [wfHeaderLen, and_assoc]

theorem wfReserveLen_iff (n : Nat) : wfReserveLen n = true ↔ n % 4 = 0 ∧ 0 < n := by
  simp [wfReserveLen]

/-- Every length `HDR.WR` takes is one `BLD.RESERVE` takes. -/
theorem wfReserveLen_of_wfHeaderLen {n : Nat} (h : wfHeaderLen n = true) : wfReserveLen n = true := by
  rw [wfHeaderLen_iff] at h
  rw [wfReserveLen_iff]
  omega

/-- The length field of a positive multiple of 4 stands for that length. -/
theorem lenOfField_fieldOfLen {n : Nat} (h : wfReserveLen n = true) :
    lenOfField (fieldOfLen n) = n := by
  rw [wfReserveLen_iff] at h
  unfold lenOfField fieldOfLen
  omega

/-- The length field of a header's block length fits its 16 bits (30_encoding.md R71). -/
theorem fieldOfLen_lt {n : Nat} (h : wfHeaderLen n = true) : fieldOfLen n < 2 ^ 16 := by
  rw [wfHeaderLen_iff] at h
  unfold fieldOfLen
  omega

theorem wfReserveLen_lenOfField (l : Nat) : wfReserveLen (lenOfField l) = true := by
  rw [wfReserveLen_iff]
  unfold lenOfField
  omega

theorem wfHeaderLen_lenOfField (l : BitVec 16) : wfHeaderLen (lenOfField l.toNat) = true := by
  have := l.isLt
  rw [wfHeaderLen_iff]
  unfold lenOfField
  omega

/-! ## The two directions -/

/-- The record of a well-formed operation decodes to it. Its bit-vector operands fit their widths; only a
length field needs the well-formedness. -/
theorem decode_encode {i : Instr} (h : i.wf = true) : decode (encode i).op (encode i).args = .ok i := by
  cases i with
  | rdbe8 | rdbe16 | rdbe24 | rdbe32 | hdrParse | dispatch | fbRd => rfl
  | firParse | firBuild | rpsiParse | rpsiBuild | bldCommit => rfl
  | wrbe8 | wrbe16 | wrbe24 | wrbe32 | fbWr => simp [encode, decode]
  | hdrWr c f t n =>
    have hl : lenOfField (fieldOfLen n) = n := lenOfField_fieldOfLen (wfReserveLen_of_wfHeaderLen h)
    have hfit : fieldOfLen n % 65536 = fieldOfLen n := Nat.mod_eq_of_lt (fieldOfLen_lt h)
    simp [encode, decode, narrow_of_lt (fieldOfLen_lt h), hfit, hl]
  | bldReserve n => simp [encode, decode, lenOfField_fieldOfLen h]

/-- What decodes is well formed and carries its selector. A length read from a record is a multiple of 4
inside the limits because it comes from a length field. -/
theorem decode_ok {op : BitVec 8} {args : List Nat} {i : Instr} (h : decode op args = .ok i) :
    i.wf = true ∧ i.opId = op := by
  suffices hi : i.wf = true ∧ i.opId.toNat = op.toNat from ⟨hi.1, BitVec.eq_of_toNat_eq hi.2⟩
  unfold decode at h
  split at h
  case h_20 => cases h -- no such operation
  -- `WRBE8` to `WRBE32`
  case h_5 ho | h_6 ho | h_7 ho | h_8 ho =>
    obtain ⟨v, -, h⟩ := narrow_ok h
    cases h
    exact ⟨rfl, ho.symm⟩
  -- `FB.WR`
  case h_13 ho =>
    obtain ⟨sender, -, h⟩ := narrow_ok h
    obtain ⟨media, -, h⟩ := narrow_ok h
    cases h
    exact ⟨rfl, ho.symm⟩
  -- `HDR.WR`
  case h_11 ho =>
    obtain ⟨f, -, h⟩ := narrow_ok h
    obtain ⟨t, -, h⟩ := narrow_ok h
    obtain ⟨l, -, h⟩ := narrow_ok h
    cases h
    exact ⟨wfHeaderLen_lenOfField l, ho.symm⟩
  -- `BLD.RESERVE`
  case h_18 ho =>
    cases h
    exact ⟨wfReserveLen_lenOfField _, ho.symm⟩
  -- the others, whose operands have no limit
  all_goals
    rename_i ho
    cases h
    exact ⟨rfl, ho.symm⟩

/-- Settles O56: the operands fit their widths, and a well-formed length is the one its field stands for. -/
theorem decodeOfEncode : Obligations.DecodeOfEncode := by
  unfold Obligations.DecodeOfEncode
  exact fun _ h => decode_encode h

/-- Settles O57, by inversion of `decode`. -/
theorem decodedIsWellFormed : Obligations.DecodedIsWellFormed := by
  unfold Obligations.DecodedIsWellFormed
  exact fun _ _ _ h => decode_ok h

/-- Settles O60, by evaluation of the decoder on each record. -/
theorem selectorsDecode : Obligations.SelectorsDecode := by
  unfold Obligations.SelectorsDecode
  exact ⟨rfl, rfl, rfl, rfl, rfl, rfl, rfl, rfl, rfl, rfl⟩

end Sys2Proof

/-! PROOFS. What an operation may change at all (10_state.md R31, column "block writes"), and what a step
leaves alone whatever it takes. -/

namespace Sys2Proof.Machine

variable {s t : State}

/-! ## The frame of every operation -/

/-- From `s` to `t` nothing changed but what an operation of the block may write: the registers, `STATUS`,
the latch, TX and `CUR`, and of the model's own fields the result and the phase. -/
def BlockWritesOnly (s t : State) : Prop :=
  t = { s with
    hdr := t.hdr, fir := t.fir, rpsi := t.rpsi, status := t.status, fatal := t.fatal, tx := t.tx,
    cur := t.cur, result := t.result, phase := t.phase }

theorem BlockWritesOnly.params (h : BlockWritesOnly s t) : t.params = s.params := by
  rw [show t = _ from h]

theorem State.raise_blockWritesOnly (s : State) (c : FatalCause) (op : BitVec 8) :
    BlockWritesOnly s (s.raise c op) := by
  unfold BlockWritesOnly
  rw [State.raise_eta]

theorem WritesOnly.blockWritesOnly {lo hi : Nat} {r : Flow} (h : WritesOnly s lo hi r) :
    BlockWritesOnly s r.state := by
  obtain ⟨h, -⟩ := h
  unfold BlockWritesOnly
  rw [h]

theorem runRead_blockWritesOnly {w : Width} {a : Nat} (h : runRead w a s = .next t) :
    BlockWritesOnly s t := by
  obtain ⟨v, rfl⟩ | ⟨c, op, rfl⟩ := runRead_next h
  · rfl
  · exact s.raise_blockWritesOnly c op

theorem runWrite_blockWritesOnly {w : Width} {a v : Nat} (h : runWrite w a v s = .next t) :
    BlockWritesOnly s t := by
  cases h
  exact (writeBE_writesOnly s w a v).blockWritesOnly

theorem State.commit_blockWritesOnly (s : State) (endOff : Nat) :
    BlockWritesOnly s (s.commit endOff).state := by
  unfold State.commit
  split
  · rfl
  · exact s.raise_blockWritesOnly _ _

theorem buildBlock_blockWritesOnly (b : Builder) (s : State) {j : Job}
    (hj : piecesLen j.pieces = j.blockLen) : BlockWritesOnly s (buildBlock b s j) := by
  rcases Nat.lt_or_ge s.maxlen (s.cur + j.blockLen) with h | h
  · rw [buildBlock_noRoom h]; rfl
  · rw [buildBlock_room h]
    obtain ⟨hw, -⟩ := writeBlock_spec s j hj
    unfold BlockWritesOnly
    rw [hw]

theorem firBuild_blockWritesOnly (s : State) : BlockWritesOnly s (firBuild s) := by
  obtain ⟨c, op, h⟩ | ⟨f, -, h⟩ := firBuild_cases s <;> rw [h]
  · exact s.raise_blockWritesOnly c op
  · exact buildBlock_blockWritesOnly .fir s (firBlock_len s.params f)

theorem rpsiBuild_blockWritesOnly (s : State) : BlockWritesOnly s (rpsiBuild s) := by
  obtain ⟨c, op, h⟩ | ⟨m, -, h⟩ := rpsiBuild_cases s <;> rw [h]
  · exact s.raise_blockWritesOnly c op
  · exact buildBlock_blockWritesOnly .rpsi s (rpsiBlock_len s.params m)

theorem reserve_blockWritesOnly (n : Nat) (s : State) : BlockWritesOnly s (reserve n s) := by
  obtain ⟨-, h⟩ | ⟨-, h⟩ := reserve_cases n s <;> rw [h] <;> rfl

/-- Every operation writes only what the block may write. -/
theorem exec_blockWritesOnly {i : Instr} (h : exec i s = .next t) : BlockWritesOnly s t := by
  cases i with
  | rdbe8 | rdbe16 | rdbe24 | rdbe32 => exact runRead_blockWritesOnly h
  | wrbe8 | wrbe16 | wrbe24 | wrbe32 => exact runWrite_blockWritesOnly h
  | hdrParse base avail =>
    obtain ⟨c, op, rfl⟩ | rfl | ⟨x, -, -, -, -, rfl⟩ := execHdrParse_next h
    · exact s.raise_blockWritesOnly c op
    · rfl
    · rfl
  | dispatch =>
    obtain ⟨k, rfl⟩ | ⟨c, op, rfl⟩ := execDispatch_next h
    · rfl
    · exact s.raise_blockWritesOnly c op
  | hdrWr c f p n => cases h; exact (writeHeader_writesOnly s c f p n).blockWritesOnly
  | fbRd p =>
    obtain ⟨a, b, rfl⟩ | ⟨c, op, rfl⟩ := execFbRd_next h
    · rfl
    · exact s.raise_blockWritesOnly c op
  | fbWr c a b => cases h; exact (writeFeedback_writesOnly s c a b).blockWritesOnly
  | firParse =>
    obtain ⟨c, op, rfl⟩ | ⟨x, rfl⟩ | ⟨f, rfl⟩ := execFirParse_next h
    · exact s.raise_blockWritesOnly c op
    · rfl
    · rfl
  | firBuild => cases h; exact firBuild_blockWritesOnly s
  | rpsiParse =>
    obtain ⟨c, op, rfl⟩ | ⟨x, rfl⟩ | ⟨m, rfl⟩ := execRpsiParse_next h
    · exact s.raise_blockWritesOnly c op
    · rfl
    · rfl
  | rpsiBuild => cases h; exact rpsiBuild_blockWritesOnly s
  | bldReserve n => cases h; exact reserve_blockWritesOnly n s
  | bldCommit e => cases h; exact s.commit_blockWritesOnly e

/-! ## An answer of `K`, and a step -/

theorem resume_blockWritesOnly (b : Builder) (s : State) : BlockWritesOnly s (resume b s) := by
  cases b with
  | fir => exact firBuild_blockWritesOnly s
  | rpsi => exact rpsiBuild_blockWritesOnly s
  | reserve n => exact reserve_blockWritesOnly n s

theorem giveUp_blockWritesOnly (b : Builder) (s : State) : BlockWritesOnly s (giveUp b s) := by
  cases b <;> rfl

/-- What an answer of `K` changes beyond the adopting of it. -/
theorem kReturns_blockWritesOnly (k : Invocation) (a : KAnswer) (s : State) :
    BlockWritesOnly (s.adopt k a) (kReturns k a s) := by
  unfold kReturns
  split
  · exact resume_blockWritesOnly k.builder _
  · exact giveUp_blockWritesOnly k.builder _

@[simp] theorem kReturns_params (k : Invocation) (a : KAnswer) (s : State) :
    (kReturns k a s).params = s.params := (kReturns_blockWritesOnly k a s).params

theorem takeIdle_params {e : Event} (h : takeIdle e s = .done (.next t)) : t.params = s.params := by
  rcases takeIdle_next h with rfl | ⟨c, op, -, rfl⟩ | ⟨v, rfl⟩ | ⟨v, rfl⟩ | ⟨a, bs, -, rfl⟩ |
    ⟨a, bs, -, rfl⟩ | ⟨n, rfl⟩ | ⟨n, rfl⟩ | ⟨-, rfl⟩ | ⟨c, rfl⟩ <;> simp

theorem awaitK_params {k : Invocation} (h : awaitK k s = .next t) : t.params = s.params := by
  obtain ⟨inbox, rfl | ⟨a, -, -, rfl⟩ | ⟨a, bs, -, rfl⟩ | ⟨n, rfl⟩ | ⟨-, rfl⟩⟩ := awaitK_next h <;>
    simp

/-- No step changes the parameters. -/
theorem step_params (h : step s = .next t) : t.params = s.params := by
  obtain ⟨-, ⟨-, -, rfl⟩ | ⟨e, rest, -, -, ⟨-, i, -, hx⟩ | hd⟩ | ⟨k, -, hk⟩⟩ := step_next h
  · rfl
  · exact (exec_blockWritesOnly hx).params
  · exact takeIdle_params (s := { s with inbox := rest }) hd
  · exact awaitK_params hk

/-! ## Steps between operations -/

/-- A step that takes an event which asks for an operation runs it. -/
theorem step_of_takeIdle_run {u : State} {e : Event} {rest : List Event} {i : Instr}
    (hfd : FormatsDiffer s) (hp : s.phase = .idle) (hi : s.inbox = e :: rest)
    (h : takeIdle e { s with inbox := rest } = .run i u) : step s = exec i u := by
  simp only [step, fetch_idle hfd hp hi, h]

/-- With the latch clear, a record on the block's own port that decodes runs. -/
theorem takeMicro_run {r : OpRecord} {i : Instr} (hf : s.fatal = none) (hd : decodeMicro r = .ok i) :
    takeMicro r s = .run i s := by
  simp [takeMicro, State.fatalSet, hf, hd]

/-- One format for both messages stops every step before its event is looked at. -/
theorem fetch_ambiguous (h : s.params.firFmt = s.params.rpsiFmt) :
    fetch s = .done (.refused .ambiguousFormats) := if_pos h

/-- Settles O50: the operations write only what the block may write, and no event settled by the port
reaches the parameters. -/
theorem parametersNeverChange : Obligations.ParametersNeverChange := by
  unfold Obligations.ParametersNeverChange
  exact fun _ _ h => step_params h

/-- Settles O36: the event is taken by the block's own port, which runs what it decodes to. -/
theorem stepRunsMicroOperation : Obligations.StepRunsMicroOperation := by
  unfold Obligations.StepRunsMicroOperation
  intro s r i rest hfd hp hf hi hd
  exact step_of_takeIdle_run hfd hp hi (takeMicro_run hf hd)

/-- Settles O46: the test of the configuration comes first. -/
theorem ambiguousConfigurationRefused : Obligations.AmbiguousConfigurationRefused := by
  unfold Obligations.AmbiguousConfigurationRefused
  intro s h
  simp only [step, fetch_ambiguous h]

end Sys2Proof.Machine

/-! PROOFS. Which state each operation may change (10_state.md R31), what keeps the fatal latch, and the
invariant of a run. -/

namespace Sys2Proof.Machine

variable {s t : State}

/-! ## The frame of each operation -/

/-- From `s` to `t` nothing changed but what the operation `i` may write. -/
def Frame (i : Instr) (s t : State) : Prop :=
  match i with
  | .rdbe8 _ | .rdbe16 _ | .rdbe24 _ | .rdbe32 _ | .fbRd _ | .bldCommit _ =>
    t = { s with result := t.result, fatal := t.fatal }
  | .wrbe8 _ _ | .wrbe16 _ _ | .wrbe24 _ _ | .wrbe32 _ _ | .hdrWr _ _ _ _ | .fbWr _ _ _ =>
    t = { s with tx := t.tx, fatal := t.fatal }
  | .dispatch => t = { s with result := t.result, status := t.status, fatal := t.fatal }
  | .hdrParse _ _ => t = { s with hdr := t.hdr, status := t.status, fatal := t.fatal }
  | .firParse => t = { s with fir := t.fir, status := t.status, fatal := t.fatal }
  | .rpsiParse => t = { s with rpsi := t.rpsi, status := t.status, fatal := t.fatal }
  | .firBuild | .rpsiBuild =>
    t = { s with
      tx := t.tx, cur := t.cur, status := t.status, fatal := t.fatal, phase := t.phase }
  | .bldReserve _ => t = { s with result := t.result, phase := t.phase }

/-- A fatal assertion is inside the frame of every operation but `BLD.RESERVE`, which raises none. -/
theorem State.raise_frame {i : Instr} (hi : ∀ n, i ≠ .bldReserve n) (s : State) (c : FatalCause)
    (op : BitVec 8) : Frame i s (s.raise c op) := by
  cases i with
  | bldReserve n => exact absurd rfl (hi n)
  | _ => simp only [Frame]; rw [State.raise_eta]

theorem runRead_frame {w : Width} {a : Nat} (h : runRead w a s = .next t) :
    t = { s with result := t.result, fatal := t.fatal } := by
  obtain ⟨v, rfl⟩ | ⟨c, op, rfl⟩ := runRead_next h
  · rfl
  · rw [State.raise_eta]

theorem runWrite_frame {w : Width} {a v : Nat} (h : runWrite w a v s = .next t) :
    t = { s with tx := t.tx, fatal := t.fatal } := by
  cases h
  exact (writeBE_writesOnly s w a v).1

theorem buildBlock_frame (b : Builder) (s : State) {j : Job} (hj : piecesLen j.pieces = j.blockLen) :
    buildBlock b s j = { s with
      tx := (buildBlock b s j).tx, cur := (buildBlock b s j).cur,
      status := (buildBlock b s j).status, fatal := (buildBlock b s j).fatal,
      phase := (buildBlock b s j).phase } := by
  rcases Nat.lt_or_ge s.maxlen (s.cur + j.blockLen) with h | h
  · rw [buildBlock_noRoom h]; rfl
  · rw [buildBlock_room h]
    obtain ⟨hw, -⟩ := writeBlock_spec s j hj
    rw [hw]

/-- Every operation keeps to its frame. -/
theorem exec_frame {i : Instr} (h : exec i s = .next t) : Frame i s t := by
  cases i with
  | rdbe8 | rdbe16 | rdbe24 | rdbe32 => exact runRead_frame h
  | wrbe8 | wrbe16 | wrbe24 | wrbe32 => exact runWrite_frame h
  | hdrWr c f p n => cases h; exact (writeHeader_writesOnly s c f p n).1
  | fbWr c a b => cases h; exact (writeFeedback_writesOnly s c a b).1
  | fbRd p =>
    obtain ⟨a, b, rfl⟩ | ⟨c, op, rfl⟩ := execFbRd_next h
    · rfl
    · exact s.raise_frame (by simp) c op
  | bldCommit e =>
    cases h
    unfold State.commit
    split
    · rfl
    · exact s.raise_frame (by simp) _ _
  | dispatch =>
    obtain ⟨k, rfl⟩ | ⟨c, op, rfl⟩ := execDispatch_next h
    · rfl
    · exact s.raise_frame (by simp) c op
  | hdrParse base avail =>
    obtain ⟨c, op, rfl⟩ | rfl | ⟨x, -, -, -, -, rfl⟩ := execHdrParse_next h
    · exact s.raise_frame (by simp) c op
    · rfl
    · rfl
  | firParse =>
    obtain ⟨c, op, rfl⟩ | ⟨x, rfl⟩ | ⟨f, rfl⟩ := execFirParse_next h
    · exact s.raise_frame (by simp) c op
    · rfl
    · rfl
  | rpsiParse =>
    obtain ⟨c, op, rfl⟩ | ⟨x, rfl⟩ | ⟨m, rfl⟩ := execRpsiParse_next h
    · exact s.raise_frame (by simp) c op
    · rfl
    · rfl
  | firBuild =>
    cases h
    obtain ⟨c, op, h⟩ | ⟨f, -, h⟩ := firBuild_cases s <;> rw [h]
    · exact s.raise_frame (by simp) c op
    · exact buildBlock_frame .fir s (firBlock_len s.params f)
  | rpsiBuild =>
    cases h
    obtain ⟨c, op, h⟩ | ⟨m, -, h⟩ := rpsiBuild_cases s <;> rw [h]
    · exact s.raise_frame (by simp) c op
    · exact buildBlock_frame .rpsi s (rpsiBlock_len s.params m)
  | bldReserve n =>
    cases h
    obtain ⟨-, h⟩ | ⟨-, h⟩ := reserve_cases n s <;> rw [h] <;> rfl

/-- Settles O51: each operation's frame names the registers it may write. -/
theorem eachRegisterHasItsWriters : Obligations.EachRegisterHasItsWriters := by
  unfold Obligations.EachRegisterHasItsWriters
  intro i s t h
  have hf := exec_frame h
  cases i <;> rw [show t = _ from hf] <;> simp [Instr.hostIssuable]

/-! ## Which operations come to wait for `K` -/

/-- `t` is `s` with `K` invoked by an operation that may go on and whose block does not fit
(45_builder.md R160). -/
def ComesToWait (s t : State) : Prop :=
  ∃ b n, t = s.callK b ∧ waitsFor s b = some n ∧ s.maxlen < s.cur + n

theorem waitsFor_fir {f : Fir} (h : FirReady s f) :
    waitsFor s .fir = some (firBlockLen f.reqs.length) := by
  obtain ⟨hf, hn⟩ := h
  simp only [waitsFor, hf, if_pos hn, firBlockLen]

theorem waitsFor_rpsi {m : Rpsi} (h : RpsiReady s m) :
    waitsFor s .rpsi = some (rpsiBlockLen m.pictureId.toNat) := by
  simp only [waitsFor, show s.rpsi = some m from h, Option.map_some, rpsiBlockLen]

/-- A build that reaches its space test ends between operations or comes to wait. -/
theorem buildBlock_phase {b : Builder} {j : Job} (hj : piecesLen j.pieces = j.blockLen)
    (hb : waitsFor s b = some j.blockLen) :
    (buildBlock b s j).phase = s.phase ∨ ComesToWait s (buildBlock b s j) := by
  rcases Nat.lt_or_ge s.maxlen (s.cur + j.blockLen) with h | h
  · exact .inr ⟨b, j.blockLen, buildBlock_noRoom h, hb, h⟩
  · rw [buildBlock_room h]
    obtain ⟨hw, -⟩ := writeBlock_spec s j hj
    exact .inl (by rw [hw])

/-- Only the three operations that test the space can leave the phase they start in. -/
theorem exec_phase {i : Instr} (h : exec i s = .next t) : t.phase = s.phase ∨ ComesToWait s t := by
  have hfr := exec_frame h
  cases i with
  | firBuild =>
    cases h
    obtain ⟨c, op, h⟩ | ⟨f, hr, h⟩ := firBuild_cases s <;> rw [h]
    · exact .inl (s.raise_phase c op)
    · exact buildBlock_phase (firBlock_len s.params f) (waitsFor_fir hr)
  | rpsiBuild =>
    cases h
    obtain ⟨c, op, h⟩ | ⟨m, hr, h⟩ := rpsiBuild_cases s <;> rw [h]
    · exact .inl (s.raise_phase c op)
    · exact buildBlock_phase (rpsiBlock_len s.params m) (waitsFor_rpsi hr)
  | bldReserve n =>
    cases h
    obtain ⟨-, h⟩ | ⟨hn, h⟩ := reserve_cases n s
    · exact .inl (by rw [h])
    · exact .inr ⟨.reserve n, n, h, rfl, hn⟩
  | _ => exact .inl (by rw [show t = _ from hfr])

/-! ## The invariant, part by part -/

/-- The canonical form depends on the two memories and their sizes alone. -/
theorem MemoriesCanonical.congr (h : MemoriesCanonical s) (hp : t.params = s.params)
    (hr : t.rx = s.rx) (ht : t.tx = s.tx) : MemoriesCanonical t := by
  simpa only [MemoriesCanonical, hp, hr, ht] using h

/-- A sequence of writes keeps the canonical form of TX. -/
theorem WritesOnly.memoriesCanonical {lo hi : Nat} {r : Flow} (hw : WritesOnly s lo hi r)
    (h : MemoriesCanonical s) : MemoriesCanonical r.state := by
  obtain ⟨hs, -, -, -, hwf, hin⟩ := hw
  obtain ⟨hrx, hrxin, htx, htxin⟩ := h
  rw [hs]
  exact ⟨hrx, hrxin, hwf htx, hin htxin⟩

theorem buildBlock_memoriesCanonical (b : Builder) {j : Job}
    (hj : piecesLen j.pieces = j.blockLen) (h : MemoriesCanonical s) :
    MemoriesCanonical (buildBlock b s j) := by
  rcases Nat.lt_or_ge s.maxlen (s.cur + j.blockLen) with hn | hn
  · rw [buildBlock_noRoom hn]; exact h
  · rw [buildBlock_room hn]
    obtain ⟨hs, -, -, hwf, hin⟩ := writeBlock_spec s j hj
    obtain ⟨hrx, hrxin, htx, htxin⟩ := h
    rw [hs]
    exact ⟨hrx, hrxin, hwf htx, hin htxin⟩

/-- An operation keeps the canonical form: RX it never writes, TX it writes by bytes inside it. -/
theorem exec_memoriesCanonical {i : Instr} (h : exec i s = .next t) (hm : MemoriesCanonical s) :
    MemoriesCanonical t := by
  obtain ⟨hrx, -, hp, -, -, -, -, -, -, -, -, htx⟩ := eachRegisterHasItsWriters i s t h
  by_cases heq : t.tx = s.tx
  · exact hm.congr hp hrx heq
  · obtain ⟨a, v, rfl⟩ | ⟨a, v, rfl⟩ | ⟨a, v, rfl⟩ | ⟨a, v, rfl⟩ | ⟨c, f, p, n, rfl⟩ |
      ⟨c, a, b, rfl⟩ | rfl | rfl := htx heq <;> cases h
    · exact (writeBE_writesOnly s .w1 a _).memoriesCanonical hm
    · exact (writeBE_writesOnly s .w2 a _).memoriesCanonical hm
    · exact (writeBE_writesOnly s .w3 a _).memoriesCanonical hm
    · exact (writeBE_writesOnly s .w4 a _).memoriesCanonical hm
    · exact (writeHeader_writesOnly s c f p n).memoriesCanonical hm
    · exact (writeFeedback_writesOnly s c a b).memoriesCanonical hm
    · obtain ⟨c, op, h⟩ | ⟨f, -, h⟩ := firBuild_cases s <;> rw [h]
      · exact hm.congr (by simp) (by simp) (by simp)
      · exact buildBlock_memoriesCanonical .fir (firBlock_len s.params f) hm
    · obtain ⟨c, op, h⟩ | ⟨m, -, h⟩ := rpsiBuild_cases s <;> rw [h]
      · exact hm.congr (by simp) (by simp) (by simp)
      · exact buildBlock_memoriesCanonical .rpsi (rpsiBlock_len s.params m) hm

theorem HeaderInRx.congr (h : HeaderInRx s) (hp : t.params = s.params) (hh : t.hdr = s.hdr) :
    HeaderInRx t := by
  simpa only [HeaderInRx, hp, hh] using h

/-- An invalid header is no claim on RX. -/
theorem headerInRx_of_none (h : t.hdr = none) : HeaderInRx t := by
  intro x hx
  rw [h] at hx
  cases hx

theorem readHeader_base {base : Nat} {x : Hdr} (h : readHeader s base = .ok x) : x.base = base := by
  obtain ⟨-, b0, b1, b2, b3, -, rfl⟩ := readHeader_ok h
  rfl

/-- Only `HDR.PARSE` makes a header valid, and it tests version and window first (41_header.md R110). -/
theorem exec_headerInRx {i : Instr} (h : exec i s = .next t) (hh : HeaderInRx s) : HeaderInRx t := by
  obtain ⟨-, -, hp, -, -, -, hhdr, -⟩ := eachRegisterHasItsWriters i s t h
  by_cases heq : t.hdr = s.hdr
  · exact hh.congr hp heq
  · obtain ⟨base, avail, rfl⟩ := hhdr heq
    obtain ⟨c, op, rfl⟩ | rfl | ⟨x, hx, hv, hsize, hin, rfl⟩ := execHdrParse_next h
    · exact absurd (s.raise_hdr c op) heq
    · exact headerInRx_of_none rfl
    · intro y hy
      cases hy
      have hb : x.base = base := readHeader_base hx
      exact ⟨hv, show x.base + x.blockSize ≤ s.params.rxSize by omega⟩

theorem waitingSound_of_idle (h : t.phase = .idle) : WaitingSound t := by
  intro k hk
  rw [h] at hk
  cases hk

/-- The invocation by which an operation comes to wait is sound, with the latch clear. -/
theorem ComesToWait.waitingSound (h : ComesToWait s t) (hf : s.fatal = none)
    (hm : MemoriesCanonical s) : WaitingSound t := by
  obtain ⟨b, n, rfl, hn, hroom⟩ := h
  obtain ⟨-, -, htx, -⟩ := hm
  intro k hk
  cases hk
  exact ⟨hf, Memory.wf_below htx _, Memory.within_below _ _, n,
    (waitsFor_congr b rfl rfl).trans hn, hroom⟩

/-! ## The invariant through a step -/

/-- An operation that starts between operations with the latch clear keeps the invariant. -/
theorem exec_inv {i : Instr} (hi : Inv s) (hp : s.phase = .idle) (hf : s.fatal = none)
    (h : exec i s = .next t) : Inv t := by
  obtain ⟨hm, hh, -⟩ := hi
  refine ⟨exec_memoriesCanonical h hm, exec_headerInRx h hh, ?_⟩
  obtain hph | hw := exec_phase h
  · exact waitingSound_of_idle (hph.trans hp)
  · exact hw.waitingSound hf hm

/-- The operation that waits. -/
def Builder.instr : Builder → Instr
  | .fir => .firBuild
  | .rpsi => .rpsiBuild
  | .reserve n => .bldReserve n

/-- After `K` has answered success the waiting operation runs again (45_builder.md R160; log 11). -/
theorem exec_builder_instr (b : Builder) (s : State) : exec b.instr s = .next (resume b s) := by
  cases b <;> rfl

theorem adopt_inv {k : Invocation} {a : KAnswer} (hi : Inv s) (hw : WritesInTx s a) :
    Inv (s.adopt k a) := by
  obtain ⟨⟨hrx, hrxin, htx, htxin⟩, hh, -⟩ := hi
  exact ⟨⟨hrx, hrxin, Memory.wf_putCells htx _, Memory.within_putCells htxin _ hw⟩, hh,
    waitingSound_of_idle rfl⟩

theorem giveUp_inv (b : Builder) (hi : Inv s) : Inv (giveUp b s) := by
  cases b <;> exact hi

/-- An answer of `K` to a sound invocation: the latch is clear, so the waiting operation starts again as
one that starts between operations. -/
theorem kReturns_inv {k : Invocation} {a : KAnswer} (hi : Inv s) (hp : s.phase = .inK k)
    (hw : WritesInTx s a) : Inv (kReturns k a s) := by
  have ha : Inv (s.adopt k a) := adopt_inv hi hw
  unfold kReturns
  split
  · obtain ⟨-, -, hwait⟩ := hi
    obtain ⟨hf, -⟩ := hwait k hp
    exact exec_inv ha rfl hf (exec_builder_instr k.builder _)
  · exact giveUp_inv k.builder ha

/-- A write of TX, by the host or by `K`. -/
theorem putTx_inv (hi : Inv s) (a : Nat) (bs : List Byte) (h : a + bs.length ≤ s.params.txSize) :
    Inv { s with tx := s.tx.putBytes a bs } := by
  obtain ⟨⟨hrx, hrxin, htx, htxin⟩, hh, hw⟩ := hi
  exact ⟨⟨hrx, hrxin, Memory.wf_putBytes htx _ _, Memory.within_putBytes htxin _ _ h⟩, hh, hw⟩

theorem hostSetCur_inv (hi : Inv s) (n : Nat) : Inv (hostSetCur n s) := hi

theorem hostReset_inv (hi : Inv s) : Inv s.hostReset := by
  obtain ⟨hm, -, -⟩ := hi
  exact ⟨hm, headerInRx_of_none rfl, waitingSound_of_idle rfl⟩

/-- An event settled between operations keeps the invariant. -/
theorem takeIdle_inv {e : Event} (hi : Inv s) (hp : s.phase = .idle)
    (h : takeIdle e s = .done (.next t)) : Inv t := by
  have ⟨hm, hh, hw⟩ := hi
  rcases takeIdle_next h with rfl | ⟨c, op, -, rfl⟩ | ⟨v, rfl⟩ | ⟨v, rfl⟩ | ⟨a, bs, hin, rfl⟩ |
    ⟨a, bs, hin, rfl⟩ | ⟨n, rfl⟩ | ⟨n, rfl⟩ | ⟨-, rfl⟩ | ⟨c, rfl⟩
  · exact hi
  · exact ⟨hm.congr (by simp) (by simp) (by simp), hh.congr (by simp) (by simp),
      waitingSound_of_idle (by simpa using hp)⟩
  · exact ⟨hm, hh, waitingSound_of_idle hp⟩
  · exact ⟨hm, hh, waitingSound_of_idle hp⟩
  · obtain ⟨hrx, hrxin, htx⟩ := hm
    exact ⟨⟨Memory.wf_putBytes hrx _ _, Memory.within_putBytes hrxin _ _ hin, htx⟩, hh, hw⟩
  · exact putTx_inv hi a bs hin
  · exact hostSetCur_inv hi n
  · exact ⟨hm, hh, waitingSound_of_idle hp⟩
  · exact hostReset_inv hi
  · exact hi

/-- A step while `K` is invoked keeps the invariant. -/
theorem awaitK_inv {k : Invocation} (hi : Inv s) (hp : s.phase = .inK k)
    (h : awaitK k s = .next t) : Inv t := by
  obtain ⟨inbox, h⟩ := awaitK_next h
  have hi' : Inv { s with inbox := inbox } := hi
  obtain rfl | ⟨a, -, hw, rfl⟩ | ⟨a, bs, hin, rfl⟩ | ⟨n, rfl⟩ | ⟨-, rfl⟩ := h
  · exact hi'
  · exact kReturns_inv hi' hp hw
  · exact putTx_inv hi' a bs hin
  · exact hostSetCur_inv hi' n
  · exact hostReset_inv hi'

theorem step_inv (hi : Inv s) (h : step s = .next t) : Inv t := by
  obtain ⟨-, ⟨-, -, rfl⟩ | ⟨e, rest, -, hp, h⟩ | ⟨k, hp, hk⟩⟩ := step_next h
  · exact hi
  · have hi' : Inv { s with inbox := rest } := hi
    obtain ⟨hf, i, -, hx⟩ | hd := h
    · exact exec_inv hi' hp hf hx
    · exact takeIdle_inv hi' hp hd
  · exact awaitK_inv hi hp hk

/-- Settles O49: memories, header and waiting operation, each through every way a step can go. -/
theorem stepKeepsInv : Obligations.StepKeepsInv := by
  unfold Obligations.StepKeepsInv
  exact fun _ _ hi h => step_inv hi h

/-- Settles O48: empty memories, no header, no operation. -/
theorem invHoldsAtReset : Obligations.InvHoldsAtReset := by
  unfold Obligations.InvHoldsAtReset
  exact ⟨⟨rfl, rfl, rfl, rfl⟩, headerInRx_of_none rfl, waitingSound_of_idle rfl⟩

/-! ## The latch keeps its first record -/

/-- What the latch holds in `s` it holds in `t`. -/
def KeepsLatch (s t : State) : Prop := ∀ r, s.fatal = some r → t.fatal = some r

theorem KeepsLatch.of_eq (h : t.fatal = s.fatal) : KeepsLatch s t := fun _ hr => h.trans hr

theorem KeepsLatch.trans {u : State} (h : KeepsLatch s t) (h' : KeepsLatch t u) : KeepsLatch s u :=
  fun r hr => h' r (h r hr)

/-- A second assertion is not recorded (60_exceptions.md R176). -/
theorem State.raise_keepsLatch (s : State) (c : FatalCause) (op : BitVec 8) :
    KeepsLatch s (s.raise c op) := by
  intro r hr
  rw [State.raise_fatal, hr, Option.getD_some]

theorem Flow.andThen_keepsLatch {r : Flow} {k : State → Flow} (h : KeepsLatch s r.state)
    (hk : ∀ t, KeepsLatch t (k t).state) : KeepsLatch s (r.andThen k).state := by
  cases r with
  | ended t => exact h
  | on t => exact h.trans (hk t)

theorem writeBE_keepsLatch (s : State) (w : Width) (a v : Nat) :
    KeepsLatch s (writeBE s w a v).state := by
  unfold writeBE
  split
  · exact .of_eq rfl
  · exact s.raise_keepsLatch _ _

theorem Piece.write_keepsLatch (p : Piece) (s : State) (c : Nat) :
    KeepsLatch s (p.write s c).state := by
  cases p with
  | header f t n =>
    exact Flow.andThen_keepsLatch (writeBE_keepsLatch s _ _ _) fun u =>
      Flow.andThen_keepsLatch (writeBE_keepsLatch u _ _ _) fun v => writeBE_keepsLatch v _ _ _
  | feedback a b =>
    exact Flow.andThen_keepsLatch (writeBE_keepsLatch s _ _ _) fun u => writeBE_keepsLatch u _ _ _
  | be w v => exact writeBE_keepsLatch s w c v

theorem emit_keepsLatch (ps : List Piece) (s : State) : KeepsLatch s (emit s ps).state := by
  induction ps generalizing s with
  | nil => exact .of_eq rfl
  | cons p ps ih =>
    have hp := p.write_keepsLatch s s.cur
    simp only [emit]
    cases hw : p.write s s.cur with
    | ended t => rw [hw] at hp; exact hp
    | on t => rw [hw] at hp; exact hp.trans (ih { t with cur := t.cur + p.size })

theorem State.commit_keepsLatch (s : State) (endOff : Nat) : KeepsLatch s (s.commit endOff).state := by
  unfold State.commit
  split
  · exact .of_eq rfl
  · exact s.raise_keepsLatch _ _

theorem writeBlock_keepsLatch (s : State) (j : Job) : KeepsLatch s (writeBlock s j) := by
  have h : KeepsLatch s ((emit s j.pieces).andThen fun t => t.commit (s.cur + j.blockLen)).state :=
    Flow.andThen_keepsLatch (emit_keepsLatch j.pieces s) fun t => t.commit_keepsLatch _
  unfold writeBlock
  split
  · next t ht => rw [ht] at h; exact h.trans (.of_eq rfl)
  · next t ht => rw [ht] at h; exact h

theorem buildBlock_keepsLatch (b : Builder) (s : State) (j : Job) :
    KeepsLatch s (buildBlock b s j) := by
  unfold buildBlock
  split
  · exact writeBlock_keepsLatch s j
  · exact .of_eq rfl

theorem resume_keepsLatch (b : Builder) (s : State) : KeepsLatch s (resume b s) := by
  cases b with
  | fir =>
    obtain ⟨c, op, h⟩ | ⟨f, -, h⟩ := firBuild_cases s <;> simp only [resume, h]
    · exact s.raise_keepsLatch c op
    · exact buildBlock_keepsLatch .fir s _
  | rpsi =>
    obtain ⟨c, op, h⟩ | ⟨m, -, h⟩ := rpsiBuild_cases s <;> simp only [resume, h]
    · exact s.raise_keepsLatch c op
    · exact buildBlock_keepsLatch .rpsi s _
  | reserve n =>
    obtain ⟨-, h⟩ | ⟨-, h⟩ := reserve_cases n s <;> simp only [resume, h]
    · exact .of_eq rfl
    · exact .of_eq rfl

theorem giveUp_keepsLatch (b : Builder) (s : State) : KeepsLatch s (giveUp b s) := by
  cases b <;> exact .of_eq rfl

theorem kReturns_keepsLatch (k : Invocation) (a : KAnswer) (s : State) :
    KeepsLatch s (kReturns k a s) := by
  have h : KeepsLatch s (s.adopt k a) := .of_eq (s.adopt_fatal k a)
  unfold kReturns
  split
  · exact h.trans (resume_keepsLatch k.builder _)
  · exact h.trans (giveUp_keepsLatch k.builder _)

/-- An event settled between operations keeps the latch unless it is reset. -/
theorem takeIdle_keepsLatch {e : Event} (h : takeIdle e s = .done (.next t)) :
    KeepsLatch s t ∨ e = .reset := by
  rcases takeIdle_next h with rfl | ⟨c, op, -, rfl⟩ | ⟨v, rfl⟩ | ⟨v, rfl⟩ | ⟨a, bs, -, rfl⟩ |
    ⟨a, bs, -, rfl⟩ | ⟨n, rfl⟩ | ⟨n, rfl⟩ | ⟨rfl, -⟩ | ⟨c, rfl⟩
  · exact .inl (.of_eq rfl)
  · exact .inl (s.raise_keepsLatch c op)
  · exact .inl (.of_eq rfl)
  · exact .inl (.of_eq rfl)
  · exact .inl (.of_eq rfl)
  · exact .inl (.of_eq rfl)
  · exact .inl (.of_eq rfl)
  · exact .inl (.of_eq rfl)
  · exact .inr rfl
  · exact .inl (.of_eq rfl)

/-- A step while `K` is invoked keeps the latch unless it takes reset. -/
theorem awaitK_keepsLatch {k : Invocation} (h : awaitK k s = .next t) :
    KeepsLatch s t ∨ ∃ rest, s.inbox = .reset :: rest := by
  obtain ⟨inbox, rfl | ⟨a, -, -, rfl⟩ | ⟨a, bs, -, rfl⟩ | ⟨n, rfl⟩ | ⟨hi, -⟩⟩ := awaitK_next h
  · exact .inl (.of_eq rfl)
  · exact .inl (kReturns_keepsLatch k a { s with inbox := inbox })
  · exact .inl (.of_eq rfl)
  · exact .inl (.of_eq rfl)
  · exact .inr ⟨inbox, hi⟩

/-- Settles O39: with the latch set no operation starts, and what waits for `K` keeps the latch. -/
theorem onlyResetClearsFatal : Obligations.OnlyResetClearsFatal := by
  unfold Obligations.OnlyResetClearsFatal
  intro s t r hr h
  obtain ⟨-, ⟨-, -, rfl⟩ | ⟨e, rest, hi, -, ⟨hf, -⟩ | hd⟩ | ⟨k, -, hk⟩⟩ := step_next h
  · exact .inl hr
  · rw [hr] at hf; cases hf
  · obtain hk | rfl := takeIdle_keepsLatch hd
    · exact .inl (hk r hr)
    · exact .inr ⟨rest, hi⟩
  · exact (awaitK_keepsLatch hk).imp_left fun hk => hk r hr

end Sys2Proof.Machine

/-! PROOFS. The host's port: what reset leaves, and the host's reads and writes of 10_state.md R31 between
operations and while `K` is invoked. -/

namespace Sys2Proof.Machine

variable {s : State}

/-! ## The step that settles one event -/

/-- A step that takes an event settled between operations. -/
theorem step_of_takeIdle_done {e : Event} {rest : List Event} {o : Host.Outcome State Fault Refusal}
    (hfd : FormatsDiffer s) (hp : s.phase = .idle) (hi : s.inbox = e :: rest)
    (h : takeIdle e { s with inbox := rest } = .done o) : step s = o := by
  simp only [step, fetch_idle hfd hp hi, h]

/-- A step that takes an event treated alike between operations and inside `K`, no continuation installed. -/
theorem step_of_event {e : Event} {rest : List Event} {o : Host.Outcome State Fault Refusal}
    (hfd : FormatsDiffer s) (hp : s.phase = .idle ∨ s.installed = none) (hi : s.inbox = e :: rest)
    (he : ∀ a, e ≠ .kReturn a) (hidle : takeIdle e { s with inbox := rest } = .done o)
    (hinK : ∀ k, takeInK k e { s with inbox := rest } = o) : step s = o := by
  cases hph : s.phase with
  | idle => exact step_of_takeIdle_done hfd hph hi hidle
  | inK k =>
    have hc : s.installed = none := hp.resolve_left (by simp [hph])
    rw [step_event hfd hph (kAnswer?_none hc (by simp [hi, he])) hi, hinK]

/-! ## Writes of the two memories -/

theorem hostWriteRx_inside {a : Nat} {bytes : List Byte} (h : a + bytes.length ≤ s.params.rxSize) :
    hostWriteRx a bytes s = .next { s with rx := s.rx.putBytes a bytes } := if_pos h

theorem hostWriteRx_outside {a : Nat} {bytes : List Byte} (h : s.params.rxSize < a + bytes.length) :
    hostWriteRx a bytes s = .refused .outsideMemory := if_neg (Nat.not_le.2 h)

theorem hostWriteTx_inside {a : Nat} {bytes : List Byte} (h : a + bytes.length ≤ s.params.txSize) :
    hostWriteTx a bytes s = .next { s with tx := s.tx.putBytes a bytes } := if_pos h

theorem hostWriteTx_outside {a : Nat} {bytes : List Byte} (h : s.params.txSize < a + bytes.length) :
    hostWriteTx a bytes s = .refused .outsideMemory := if_neg (Nat.not_le.2 h)

theorem Memory.stored_putBytes (m : Memory) (a : Nat) (bs : List Byte) :
    Stored m (m.putBytes a bs) a bs :=
  ⟨m.holdsBytes_putBytes a bs, fun _ hx => m.byte?_putBytes_outside a bs hx⟩

/-! ## Reads -/

theorem readableInK_iff (v : HostView) :
    readableInK v = true ↔ v ∈ [.status, .fatal, .rx, .tx, .cur, .maxlen] := by
  cases v <;> decide

theorem not_readableInK_iff (v : HostView) :
    readableInK v = false ↔ v ∈ [.hdr, .fir, .rpsi] := by
  cases v <;> decide

/-- What may be read inside `K` has no tag, so the read is never refused. -/
theorem hostRead_of_readableInK {v : HostView} (h : readableInK v = true) (s : State) :
    hostRead v s = .next s := by
  cases v with
  | hdr | fir | rpsi => cases h
  | status | fatal | rx | tx | cur | maxlen => rfl

/-! ## The obligations -/

/-- Settles O41, by evaluation of the state at reset. -/
theorem resetValues : Obligations.ResetValues := by
  unfold Obligations.ResetValues
  exact ⟨rfl, rfl, rfl, rfl, rfl, rfl, Memory.byte?_nil, Memory.byte?_nil, rfl, rfl⟩

/-- Settles O42: each event is settled by the port, a read by the tag of its register. -/
theorem hostWritesAndReadsRegisters : Obligations.HostWritesAndReadsRegisters := by
  unfold Obligations.HostWritesAndReadsRegisters
  intro s rest hfd hp
  refine ⟨fun v hi => ?_, fun v hi => ?_, fun hi hn => ?_, fun hi hn => ?_, fun hi hn => ?_,
    fun f hi hf => ?_⟩
  · exact step_of_takeIdle_done hfd hp hi rfl
  · exact step_of_takeIdle_done hfd hp hi rfl
  · exact step_of_takeIdle_done hfd hp hi (by simp [takeIdle, hostRead, hn])
  · exact step_of_takeIdle_done hfd hp hi (by simp [takeIdle, hostRead, hn])
  · exact step_of_takeIdle_done hfd hp hi (by simp [takeIdle, hostRead, hn])
  · exact step_of_takeIdle_done hfd hp hi (by simp [takeIdle, hostRead, hf])

/-- Settles O44: with none installed the read is taken while `K` is invoked, and `readableInK` decides. -/
theorem hostReadsInsideK : Obligations.HostReadsInsideK := by
  unfold Obligations.HostReadsInsideK
  intro s k v rest hfd hp hc hi
  have hs : step s = takeInK k (.read v) { s with inbox := rest } :=
    step_event hfd hp (kAnswer?_none hc (by simp [hi])) hi
  refine ⟨fun hv => ?_, fun hv => ?_⟩ <;> rw [hs, takeInK]
  · have hr := (readableInK_iff v).2 hv
    rw [if_pos hr, hostRead_of_readableInK hr]
  · rw [if_neg (by simp [(not_readableInK_iff v).2 hv])]

/-- Settles O45: the port settles each write, and one of TX or `CUR` alike in both phases. -/
theorem hostWritesBuffers : Obligations.HostWritesBuffers := by
  unfold Obligations.HostWritesBuffers
  intro s a n bytes rest hfd
  refine ⟨fun hp hi hin => ?_, fun hp hi hout => ?_, fun hp hi => ?_, fun c hp hi => ?_,
    fun hp => ⟨fun hi hin => ?_, fun hi hout => ?_, fun hi => ?_⟩, fun k answer hp ha hw => ?_⟩
  · exact ⟨_, (step_of_takeIdle_done hfd hp hi rfl).trans (hostWriteRx_inside hin),
      s.rx.stored_putBytes a bytes⟩
  · exact (step_of_takeIdle_done hfd hp hi rfl).trans (hostWriteRx_outside hout)
  · exact step_of_takeIdle_done hfd hp hi rfl
  · exact step_of_takeIdle_done hfd hp hi rfl
  · exact ⟨_, (step_of_event hfd hp hi nofun rfl fun _ => rfl).trans (hostWriteTx_inside hin),
      s.tx.stored_putBytes a bytes⟩
  · exact (step_of_event hfd hp hi nofun rfl fun _ => rfl).trans (hostWriteTx_outside hout)
  · exact step_of_event hfd hp hi nofun rfl fun _ => rfl
  · exact (step_answer hfd hp ha).trans (answerK_outside hw)

end Sys2Proof.Machine

/-! PROOFS. The frames of 20_memory.md: what the reading operations (R55) and the builds (R57) leave alone. -/

namespace Sys2Proof.Machine

variable {s t : State}

/-! ## The operations that only read -/

theorem State.commit_frame (s : State) (endOff : Nat) :
    (s.commit endOff).state = { s with fatal := (s.commit endOff).state.fatal } := by
  unfold State.commit
  split
  · rfl
  · exact s.raise_only _ _

/-- Settles O52: each reading operation keeps to its frame, and `BLD.COMMIT` returns no result. -/
theorem readingFrame : Obligations.ReadingFrame := by
  unfold Obligations.ReadingFrame
  intro s t i h
  have hf := exec_frame h
  refine ⟨?_, ?_, ?_⟩
  · rintro ⟨a, rfl | rfl | rfl | rfl | rfl⟩ <;> exact hf
  · rintro rfl
    exact hf
  · rintro e rfl
    cases h
    exact s.commit_frame e

/-! ## The builds -/

/-- What a build from `s` to `t` leaves alone, `len` being the length of its block where its register is
valid: TX outside the block, TX where there is no block or the build raises within the host's duty
`MAXLEN <= TX_SIZE` (20_memory.md R56, R57), and TX, `CUR` and `STATUS` where it invokes `K`. -/
def BuildKeeps (s t : State) (len : Option Nat) : Prop :=
  (∀ n x, len = some n → x < s.cur ∨ s.cur + n ≤ x → t.tx.byte? x = s.tx.byte? x) ∧
    (len = none ∨ s.maxlen ≤ s.params.txSize ∧ t.fatal ≠ s.fatal → t.tx = s.tx) ∧
    (t.phase ≠ s.phase → t.tx = s.tx ∧ t.cur = s.cur ∧ t.status = s.status)

/-- An assertion raised before the space test leaves all of TX alone, whatever block was meant. -/
theorem State.raise_buildKeeps (s : State) (c : FatalCause) (op : BitVec 8) (len : Option Nat) :
    BuildKeeps s (s.raise c op) len := by
  simp [BuildKeeps]

theorem State.callK_buildKeeps (s : State) (b : Builder) (len : Option Nat) :
    BuildKeeps s (s.callK b) len :=
  ⟨fun _ _ _ _ => rfl, fun _ => rfl, fun _ => ⟨rfl, rfl, rfl⟩⟩

/-- Within the duty `MAXLEN <= TX_SIZE` a block that fits lies inside TX, and writing it raises nothing. -/
theorem writeBlock_buildKeeps {j : Job} (hj : piecesLen j.pieces = j.blockLen)
    (hroom : s.cur + j.blockLen ≤ s.maxlen) : BuildKeeps s (writeBlock s j) (some j.blockLen) := by
  obtain ⟨hw, hout, -⟩ := writeBlock_spec s j hj
  refine ⟨?_, ?_, ?_⟩
  · rintro n x ⟨⟩ hx
    exact hout x hx
  · rintro (hnone | ⟨hduty, hraise⟩)
    · cases hnone
    · rw [writeBlock_inside hj (hroom.trans hduty)] at hraise
      exact absurd rfl hraise
  · intro hphase
    rw [hw] at hphase
    exact absurd rfl hphase

theorem buildBlock_buildKeeps (b : Builder) (s : State) {j : Job}
    (hj : piecesLen j.pieces = j.blockLen) : BuildKeeps s (buildBlock b s j) (some j.blockLen) := by
  rcases Nat.lt_or_ge s.maxlen (s.cur + j.blockLen) with h | h
  · rw [buildBlock_noRoom h]
    exact s.callK_buildKeeps b _
  · rw [buildBlock_room h]
    exact writeBlock_buildKeeps hj h

theorem firBuild_buildKeeps (s : State) :
    BuildKeeps s (firBuild s) (s.fir.map fun f => firBlockLen f.reqs.length) := by
  obtain ⟨c, op, h⟩ | ⟨f, ⟨hf, -⟩, h⟩ := firBuild_cases s <;> rw [h]
  · exact s.raise_buildKeeps c op _
  · rw [hf]
    exact buildBlock_buildKeeps .fir s (firBlock_len s.params f)

theorem rpsiBuild_buildKeeps (s : State) :
    BuildKeeps s (rpsiBuild s) (s.rpsi.map fun m => rpsiBlockLen m.pictureId.toNat) := by
  obtain ⟨c, op, h⟩ | ⟨m, hm, h⟩ := rpsiBuild_cases s <;> rw [h]
  · exact s.raise_buildKeeps c op _
  · rw [show s.rpsi = some m from hm]
    exact buildBlock_buildKeeps .rpsi s (rpsiBlock_len s.params m)

/-- Settles O55: the fields are those of the operation's frame, and the rest is what a build keeps. -/
theorem buildingFrame : Obligations.BuildingFrame := by
  unfold Obligations.BuildingFrame
  intro s t i h
  have hf := exec_frame h
  refine ⟨?_, ?_, ?_⟩
  · rintro n rfl
    exact hf
  · rintro rfl
    cases h
    obtain ⟨hout, htx, hk⟩ := firBuild_buildKeeps s
    rw [Option.map_eq_none_iff] at htx
    exact ⟨hf, fun f x hfir => hout _ x (by rw [hfir]; rfl), htx, hk⟩
  · rintro rfl
    cases h
    obtain ⟨hout, htx, hk⟩ := rpsiBuild_buildKeeps s
    rw [Option.map_eq_none_iff] at htx
    exact ⟨hf, fun m x hrpsi => hout _ x (by rw [hrpsi]; rfl), htx, hk⟩

end Sys2Proof.Machine

/-! PROOFS. The wire encodings (30_encoding.md): the host's command record (R79), the variable-width picture
identifier (R82 to R84), and the bytes of a built header (R87). -/

namespace Sys2Proof

/-! ## Host commands -/

/-- What a command asks for is what its record decodes to, where a host may issue that. -/
theorem decodeCommand_ok {c : Command} {i : Instr} (h : decodeCommand c = .ok i) :
    decode c.op [c.base, c.avail] = .ok i ∧ i.hostIssuable = true := by
  unfold decodeCommand at h
  split at h
  · next j hj =>
    split at h
    · next hissue => cases h; exact ⟨hj, hissue⟩
    · cases h
  · cases h

/-- A command asks for the operation its selector names, and among the six only `HDR.PARSE` holds the
operands of the record. -/
theorem decodeCommand_ok_iff {c : Command} {i : Instr} :
    decodeCommand c = .ok i ↔ c.op = i.opId ∧
      (i = .hdrParse c.base c.avail ∨
        i ∈ [.dispatch, .firParse, .firBuild, .rpsiParse, .rpsiBuild]) := by
  obtain ⟨op, base, avail⟩ := c
  constructor
  · intro h
    obtain ⟨hd, hissue⟩ := decodeCommand_ok h
    obtain ⟨-, rfl⟩ := decode_ok hd
    refine ⟨rfl, ?_⟩
    cases i with
    | hdrParse b a => exact .inl (Except.ok.inj hd).symm
    | dispatch | firParse | firBuild | rpsiParse | rpsiBuild => exact .inr (by simp)
    | _ => cases hissue
  · rintro ⟨hop, rfl | hi⟩
    · cases hop; rfl
    · fin_cases hi <;> cases hop <;> rfl

/-- Each of the six operations answers to its own selector, whatever the operands. -/
theorem exists_decodeCommand_iff (c : Command) :
    (∃ i, decodeCommand c = .ok i) ↔ c.op ∈ [0x10, 0x11, 0x20, 0x21, 0x30, 0x31] := by
  simp [decodeCommand_ok_iff, exists_or, and_or_left, Instr.opId]

/-- Settles O58, by `decodeCommand_ok_iff` through the six operations it lists. -/
theorem hostSelectorsAreSix : Obligations.HostSelectorsAreSix := by
  unfold Obligations.HostSelectorsAreSix
  exact exists_decodeCommand_iff

/-- Settles O59: a selector other than `HDR.PARSE`'s names an operation without operands. -/
theorem operandsReachHdrParseAlone : Obligations.OperandsReachHdrParseAlone := by
  unfold Obligations.OperandsReachHdrParseAlone
  intro c d i hop hne
  have hnot (base avail : Nat) : ¬ (d.op = i.opId ∧ i = .hdrParse base avail) := by
    rintro ⟨hd, rfl⟩
    exact hne (hop.trans hd)
  simp only [decodeCommand_ok_iff, hop, and_or_left, hnot, false_or]

end Sys2Proof

namespace Sys2Proof.Machine

variable {s : State}

/-! ## A step that takes a command -/

/-- With the latch clear, a command that decodes runs. -/
theorem takeCommand_run {c : Command} {i : Instr} (hf : s.fatal = none)
    (hd : decodeCommand c = .ok i) : takeCommand c s = .run i s := by
  simp [takeCommand, State.fatalSet, hf, hd]

/-- With the latch clear, a command that decodes to nothing raises `Fatal(BadCommand)` (60_exceptions.md
R176). -/
theorem takeCommand_badCommand {c : Command} (hf : s.fatal = none)
    (hd : ¬ ∃ i, decodeCommand c = .ok i) :
    takeCommand c s = .done (.next { s with fatal := some ⟨.badCommand, c.op⟩ }) := by
  cases h : decodeCommand c with
  | ok i => exact absurd ⟨i, h⟩ hd
  | error r => simp [takeCommand, State.fatalSet, hf, h, State.raise_of_none hf]

/-- Settles O35: the port takes the command and runs what it decodes to. -/
theorem stepRunsCommand : Obligations.StepRunsCommand := by
  unfold Obligations.StepRunsCommand
  intro s c i rest hfd hp hf hi hd
  exact step_of_takeIdle_run hfd hp hi (takeCommand_run hf hd)

/-- Settles O37: a selector that is none of the six decodes to nothing a host may issue. -/
theorem otherSelectorsAreBadCommands : Obligations.OtherSelectorsAreBadCommands := by
  unfold Obligations.OtherSelectorsAreBadCommands
  intro s c rest hfd hp hf hi hop
  exact step_of_takeIdle_done hfd hp hi
    (takeCommand_badCommand hf fun hd => hop ((exists_decodeCommand_iff c).1 hd))

/-! ## The variable-width picture identifier -/

@[simp] theorem bitLen_zero : bitLen 0 = 1 := rfl

theorem bitLen_pos (v : Nat) : 1 ≤ bitLen v := by
  unfold bitLen
  split
  · exact le_rfl
  · exact Nat.le_add_left 1 _

/-- The bit length of a number other than 0, by the powers of 2 around it. -/
theorem bitLen_eq_iff {v b : Nat} (hv : 1 ≤ v) (hb : 1 ≤ b) :
    bitLen v = b ↔ 2 ^ (b - 1) ≤ v ∧ v < 2 ^ b := by
  have hv0 : v ≠ 0 := Nat.ne_of_gt hv
  obtain ⟨k, rfl⟩ := Nat.exists_eq_add_of_le' hb
  rw [bitLen, if_neg hv0, Nat.add_right_cancel_iff, Nat.log2_eq_iff hv0, Nat.add_sub_cancel]

theorem bitLen_le_iff {v b : Nat} (hb : 1 ≤ b) : bitLen v ≤ b ↔ v < 2 ^ b := by
  unfold bitLen
  split
  · next hv => simp [hv, hb]
  · next hv => exact Nat.log2_lt hv

theorem lt_two_pow_bitLen (v : Nat) : v < 2 ^ bitLen v := (bitLen_le_iff (bitLen_pos v)).1 le_rfl

theorem padBits_add_bitLen (v : Nat) : padBits v + bitLen v = 8 * nativeBytes v := by
  unfold padBits nativeBytes
  omega

/-- The identifier moved up by its padding bits fits its native bytes. -/
theorem shifted_lt (v : Nat) : v * 2 ^ padBits v < 256 ^ nativeBytes v :=
  calc v * 2 ^ padBits v
    _ < 2 ^ bitLen v * 2 ^ padBits v :=
      Nat.mul_lt_mul_of_pos_right (lt_two_pow_bitLen v) (Nat.two_pow_pos _)
    _ = 2 ^ (8 * nativeBytes v) := by rw [← pow_add, Nat.add_comm, padBits_add_bitLen]
    _ = 256 ^ nativeBytes v := pow_mul 2 8 _

/-- Settles O21, by the powers of 2 around a number. -/
theorem bitLenIsMinimal : Obligations.BitLenIsMinimal := by
  unfold Obligations.BitLenIsMinimal
  refine ⟨bitLen_zero, fun v hv => ?_, fun v hv => ⟨bitLen_pos v, (bitLen_le_iff (by decide)).2 hv⟩⟩
  obtain ⟨hlo, hhi⟩ := (bitLen_eq_iff hv (bitLen_pos v)).1 rfl
  exact ⟨hlo, hhi, fun b hb hle hlt => ((bitLen_eq_iff hv hb).2 ⟨hle, hlt⟩).symm⟩

/-- Settles O22: the rounding is arithmetic on the bit length, and the last clause is `shifted_lt`. -/
theorem nativeBytesAndPadding : Obligations.NativeBytesAndPadding := by
  unfold Obligations.NativeBytesAndPadding
  intro v
  have hpad := padBits_add_bitLen v
  have hpos := bitLen_pos v
  have hnative : nativeBytes v = (bitLen v + 7) / 8 := rfl
  refine ⟨by omega, by omega, hpad, by omega, fun _ => by omega, fun hv => ?_, shifted_lt v⟩
  have h64 : bitLen v ≤ 64 := (bitLen_le_iff (by decide)).2 hv
  omega

/-- Settles O23: the region rounds the native bytes up to 2, 6 or 10. -/
theorem regionFillsWholeWords : Obligations.RegionFillsWholeWords := by
  unfold Obligations.RegionFillsWholeWords
  refine ⟨fun n => ?_, fun v => ?_⟩
  · unfold alignRegion
    refine ⟨by omega, by omega, fun l _ _ => by omega⟩
  · have hpos := bitLen_pos v
    have hlen : rpsiBlockLen v = 14 + (nativeBytes v + (2 + 3 * nativeBytes v) % 4) := rfl
    have hnative : nativeBytes v = (bitLen v + 7) / 8 := rfl
    refine ⟨fun _ => by omega, fun _ _ => by omega, fun _ _ => by omega⟩

/-! ## A built header -/

/-- The bytes of a header, the length field cut into its two bytes (30_encoding.md R87). -/
theorem header_wire_bytes (f : BitVec 5) (t : BitVec 8) (n : Nat) :
    (Piece.header f t n).wire =
      [BitVec.ofNat 8 (0x80 + f.toNat), t, BitVec.ofNat 8 (fieldOfLen n / 256),
        BitVec.ofNat 8 (fieldOfLen n % 256)] := by
  have hlow : BitVec.ofNat 8 (fieldOfLen n) = BitVec.ofNat 8 (fieldOfLen n % 256) :=
    BitVec.eq_of_toNat_eq (by simp)
  simp [Piece.wire, wireBytes, headerByte0, hlow]

/-- Settles O8: inside TX the header is written as its bytes; the two bounds are those of the format's 5
bits and of the length field's 16. -/
theorem hdrWrStoresHeader : Obligations.HdrWrStoresHeader := by
  unfold Obligations.HdrWrStoresHeader
  intro s c n f t hmod hmin hmax hin
  have hwrite : writeHeader s c f t n =
      .on { s with tx := s.tx.putBytes c (Piece.header f t n).wire } :=
    (Piece.header f t n).write_inside hin
  have hf := f.isLt
  have hfield : fieldOfLen n < 2 ^ 16 := fieldOfLen_lt ((wfHeaderLen_iff n).2 ⟨hmod, hmin, hmax⟩)
  rw [header_wire_bytes] at hwrite
  exact ⟨_, congrArg (fun r : Flow => Host.Outcome.next r.state) hwrite, s.tx.stored_putBytes c _, by omega,
    Nat.div_lt_of_lt_mul hfield⟩

end Sys2Proof.Machine

/-! PROOFS. The ByteCodec (40_bytecodec.md): its reads, its writes, and the laws of R109. -/

namespace Sys2Proof.Machine

variable {s t : State}

/-! ## Reads -/

/-- A read inside RX of bytes that hold a value answers their big-endian number (R101 to R104). -/
theorem runRead_of_holdsBytes {w : Width} {a v : Nat} {bs : List Byte} (hl : bs.length = w.bytes)
    (hin : a + w.bytes ≤ s.params.rxSize) (hb : HoldsBytes s.rx a bs) (hv : bigEndian bs = v) :
    runRead w a s = .next { s with result := .value v } := by
  simp only [runRead, readBE_of_holdsBytes hl hin hb, hv]

theorem runRead_outside {w : Width} {a : Nat} (hf : s.fatal = none)
    (h : s.params.rxSize < a + w.bytes) :
    runRead w a s = .next { s with fatal := some ⟨.outOfBounds, w.rdOp⟩ } := by
  simp only [runRead, readBE_outside h, State.stopped, State.raise_of_none hf]

/-- Settles O1: each string of bytes is the one of its width, and `bigEndian` unfolds to the number the
rule writes out. -/
theorem byteReadsReturnBigEndian : Obligations.ByteReadsReturnBigEndian := by
  unfold Obligations.ByteReadsReturnBigEndian
  intro s a b0 b1 b2 b3
  refine ⟨fun h0 hin => ?_, fun h0 h1 hin => ?_, fun h0 h1 h2 hin => ?_, fun h0 h1 h2 h3 hin => ?_,
    runRead_outside (w := .w1), runRead_outside (w := .w2), runRead_outside (w := .w3),
    runRead_outside (w := .w4)⟩
  · have hb : HoldsBytes s.rx a [b0] := by simp [HoldsBytes.cons, h0]
    exact runRead_of_holdsBytes (w := .w1) rfl hin hb (by simp [bigEndian])
  · have hb : HoldsBytes s.rx a [b0, b1] := by simp [HoldsBytes.cons, h0, h1]
    exact runRead_of_holdsBytes (w := .w2) rfl hin hb (by simp [bigEndian])
  · have hb : HoldsBytes s.rx a [b0, b1, b2] := by simp [HoldsBytes.cons, h0, h1, h2]
    exact runRead_of_holdsBytes (w := .w3) rfl hin hb (by simp [bigEndian, Nat.add_assoc])
  · have hb : HoldsBytes s.rx a [b0, b1, b2, b3] := by simp [HoldsBytes.cons, h0, h1, h2, h3]
    exact runRead_of_holdsBytes (w := .w4) rfl hin hb (by simp [bigEndian, Nat.add_assoc])

/-! ## Writes -/

/-- A byte of the big-endian form of a bit vector is eight of its bits. -/
theorem ofNat_div_pow_eq_extractLsb' {w : Nat} (v : BitVec w) (k : Nat) :
    BitVec.ofNat 8 (v.toNat / 256 ^ k) = v.extractLsb' (8 * k) 8 := by
  apply BitVec.eq_of_toNat_eq
  simp [BitVec.extractLsb'_toNat, Nat.shiftRight_eq_div_pow, pow_mul]

/-- A write inside TX stores the big-endian bytes of its value and changes nothing else (R105 to R108). -/
theorem runWrite_stores {w : Width} {a v : Nat} {bs : List Byte} (hin : a + w.bytes ≤ s.params.txSize)
    (hbs : wireBytes v w.bytes = bs) :
    ∃ m, runWrite w a v s = .next { s with tx := m } ∧ Stored s.tx m a bs := by
  subst hbs
  exact ⟨_, by rw [runWrite, writeBE_inside v hin, Flow.state_on], s.tx.stored_putBytes a _⟩

theorem runWrite_outside {w : Width} {a v : Nat} (hf : s.fatal = none)
    (h : s.params.txSize < a + w.bytes) :
    runWrite w a v s = .next { s with fatal := some ⟨.outOfBounds, w.wrOp⟩ } := by
  rw [runWrite, writeBE_outside v h, Flow.state_ended, State.raise_of_none hf]

/-- Settles O3: the bytes stored are the big-endian form of the value, eight bits each. -/
theorem byteWritesStoreBigEndian : Obligations.ByteWritesStoreBigEndian := by
  unfold Obligations.ByteWritesStoreBigEndian
  intro s a
  refine ⟨fun v hin => ?_, fun v hin => ?_, fun v hin => ?_, fun v hin => ?_,
    fun _ => runWrite_outside (w := .w1), fun _ => runWrite_outside (w := .w2),
    fun _ => runWrite_outside (w := .w3), fun _ => runWrite_outside (w := .w4)⟩
  · exact runWrite_stores (w := .w1) hin (by simp [Width.bytes, wireBytes])
  · exact runWrite_stores (w := .w2) hin (by simp only [Width.bytes, wireBytes, ofNat_div_pow_eq_extractLsb'])
  · exact runWrite_stores (w := .w3) hin (by simp only [Width.bytes, wireBytes, ofNat_div_pow_eq_extractLsb'])
  · exact runWrite_stores (w := .w4) hin (by simp only [Width.bytes, wireBytes, ofNat_div_pow_eq_extractLsb'])

/-! ## The laws of R109 -/

/-- Writes to disjoint ranges of a memory in canonical form commute. -/
theorem Memory.write_comm {m : Memory} {a n b k : Nat} (hm : m.wf = true)
    (hd : a + n ≤ b ∨ b + k ≤ a) (v u : Nat) :
    (m.write a n v).write b k u = (m.write b k u).write a n v := by
  refine Memory.ext_of_wf (Memory.wf_write (Memory.wf_write hm a n v) b k u)
    (Memory.wf_write (Memory.wf_write hm b k u) a n v) fun x => ?_
  have hnot : ¬ ((a ≤ x ∧ x < a + n) ∧ b ≤ x ∧ x < b + k) := by omega
  simp only [Memory.byte?_write]
  by_cases ha : a ≤ x ∧ x < a + n
  · rw [if_pos ha, if_pos ha, if_neg fun hb => hnot ⟨ha, hb⟩]
  · rw [if_neg ha, if_neg ha]

/-- Settles O4: each law reads off the bytes a write leaves, `Memory.byte?_write`. -/
theorem byteCodecLaws : Obligations.ByteCodecLaws := by
  unfold Obligations.ByteCodecLaws
  intro m a n v
  refine ⟨fun hv => ?_, fun x hx => ?_, fun x hlo hhi => ?_, fun b k u hm hd => ?_⟩
  · rw [Memory.read_write, Nat.mod_eq_of_lt hv]
  · rw [Memory.byte?_write, if_neg (by omega)]
  · rw [Memory.byte?_write, if_pos ⟨hlo, hhi⟩, Option.isSome_some]
  · exact Memory.write_comm hm hd v u

/-! ## The frame of the operations that store at an address -/

/-- Nothing but TX and the latch changes, and of TX only the `n` bytes from `a` on. -/
def StoresWithin (s t : State) (a n : Nat) : Prop :=
  t = { s with tx := t.tx, fatal := t.fatal } ∧
    ∀ x, x < a ∨ a + n ≤ x → t.tx.byte? x = s.tx.byte? x

theorem WritesOnly.storesWithin {a n : Nat} {r : Flow} (h : WritesOnly s a (a + n) r)
    (ht : Host.Outcome.next (φ := Fault) (ρ := Refusal) r.state = .next t) : StoresWithin s t a n := by
  cases ht
  obtain ⟨hframe, hbytes, -⟩ := h
  exact ⟨hframe, hbytes⟩

/-- Settles O54: each operation is a sequence of writes inside the window of its bytes. -/
theorem storingFrame : Obligations.StoringFrame := by
  unfold Obligations.StoringFrame
  rintro s t i a n h (⟨v, rfl, rfl⟩ | ⟨v, rfl, rfl⟩ | ⟨v, rfl, rfl⟩ | ⟨v, rfl, rfl⟩ |
    ⟨f, p, l, rfl, rfl⟩ | ⟨x, y, rfl, rfl⟩)
  · exact (writeBE_writesOnly s .w1 a _).storesWithin h
  · exact (writeBE_writesOnly s .w2 a _).storesWithin h
  · exact (writeBE_writesOnly s .w3 a _).storesWithin h
  · exact (writeBE_writesOnly s .w4 a _).storesWithin h
  · exact (writeHeader_writesOnly s a f p l).storesWithin h
  · exact (writeFeedback_writesOnly s a x y).storesWithin h

end Sys2Proof.Machine

/-! PROOFS. The header operations (41_header.md): how `HDR.PARSE` and `DISPATCH` end, and the frame
of the three parses. -/

namespace Sys2Proof.Machine

variable {s : State}

/-! ## `HDR.PARSE` -/

/-- The length field in its two bytes (30_encoding.md R71). -/
theorem toNat_append_bytes (b2 b3 : Byte) : (b2 ++ b3).toNat = b2.toNat * 256 + b3.toNat := by
  rw [BitVec.toNat_append, ← Nat.shiftLeft_add_eq_or_of_lt b3.isLt, Nat.shiftLeft_eq]

/-- The two tests of a header, by its version and the two bytes of its length field. -/
theorem headerOk_iff (version : BitVec 2) (pad : Bool) (fmt : BitVec 5) (pt b2 b3 : Byte)
    (base avail : Nat) :
    headerOk ⟨version, pad, fmt, pt, b2 ++ b3, base⟩ avail = true ↔
      version = 2 ∧ 4 + 4 * (b2.toNat * 256 + b3.toNat) ≤ avail := by
  simp only [headerOk, Hdr.blockSize, toNat_append_bytes, Bool.and_eq_true, beq_iff_eq,
    decide_eq_true_eq]

theorem execHdrParse_outside {base avail : Nat} (hf : s.fatal = none)
    (h : s.params.rxSize < base + avail) :
    execHdrParse base avail s = .next { s with fatal := some ⟨.outOfBounds, 0x10⟩ } := by
  rw [execHdrParse, if_pos h, State.raise_of_none hf]

theorem execHdrParse_short {base avail : Nat} (hin : base + avail ≤ s.params.rxSize)
    (h : avail < 4) : execHdrParse base avail s = .next s.badHeader := by
  rw [execHdrParse, if_neg (Nat.not_lt.2 hin), if_pos h]

/-- A window inside RX that holds a header leaves the answer to the two tests of that header. -/
theorem execHdrParse_of_readHeader {base avail : Nat} {x : Hdr}
    (hin : base + avail ≤ s.params.rxSize) (h4 : 4 ≤ avail) (hx : readHeader s base = .ok x) :
    execHdrParse base avail s =
      .next (if headerOk x avail then { s with hdr := some x, status := .ok } else s.badHeader) := by
  simp only [execHdrParse, if_neg (Nat.not_lt.2 hin), if_neg (Nat.not_lt.2 h4), hx]

/-- Settles O6: the window decides first, and in a window that holds a header its two tests do. -/
theorem hdrParseOutcomes : Obligations.HdrParseOutcomes := by
  unfold Obligations.HdrParseOutcomes
  intro s base avail b0 b1 b2 b3
  refine ⟨execHdrParse_outside, execHdrParse_short, fun hin h4 hb hbad => ?_,
    fun hin h4 hb hv hsize => ?_⟩
  · have hx := execHdrParse_of_readHeader hin h4 (readHeader_of_holdsBytes (by omega) hb)
    rwa [if_neg (by rw [headerOk_iff, not_and_or, Nat.not_le]; exact hbad)] at hx
  · have hx := execHdrParse_of_readHeader hin h4 (readHeader_of_holdsBytes (by omega) hb)
    rwa [if_pos ((headerOk_iff ..).2 ⟨hv, hsize⟩), hv] at hx

/-! ## `DISPATCH` -/

theorem execDispatch_of_none (hh : s.hdr = none) (hf : s.fatal = none) :
    execDispatch s = .next { s with fatal := some ⟨.invalidRegister, 0x11⟩ } := by
  simp only [execDispatch, hh, State.raise_of_none hf]

theorem isFir_iff (p : Params) (x : Hdr) :
    isFir p x = true ↔ x.packetType = p.psfbPt ∧ x.formatOrCount = p.firFmt := by
  simp [isFir]

theorem isRpsi_iff (p : Params) (x : Hdr) :
    isRpsi p x = true ↔ x.packetType = p.psfbPt ∧ x.formatOrCount = p.rpsiFmt := by
  simp [isRpsi]

/-- Settles O7: on a valid header the kind is `kindOf`, each case of which is two tests of the header. -/
theorem dispatchAnswersKind : Obligations.DispatchAnswersKind := by
  unfold Obligations.DispatchAnswersKind
  intro s
  refine ⟨execDispatch_of_none, fun x hx => ⟨kindOf s.params x, execDispatch_of_hdr hx, ?_⟩,
    rfl, rfl, rfl⟩
  simp only [kindOf, isFir_iff, isRpsi_iff]
  refine ⟨fun hfir => if_pos hfir, fun ⟨hpt, hne, hfmt⟩ => ?_, fun hnot => ?_⟩
  · rw [if_neg fun h => hne h.2, if_pos ⟨hpt, hfmt⟩]
  · rw [if_neg (by tauto), if_neg (by tauto)]

/-! ## The frame of the parses -/

/-- Settles O53: a parse ends in a fatal assertion, with its register invalid, or with a message in it. -/
theorem parsingFrame : Obligations.ParsingFrame := by
  unfold Obligations.ParsingFrame
  intro s t i h
  refine ⟨?_, ?_, ?_⟩
  · rintro base avail rfl
    obtain ⟨c, op, rfl⟩ | rfl | ⟨x, -, -, -, -, rfl⟩ := execHdrParse_next h
    · exact .inr (s.raise_only c op)
    · exact .inl rfl
    · exact .inl rfl
  · rintro rfl
    obtain ⟨c, op, rfl⟩ | ⟨x, rfl⟩ | ⟨f, rfl⟩ := execFirParse_next h
    · exact .inr (s.raise_only c op)
    · exact .inl rfl
    · exact .inl rfl
  · rintro rfl
    obtain ⟨c, op, rfl⟩ | ⟨x, rfl⟩ | ⟨m, rfl⟩ := execRpsiParse_next h
    · exact .inr (s.raise_only c op)
    · exact .inl rfl
    · exact .inl rfl

end Sys2Proof.Machine

/-! PROOFS. The common feedback fields (42_feedback_common.md): where `FB.RD` and `FB.WR` lie inside their
memory, and which access of theirs raises where they do not. -/

namespace Sys2Proof.Machine

variable {s : State}

/-! ## `FB.RD` -/

theorem execFbRd_inside {p : Nat} {sender media : Ssrc} (hin : p + 8 ≤ s.params.rxSize)
    (hb : HoldsBytes s.rx p (wire32 sender ++ wire32 media)) :
    execFbRd p s = .next { s with result := .ssrcs sender media } := by
  simp only [execFbRd, readFeedback_of_holdsBytes hin hb]

theorem readBE_w4_outside {a : Nat} (h : s.params.rxSize < a + 4) :
    readBE s .w4 a = .error (.fatal .outOfBounds 0x04) := readBE_outside (w := .w4) h

theorem readFeedback_senderOutside {p : Nat} (h : s.params.rxSize < p + 4) :
    readFeedback s p = .error (.fatal .outOfBounds 0x04) := by
  simp only [readFeedback, readBE_w4_outside h, bind, Except.bind]

/-- The second read comes to its bounds test only where the first has read a value. -/
theorem readFeedback_mediaOutside {p : Nat} {sender : Ssrc} (hin : p + 4 ≤ s.params.rxSize)
    (h : s.params.rxSize < p + 8) (hb : HoldsBytes s.rx p (wire32 sender)) :
    readFeedback s p = .error (.fatal .outOfBounds 0x04) := by
  have hmedia : s.params.rxSize < p + 4 + 4 := h
  simp only [readFeedback, readBE_wire32 hb hin, readBE_w4_outside hmedia, bind, Except.bind]

/-- `FB.RD` of a pair that leaves RX sets the latch and nothing else. -/
theorem execFbRd_of_outOfBounds {p : Nat} (hf : s.fatal = none)
    (h : readFeedback s p = .error (.fatal .outOfBounds 0x04)) :
    execFbRd p s = .next { s with fatal := some ⟨.outOfBounds, 0x04⟩ } := by
  simp only [execFbRd, h, State.stopped, State.raise_of_none hf]

/-- Settles O9: the pair inside RX, and the two reads that can leave it. -/
theorem fbRdReturnsSsrcs : Obligations.FbRdReturnsSsrcs := by
  unfold Obligations.FbRdReturnsSsrcs
  intro s p sender media
  exact ⟨execFbRd_inside,
    fun hf h => execFbRd_of_outOfBounds hf (readFeedback_senderOutside h),
    fun hf hin h hb => execFbRd_of_outOfBounds hf (readFeedback_mediaOutside hin h hb)⟩

/-! ## `FB.WR` -/

theorem writeFeedback_inside {c : Nat} (sender media : Ssrc) (h : c + 8 ≤ s.params.txSize) :
    writeFeedback s c sender media =
      .on { s with tx := s.tx.putBytes c (wire32 sender ++ wire32 media) } := by
  rw [wire32_eq_wireBytes, wire32_eq_wireBytes]
  exact (Piece.feedback sender media).write_inside h

theorem writeBE_w4_outside {a : Nat} (v : Nat) (hf : s.fatal = none) (h : s.params.txSize < a + 4) :
    writeBE s .w4 a v = .ended { s with fatal := some ⟨.outOfBounds, 0x0C⟩ } := by
  rw [writeBE_outside (w := .w4) v h, State.raise_of_none hf, Width.wrOp]

theorem writeFeedback_senderOutside {c : Nat} (sender media : Ssrc) (hf : s.fatal = none)
    (h : s.params.txSize < c + 4) :
    writeFeedback s c sender media = .ended { s with fatal := some ⟨.outOfBounds, 0x0C⟩ } := by
  rw [writeFeedback, writeBE_w4_outside _ hf h, Flow.andThen_ended]

/-- Where only the second write leaves TX, the first SSRC stays stored (60_exceptions.md R176). -/
theorem writeFeedback_mediaOutside {c : Nat} (sender media : Ssrc) (hf : s.fatal = none)
    (hin : c + 4 ≤ s.params.txSize) (h : s.params.txSize < c + 8) :
    writeFeedback s c sender media = .ended { s with
      tx := s.tx.putBytes c (wire32 sender), fatal := some ⟨.outOfBounds, 0x0C⟩ } := by
  have hsender : writeBE s .w4 c sender.toNat = .on { s with tx := s.tx.putBytes c (wire32 sender) } := by
    rw [wire32_eq_wireBytes]
    exact writeBE_inside (w := .w4) _ hin
  rw [writeFeedback, hsender, Flow.andThen_on]
  exact writeBE_w4_outside media.toNat hf h

/-- Settles O10: the pair inside TX, and the two writes that can leave it. -/
theorem fbWrStoresSsrcs : Obligations.FbWrStoresSsrcs := by
  unfold Obligations.FbWrStoresSsrcs
  intro s c sender media
  refine ⟨fun hin => ⟨_, ?_, s.tx.stored_putBytes c _⟩, fun hf h => ⟨_, rfl, ?_⟩⟩
  · exact congrArg (fun r : Flow => Host.Outcome.next r.state) (writeFeedback_inside sender media hin)
  · rcases Nat.lt_or_ge s.params.txSize (c + 4) with h4 | h4
    · rw [writeFeedback_senderOutside sender media hf h4, Flow.state_ended]
    · rw [writeFeedback_mediaOutside sender media hf h4 h, Flow.state_ended]

end Sys2Proof.Machine

/-! PROOFS. The Fir codec (43_fir.md): the header and the FIR block as bytes of a memory, how `FIR.PARSE` and
`FIR.BUILD` end, and the two directions of R133. -/

namespace Sys2Proof.Machine

variable {s t : State}

/-! ## A header as its four bytes (30_encoding.md R70, R87) -/

/-- The first byte of a header by its three fields. -/
theorem headerByte_eq_iff (b : Byte) (f : BitVec 5) :
    b = (4 : BitVec 3) ++ f ↔
      b.extractLsb' 6 2 = 2 ∧ b.getLsbD 5 = false ∧ b.extractLsb' 0 5 = f := by
  constructor
  · rintro rfl
    revert f
    decide
  · rintro ⟨hv, hpad, rfl⟩
    revert b
    decide

/-- A 16-bit field by its two bytes. -/
theorem append_eq_iff_extractLsb' (b2 b3 : Byte) (l : BitVec 16) :
    b2 ++ b3 = l ↔ b2 = l.extractLsb' 8 8 ∧ b3 = l.extractLsb' 0 8 := by
  constructor
  · rintro rfl
    exact ⟨(BitVec.extractLsb'_append_eq_left).symm, (BitVec.extractLsb'_append_eq_right).symm⟩
  · rintro ⟨rfl, rfl⟩
    rw [BitVec.extractLsb'_append_extractLsb'_eq_extractLsb' (by omega)]
    exact BitVec.extractLsb'_eq_self

/-- The reader of a header answers version 2 and a clear padding flag on exactly the bytes of a built header. -/
theorem readHeader_eq_ok_iff {base : Nat} {f : BitVec 5} {p : BitVec 8} {l : BitVec 16} :
    readHeader s base = .ok ⟨2, false, f, p, l, base⟩ ↔
      base + 4 ≤ s.params.rxSize ∧ HoldsBytes s.rx base (wireHeader f p l) := by
  constructor
  · intro h
    obtain ⟨hin, b0, b1, b2, b3, hb, hx⟩ := readHeader_ok h
    obtain ⟨hv, hpad, hf, rfl, hl, -⟩ := Hdr.mk.inj hx
    obtain rfl := (headerByte_eq_iff b0 f).2 ⟨hv.symm, hpad.symm, hf.symm⟩
    obtain ⟨rfl, rfl⟩ := (append_eq_iff_extractLsb' b2 b3 l).1 hl.symm
    exact ⟨hin, hb⟩
  · rintro ⟨hin, hb⟩
    obtain ⟨hv, hpad, hf⟩ := (headerByte_eq_iff _ f).1 rfl
    have hl := (append_eq_iff_extractLsb' _ _ l).2 ⟨rfl, rfl⟩
    rw [readHeader_of_holdsBytes hin hb, hv, hpad, hf, hl]

/-! ## A FIR block as bytes of a memory (30_encoding.md R70 to R73) -/

@[simp] theorem wireHeader_length (f : BitVec 5) (p : BitVec 8) (l : BitVec 16) :
    (wireHeader f p l).length = 4 := rfl

@[simp] theorem wireRequest_length (r : Request) : (wireRequest r).length = 8 := rfl

/-- The entries of a FIR block stand one behind the other. -/
theorem holdsBytes_flatMap_wireRequest {m : Memory} {a : Nat} {reqs : List Request} :
    HoldsBytes m a (reqs.flatMap wireRequest) ↔
      ∀ i, (hi : i < reqs.length) → HoldsBytes m (a + 8 * i) (wireRequest reqs[i]) := by
  induction reqs generalizing a with
  | nil => simp
  | cons r rs ih =>
    rw [List.flatMap_cons, HoldsBytes.append, ih, wireRequest_length]
    constructor
    · rintro ⟨hr, hrs⟩ i hi
      cases i with
      | zero => exact hr
      | succ i =>
        have hnext := hrs i (Nat.lt_of_succ_lt_succ hi)
        rwa [show a + 8 + 8 * i = a + 8 * (i + 1) by omega] at hnext
    · intro h
      refine ⟨h 0 (Nat.succ_pos _), fun i hi => ?_⟩
      have hnext := h (i + 1) (Nat.succ_lt_succ hi)
      rwa [show a + 8 * (i + 1) = a + 8 + 8 * i by omega] at hnext

/-- The wire form of a message is a header, the two SSRCs and the entries, each at its place. -/
theorem holdsBytes_wireFir {m : Memory} {a : Nat} {p : Params} {f : Fir} :
    HoldsBytes m a (wireFir p f) ↔
      HoldsBytes m a (wireHeader p.firFmt p.psfbPt (BitVec.ofNat 16 (2 + 2 * f.reqs.length))) ∧
        HoldsBytes m (a + 4) (wire32 f.senderSsrc ++ wire32 0) ∧
        ∀ i, (hi : i < f.reqs.length) →
          HoldsBytes m (a + 12 + 8 * i) (wireRequest f.reqs[i]) := by
  rw [wireFir, List.append_assoc (wireHeader _ _ _), HoldsBytes.append, HoldsBytes.append,
    holdsBytes_flatMap_wireRequest, and_assoc]
  simp only [wireHeader_length, List.length_append, wire32_length, Nat.add_assoc, Nat.reduceAdd]

/-- An entry on the wire is the part `FIR.PARSE` reads and the three reserved bytes. -/
theorem holdsBytes_wireRequest {m : Memory} {a : Nat} {r : Request} :
    HoldsBytes m a (wireRequest r) ↔
      HoldsBytes m a (wire32 r.ssrc ++ [r.seqNr]) ∧ HoldsBytes m (a + 5) [0, 0, 0] := by
  have hsplit : wireRequest r = (wire32 r.ssrc ++ [r.seqNr]) ++ [0, 0, 0] := rfl
  rw [hsplit, HoldsBytes.append]
  rfl

/-! ## `FIR.PARSE` -/

/-- The reader of a message answers the fields its block holds (R130). -/
theorem readFir_of_holdsBytes {h : Hdr} {sender media : Ssrc} {reqs : List Request}
    (hlen : h.lengthWords.toNat = 2 + 2 * reqs.length)
    (hin : h.base + 12 + 8 * reqs.length ≤ s.params.rxSize)
    (hssrcs : HoldsBytes s.rx (h.base + 4) (wire32 sender ++ wire32 media))
    (hreqs : ∀ i, (hi : i < reqs.length) →
      HoldsBytes s.rx (h.base + 12 + 8 * i) (wire32 reqs[i].ssrc ++ [reqs[i].seqNr])) :
    readFir s h = .ok ⟨sender, media, reqs⟩ := by
  have hn : (h.payloadSize - 8) / 8 = reqs.length := by simp only [Hdr.payloadSize]; omega
  have hfb : readFeedback s h.payload = .ok (sender, media) :=
    readFeedback_of_holdsBytes (by simp only [Hdr.payload]; omega) hssrcs
  have hrs : readRequests s (h.payload + 8) reqs.length = .ok reqs :=
    readRequests_of_holdsBytes (by simp only [Hdr.payload]; omega) hreqs
  simp only [readFir, hfb, hn, hrs, bind, Except.bind, pure, Except.pure]

/-- What the reader of a message has read where it answers one (R130). -/
theorem readFir_ok {h : Hdr} {f : Fir} (hr : readFir s h = .ok f) :
    HoldsBytes s.rx (h.base + 4) (wire32 f.senderSsrc ++ wire32 f.mediaSsrc) ∧
      f.reqs.length = (h.payloadSize - 8) / 8 ∧
      ∀ i, (hi : i < f.reqs.length) →
        HoldsBytes s.rx (h.base + 12 + 8 * i) (wire32 f.reqs[i].ssrc ++ [f.reqs[i].seqNr]) := by
  simp only [readFir, bind, Except.bind, pure, Except.pure] at hr
  split at hr
  · cases hr
  · next x hx =>
    split at hr
    · cases hr
    · next reqs hreqs =>
      cases hr
      obtain ⟨-, hssrcs⟩ := readFeedback_ok hx
      obtain ⟨hn, hentries⟩ := readRequests_ok hreqs
      exact ⟨hssrcs, hn, hentries⟩

theorem execFirParse_of_none (hf : s.fatal = none) (hh : s.hdr = none) :
    execFirParse s = .next { s with fatal := some ⟨.invalidRegister, 0x20⟩ } := by
  simp only [execFirParse, hh, State.raise_of_none hf]

theorem execFirParse_of_not_isFir {h : Hdr} (hh : s.hdr = some h) (hf : s.fatal = none)
    (hfir : ¬ isFir s.params h = true) :
    execFirParse s = .next { s with fatal := some ⟨.wrongDispatch, 0x20⟩ } := by
  rw [execFirParse_of_hdr hh, if_neg hfir, State.raise_of_none hf]

theorem execFirParse_tooShort {h : Hdr} (hh : s.hdr = some h) (hfir : isFir s.params h = true)
    (hsize : h.payloadSize < 16) : execFirParse s = .next (s.badFir .tooShort) := by
  rw [execFirParse_of_hdr hh, if_pos hfir, if_pos hsize]

theorem execFirParse_badAlignment {h : Hdr} (hh : s.hdr = some h) (hfir : isFir s.params h = true)
    (hsize : 16 ≤ h.payloadSize) (hmod : (h.payloadSize - 8) % 8 ≠ 0) :
    execFirParse s = .next (s.badFir .badAlignment) := by
  rw [execFirParse_of_hdr hh, if_pos hfir, if_neg (Nat.not_lt.2 hsize), if_pos hmod]

/-- With both checks passed a message that is read is the one kept. -/
theorem execFirParse_of_readFir {h : Hdr} {f : Fir} (hh : s.hdr = some h)
    (hfir : isFir s.params h = true) (hsize : 16 ≤ h.payloadSize)
    (hmod : (h.payloadSize - 8) % 8 = 0) (hr : readFir s h = .ok f) :
    execFirParse s = .next { s with fir := some f, status := .ok } := by
  simp only [execFirParse_of_hdr hh, hr]
  rw [if_pos hfir, if_neg (Nat.not_lt.2 hsize), if_neg (not_not_intro hmod)]

/-- With both checks passed a reader that stops stops the operation. -/
theorem execFirParse_stopped {h : Hdr} {x : Stop} (hh : s.hdr = some h)
    (hfir : isFir s.params h = true) (hsize : 16 ≤ h.payloadSize)
    (hmod : (h.payloadSize - 8) % 8 = 0) (hr : readFir s h = .error x) :
    execFirParse s = s.stopped x := by
  simp only [execFirParse_of_hdr hh, hr]
  rw [if_pos hfir, if_neg (Nat.not_lt.2 hsize), if_neg (not_not_intro hmod)]

/-- `FIR.PARSE` of a block with at least one entry (R130). -/
theorem execFirParse_of_holdsBytes {h : Hdr} {sender media : Ssrc} {reqs : List Request}
    (hh : s.hdr = some h) (hfir : isFir s.params h = true) (h1 : 1 ≤ reqs.length)
    (hlen : h.lengthWords.toNat = 2 + 2 * reqs.length)
    (hin : h.base + 12 + 8 * reqs.length ≤ s.params.rxSize)
    (hssrcs : HoldsBytes s.rx (h.base + 4) (wire32 sender ++ wire32 media))
    (hreqs : ∀ i, (hi : i < reqs.length) →
      HoldsBytes s.rx (h.base + 12 + 8 * i) (wire32 reqs[i].ssrc ++ [reqs[i].seqNr])) :
    execFirParse s = .next { s with fir := some ⟨sender, media, reqs⟩, status := .ok } := by
  have hsize : h.payloadSize = 8 + 8 * reqs.length := by simp only [Hdr.payloadSize]; omega
  exact execFirParse_of_readFir hh hfir (by omega) (by omega)
    (readFir_of_holdsBytes hlen hin hssrcs hreqs)

/-- Where `FIR.PARSE` leaves a message and a clear latch, both checks have passed and the message is the one
read. -/
theorem execFirParse_accepted {h : Hdr} {f : Fir} (hx : execFirParse s = .next t)
    (hh : s.hdr = some h) (hfatal : t.fatal = none) (hf : t.fir = some f) :
    isFir s.params h = true ∧ 16 ≤ h.payloadSize ∧ (h.payloadSize - 8) % 8 = 0 ∧
      readFir s h = .ok f ∧ t = { s with fir := some f, status := .ok } := by
  have hraise (c : FatalCause) (op : BitVec 8) : t ≠ s.raise c op := by
    rintro rfl
    rw [State.raise_fatal] at hfatal
    cases hfatal
  rw [execFirParse_of_hdr hh] at hx
  split at hx
  · next hfir =>
    split at hx
    · cases hx; cases hf
    · next hsize =>
      split at hx
      · cases hx; cases hf
      · next hmod =>
        split at hx
        · obtain ⟨c, op, -, ht⟩ := State.stopped_next hx
          exact absurd ht (hraise c op)
        · next hr =>
          cases hx
          cases hf
          exact ⟨hfir, by omega, by omega, hr, rfl⟩
  · cases hx
    exact absurd rfl (hraise _ _)

/-- Settles O11: the header passes both checks, and each field is read where the wire holds it. -/
theorem firParseDecodes : Obligations.FirParseDecodes := by
  unfold Obligations.FirParseDecodes
  intro s h sender media reqs hh hpt hfmt h1 hlen hin hssrcs hreqs
  exact execFirParse_of_holdsBytes hh ((isFir_iff _ _).2 ⟨hpt, hfmt⟩) h1 hlen hin hssrcs hreqs

/-- Settles O12: each end is one test of `FIR.PARSE`, in the order of R174. -/
theorem firParseRejects : Obligations.FirParseRejects := by
  unfold Obligations.FirParseRejects
  intro s
  refine ⟨execFirParse_of_none, fun h hh hf hnot => ?_, fun h hh hpt hfmt hsize => ?_,
    fun h hh hpt hfmt hsize hmod => ?_⟩
  · exact execFirParse_of_not_isFir hh hf (by rwa [isFir_iff, not_and_or])
  · exact execFirParse_tooShort hh ((isFir_iff _ _).2 ⟨hpt, hfmt⟩) hsize
  · exact execFirParse_badAlignment hh ((isFir_iff _ _).2 ⟨hpt, hfmt⟩) hsize hmod

/-! ## `FIR.BUILD` -/

/-- A failed assertion of `FIR.BUILD` sets the latch under its name and nothing else. -/
theorem firBuild_of_error {c : FatalCause} (hf : s.fatal = none) (h : firJob s = .error c) :
    firBuild s = { s with fatal := some ⟨c, 0x21⟩ } := by
  simp only [firBuild, h, State.raise_of_none hf]

theorem firJob_of_none (h : s.fir = none) : firJob s = .error .invalidRegister := by
  simp only [firJob, h]

theorem firJob_lengthOverflow {f : Fir} (hf : s.fir = some f) (hn : 32766 < f.reqs.length) :
    firJob s = .error .lengthOverflow := by
  rw [firJob_of_fir hf, if_neg (by omega), if_pos (show firMax < f.reqs.length from hn)]

theorem rpsiBuild_of_none (hf : s.fatal = none) (h : s.rpsi = none) :
    rpsiBuild s = { s with fatal := some ⟨.invalidRegister, 0x31⟩ } := by
  simp only [rpsiBuild, h, State.raise_of_none hf]

/-- A FIR block that fits is stored at the cursor as the wire form of the message (R131, R132). -/
theorem firBuild_inside {f : Fir} (h : FirReady s f)
    (hroom : s.cur + (12 + 8 * f.reqs.length) ≤ s.maxlen)
    (hin : s.cur + (12 + 8 * f.reqs.length) ≤ s.params.txSize) :
    firBuild s = { s with
      tx := s.tx.putBytes s.cur (wireFir s.params f), cur := s.cur + (12 + 8 * f.reqs.length),
      status := .ok } := by
  rw [firBuild_of_ready h, buildBlock_room hroom, writeBlock_inside (firBlock_len _ _) hin,
    firBlock_wire]
  rfl

/-- Where the block fits, the next state holds the wire form of the message behind the old cursor. -/
theorem execFirBuild_stores {f : Fir} (h : FirReady s f)
    (hroom : s.cur + (12 + 8 * f.reqs.length) ≤ s.maxlen)
    (hin : s.cur + (12 + 8 * f.reqs.length) ≤ s.params.txSize) (hx : exec .firBuild s = .next t) :
    t.status = .ok ∧ t.cur = s.cur + (12 + 8 * f.reqs.length) ∧
      HoldsBytes t.tx s.cur (wireFir s.params f) := by
  have ht : firBuild s = t := Host.Outcome.next.inj hx
  rw [firBuild_inside h hroom hin] at ht
  subst ht
  dsimp only
  exact ⟨rfl, rfl, s.tx.holdsBytes_putBytes s.cur _⟩

/-- Settles O15: each is the first assertion of its build that fails. -/
theorem buildsAssertTheirRegister : Obligations.BuildsAssertTheirRegister := by
  unfold Obligations.BuildsAssertTheirRegister
  intro s hf
  refine ⟨fun hnone => ?_, fun f hfir hn => ?_, fun hnone => ?_⟩
  · exact congrArg _ (firBuild_of_error hf (firJob_of_none hnone))
  · exact congrArg _ (firBuild_of_error hf (firJob_lengthOverflow hfir hn))
  · exact congrArg _ (rpsiBuild_of_none hf hnone)

/-- Settles O13: the block written is the wire form of the message. -/
theorem firBuildWritesBlock : Obligations.FirBuildWritesBlock := by
  unfold Obligations.FirBuildWritesBlock
  intro s f hready hroom hin
  exact ⟨_, congrArg _ (firBuild_inside hready hroom hin), wireFir_length _ _,
    s.tx.stored_putBytes _ _⟩

/-! ## Build and parse together (R133) -/

/-- The header that `HDR.PARSE` reads from a built FIR block of `n` entries at `base`. -/
def firHdr (p : Params) (n base : Nat) : Hdr :=
  ⟨2, false, p.firFmt, p.psfbPt, BitVec.ofNat 16 (2 + 2 * n), base⟩

theorem firHdr_isFir (p : Params) (n base : Nat) : isFir p (firHdr p n base) = true :=
  (isFir_iff _ _).2 ⟨rfl, rfl⟩

/-- The length field holds the length of every list the build takes. -/
theorem firHdr_lengthWords {p : Params} {n base : Nat} (hn : n ≤ 32766) :
    (firHdr p n base).lengthWords.toNat = 2 + 2 * n := by
  simp only [firHdr, BitVec.toNat_ofNat]
  omega

/-- `HDR.PARSE` of the bytes of a FIR block accepts its header. -/
theorem execHdrParse_wireFir {base : Nat} {f : Fir} (hn : f.reqs.length ≤ 32766)
    (hin : base + (12 + 8 * f.reqs.length) ≤ s.params.rxSize)
    (hb : HoldsBytes s.rx base (wireFir s.params f)) :
    execHdrParse base (12 + 8 * f.reqs.length) s =
      .next { s with hdr := some (firHdr s.params f.reqs.length base), status := .ok } := by
  obtain ⟨hhdr, -, -⟩ := holdsBytes_wireFir.1 hb
  have hr : readHeader s base = .ok (firHdr s.params f.reqs.length base) :=
    readHeader_eq_ok_iff.2 ⟨by omega, hhdr⟩
  have hok : headerOk (firHdr s.params f.reqs.length base) (12 + 8 * f.reqs.length) = true := by
    have hsize : (firHdr s.params f.reqs.length base).blockSize ≤ 12 + 8 * f.reqs.length := by
      rw [Hdr.blockSize, firHdr_lengthWords hn]
      omega
    exact Bool.and_eq_true_iff.2 ⟨rfl, decide_eq_true hsize⟩
  rw [execHdrParse_of_readHeader hin (by omega) hr, if_pos hok]

theorem execDispatch_of_isFir {h : Hdr} (hh : s.hdr = some h) (hfir : isFir s.params h = true) :
    execDispatch s = .next { s with status := .ok, result := .kind .fir } := by
  rw [execDispatch_of_hdr hh, kindOf, if_pos hfir]

/-- `FIR.PARSE` of the bytes of a FIR block gives the message, `media_ssrc` being 0 on the wire. -/
theorem execFirParse_wireFir {base : Nat} {f : Fir}
    (hh : s.hdr = some (firHdr s.params f.reqs.length base)) (h1 : 1 ≤ f.reqs.length)
    (hn : f.reqs.length ≤ 32766) (hin : base + (12 + 8 * f.reqs.length) ≤ s.params.rxSize)
    (hb : HoldsBytes s.rx base (wireFir s.params f)) :
    execFirParse s = .next { s with fir := some { f with mediaSsrc := 0 }, status := .ok } := by
  obtain ⟨-, hssrcs, hreqs⟩ := holdsBytes_wireFir.1 hb
  have hin' : base + 12 + 8 * f.reqs.length ≤ s.params.rxSize := by omega
  exact execFirParse_of_holdsBytes hh (firHdr_isFir _ _ _) h1 (firHdr_lengthWords hn) hin' hssrcs
    fun i hi => (holdsBytes_wireRequest.1 (hreqs i hi)).1

/-- Settles O24: RX holds the wire form of the message, which the two parses read back. -/
theorem firBuildThenParse : Obligations.FirBuildThenParse := by
  unfold Obligations.FirBuildThenParse
  intro s t u f base hready hroom hduty hx hp hin hcopy
  have ⟨_, h1, hn⟩ := hready
  obtain ⟨-, -, hstored⟩ := execFirBuild_stores hready hroom (hroom.trans hduty) hx
  have hb : HoldsBytes u.rx base (wireFir u.params f) := by
    rw [hp]
    exact hstored.congr fun i hi => hcopy i (by rwa [wireFir_length] at hi)
  let u1 : State := { u with hdr := some (firHdr u.params f.reqs.length base), status := .ok }
  let u2 : State := { u1 with result := .kind .fir }
  have hdispatch : exec .dispatch u1 = .next u2 :=
    execDispatch_of_isFir (s := u1) rfl (firHdr_isFir _ _ _)
  exact ⟨u1, u2, execHdrParse_wireFir hn hin hb, rfl, hdispatch, rfl,
    execFirParse_wireFir (s := u2) rfl h1 hn hin hb⟩

/-- The bytes of a block that both parses accept are the wire form of the message, where the padding flag,
`media_ssrc` and the reserved bytes are 0. -/
theorem holdsBytes_wireFir_of_parsed {base : Nat} {h : Hdr} {f : Fir}
    (hhdr : readHeader s base = .ok h) (hver : h.version = 2) (hpad : h.hasPadding = false)
    (hfir : isFir s.params h = true) (hlen : h.lengthWords.toNat = 2 + 2 * f.reqs.length)
    (hr : readFir s h = .ok f) (hmedia : f.mediaSsrc = 0)
    (hzero : ∀ i, i < f.reqs.length → HoldsBytes s.rx (base + 17 + 8 * i) [0, 0, 0]) :
    HoldsBytes s.rx base (wireFir s.params f) := by
  have hbase : h.base = base := readHeader_base hhdr
  obtain ⟨hssrcs, -, hreqs⟩ := readFir_ok hr
  rw [hmedia] at hssrcs
  rw [hbase] at hssrcs hreqs
  obtain ⟨hpt, hfmt⟩ := (isFir_iff _ _).1 hfir
  have hl : h.lengthWords = BitVec.ofNat 16 (2 + 2 * f.reqs.length) := by
    rw [← hlen, BitVec.ofNat_toNat, BitVec.setWidth_eq]
  have hh : h = firHdr s.params f.reqs.length base :=
    calc h = ⟨h.version, h.hasPadding, h.formatOrCount, h.packetType, h.lengthWords, h.base⟩ := rfl
      _ = firHdr s.params f.reqs.length base := by rw [hver, hpad, hfmt, hpt, hl, hbase, firHdr]
  rw [hh] at hhdr
  refine holdsBytes_wireFir.2 ⟨(readHeader_eq_ok_iff.1 hhdr).2, hssrcs, fun i hi => ?_⟩
  refine holdsBytes_wireRequest.2 ⟨hreqs i hi, ?_⟩
  have hreserved := hzero i hi
  rwa [show base + 17 + 8 * i = base + 12 + 8 * i + 5 by omega] at hreserved

/-- Settles O26: the parsed block and the built one are both the wire form of the message. -/
theorem firParseThenBuild : Obligations.FirParseThenBuild := by
  unfold Obligations.FirParseThenBuild
  intro s t u v base avail h f _ hhp hth _ hfp hufatal _ huf hpad hmedia hzero hroom hduty hx
  obtain ⟨hfir, hsize, hmod, hr, rfl⟩ := execFirParse_accepted hfp hth hufatal huf
  obtain ⟨c, op, rfl⟩ | rfl | ⟨x, hhdr, hver, -, -, rfl⟩ := execHdrParse_next hhp
  · simp at hufatal
  · cases hth
  · cases hth
    obtain ⟨-, hn, -⟩ := readFir_ok hr
    have hbound := h.lengthWords.isLt
    simp only [Hdr.payloadSize] at hsize hmod hn
    have hlen : h.lengthWords.toNat = 2 + 2 * f.reqs.length := by omega
    have hblock : h.blockSize = 12 + 8 * f.reqs.length := by simp only [Hdr.blockSize]; omega
    have hrx : HoldsBytes s.rx base (wireFir s.params f) :=
      holdsBytes_wireFir_of_parsed (s := { s with hdr := some h, status := .ok }) hhdr hver hpad
        hfir hlen hr hmedia hzero
    rw [hblock] at hroom ⊢
    obtain ⟨hstatus, hcur, hstored⟩ :=
      execFirBuild_stores (f := f) ⟨rfl, by omega, by omega⟩ hroom (hroom.trans hduty) hx
    refine ⟨hstatus, hcur, fun i hi => ?_⟩
    have hi' : i < (wireFir s.params f).length := by rwa [wireFir_length]
    exact (hstored i hi').trans (hrx i hi').symm

end Sys2Proof.Machine

/-! PROOFS. Bytes of RX without value (10_state.md R33, log 7): where each reader stops, and the operations
that read RX. -/

namespace Sys2Proof.Machine

variable {s : State}

/-! ## The first byte without value -/

/-- Every byte of a range holds a value. -/
def Written (m : Memory) (a b : Nat) : Prop := ∀ x, a ≤ x → x < b → (m.byte? x).isSome = true

theorem Written.mono {m : Memory} {a b a' b' : Nat} (h : Written m a b) (ha : a ≤ a') (hb : b' ≤ b) :
    Written m a' b' :=
  fun x h1 h2 => h x (ha.trans h1) (h2.trans_le hb)

/-- From `a` on, `e` is the first byte that holds no value. -/
structure FirstGap (m : Memory) (a e : Nat) : Prop where
  le : a ≤ e
  noValue : m.byte? e = none
  before : Written m a e

theorem FirstGap.written {m : Memory} {a e : Nat} (h : FirstGap m a e) {a' b : Nat} (ha : a ≤ a')
    (hb : b ≤ e) : Written m a' b :=
  h.before.mono ha hb

/-- A reader that has got past some bytes has the same first byte without value ahead. -/
theorem FirstGap.later {m : Memory} {a e : Nat} (h : FirstGap m a e) {a' : Nat} (ha : a ≤ a')
    (he : a' ≤ e) : FirstGap m a' e :=
  ⟨he, h.noValue, h.written ha le_rfl⟩

theorem Memory.read_firstGap {m : Memory} {a n e : Nat} (h : FirstGap m a e) (hhi : e < a + n) :
    m.read a n = .error e := by
  induction n generalizing a with
  | zero => exact absurd h.le (Nat.not_le.2 hhi)
  | succ n ih =>
    rcases h.le.eq_or_lt with rfl | hlt
    · simp only [Memory.read, h.noValue]
    · obtain ⟨b, hb⟩ := Option.isSome_iff_exists.1 (h.before a le_rfl hlt)
      simp only [Memory.read, hb, ih (h.later (Nat.le_succ a) hlt) (by omega)]

/-! ## The readers -/

theorem readBE_firstGap {w : Width} {a e : Nat} (h : FirstGap s.rx a e) (hhi : e < a + w.bytes)
    (hin : a + w.bytes ≤ s.params.rxSize) : readBE s w a = .error (.noValue e) := by
  simp only [readBE, if_pos hin, Memory.read_firstGap h hhi]

theorem readBE_written {w : Width} {a : Nat} (h : Written s.rx a (a + w.bytes))
    (hin : a + w.bytes ≤ s.params.rxSize) : ∃ v, readBE s w a = .ok v := by
  obtain ⟨bs, hl, hb⟩ := s.rx.exists_holdsBytes a w.bytes h
  exact ⟨_, readBE_of_holdsBytes hl hin hb⟩

theorem readBE_w1_firstGap {a e : Nat} (h : FirstGap s.rx a e) (hhi : e < a + 1)
    (hin : a + 1 ≤ s.params.rxSize) : readBE s .w1 a = .error (.noValue e) :=
  readBE_firstGap h hhi hin

theorem readBE_w1_written {a : Nat} (h : Written s.rx a (a + 1)) (hin : a + 1 ≤ s.params.rxSize) :
    ∃ v, readBE s .w1 a = .ok v :=
  readBE_written h hin

theorem readBE_w4_firstGap {a e : Nat} (h : FirstGap s.rx a e) (hhi : e < a + 4)
    (hin : a + 4 ≤ s.params.rxSize) : readBE s .w4 a = .error (.noValue e) :=
  readBE_firstGap h hhi hin

theorem readBE_w4_written {a : Nat} (h : Written s.rx a (a + 4)) (hin : a + 4 ≤ s.params.rxSize) :
    ∃ v, readBE s .w4 a = .ok v :=
  readBE_written h hin

theorem readFeedback_written {p : Nat} (h : Written s.rx p (p + 8))
    (hin : p + 8 ≤ s.params.rxSize) : ∃ x, readFeedback s p = .ok x := by
  obtain ⟨a, ha⟩ := readBE_w4_written (s := s) (a := p) (h.mono le_rfl (by omega)) (by omega)
  obtain ⟨b, hb⟩ := readBE_w4_written (s := s) (a := p + 4) (h.mono (by omega) le_rfl) hin
  simp only [readFeedback, ha, hb, bind, Except.bind, pure, Except.pure]
  exact ⟨_, rfl⟩

/-- The first SSRC is read before the bounds of the second are tested. -/
theorem readFeedback_firstGap {p e : Nat} (h : FirstGap s.rx p e)
    (hin : e < p + 4 ∧ p + 4 ≤ s.params.rxSize ∨ e < p + 8 ∧ p + 8 ≤ s.params.rxSize) :
    readFeedback s p = .error (.noValue e) := by
  rcases Nat.lt_or_ge e (p + 4) with h4 | h4
  · have ha : readBE s .w4 p = .error (.noValue e) := readBE_w4_firstGap h h4 (by omega)
    simp only [readFeedback, ha, bind, Except.bind]
  · have hin' : p + 8 ≤ s.params.rxSize := by omega
    obtain ⟨a, ha⟩ := readBE_w4_written (s := s) (a := p) (h.written le_rfl h4) (by omega)
    have hb : readBE s .w4 (p + 4) = .error (.noValue e) :=
      readBE_w4_firstGap (h.later (by omega) h4) (by omega) hin'
    simp only [readFeedback, ha, hb, bind, Except.bind]

theorem readHeader_firstGap {base e : Nat} (h : FirstGap s.rx base e) (hhi : e < base + 4)
    (hin : base + 4 ≤ s.params.rxSize) : readHeader s base = .error (.noValue e) := by
  rcases Nat.lt_or_ge e (base + 1) with h1 | h1
  · have h0 : readBE s .w1 base = .error (.noValue e) := readBE_w1_firstGap h h1 (by omega)
    simp only [readHeader, h0, bind, Except.bind]
  · obtain ⟨b0, hb0⟩ := readBE_w1_written (s := s) (a := base) (h.written le_rfl h1) (by omega)
    rcases Nat.lt_or_ge e (base + 2) with h2 | h2
    · have hb1 : readBE s .w1 (base + 1) = .error (.noValue e) :=
        readBE_w1_firstGap (h.later (by omega) h1) h2 (by omega)
      simp only [readHeader, hb0, hb1, bind, Except.bind]
    · obtain ⟨b1, hb1⟩ := readBE_w1_written (s := s) (a := base + 1)
        (h.written (by omega) h2) (by omega)
      have hlw : readBE s .w2 (base + 2) = .error (.noValue e) :=
        readBE_firstGap (h.later (by omega) h2) hhi hin
      simp only [readHeader, hb0, hb1, hlw, bind, Except.bind]

/-- The reader of the entries comes to the first 5 of the 8 bytes of each (43_fir.md R130). -/
theorem readRequests_noValue {b n e : Nat} (hlo : b ≤ e) (hhi : e < b + 8 * n)
    (hin : b + 8 * n ≤ s.params.rxSize) (hread : (e - b) % 8 < 5) (hnone : s.rx.byte? e = none)
    (hw : ∀ x, b ≤ x → x < e → (x - b) % 8 < 5 → (s.rx.byte? x).isSome = true) :
    readRequests s b n = .error (.noValue e) := by
  induction n generalizing b with
  | zero => omega
  | succ n ih =>
    rcases Nat.lt_or_ge e (b + 8) with h8 | h8
    · have hgap : FirstGap s.rx b e := ⟨hlo, hnone, fun x h1 h2 => hw x h1 h2 (by omega)⟩
      rcases Nat.lt_or_ge e (b + 4) with h4 | h4
      · have hssrc : readBE s .w4 b = .error (.noValue e) := readBE_w4_firstGap hgap h4 (by omega)
        simp only [readRequests, hssrc, bind, Except.bind]
      · obtain ⟨v, hssrc⟩ := readBE_w4_written (s := s) (a := b) (hgap.written le_rfl h4) (by omega)
        have hseq : readBE s .w1 (b + 4) = .error (.noValue e) :=
          readBE_w1_firstGap (hgap.later (by omega) h4) (by omega) (by omega)
        simp only [readRequests, hssrc, hseq, bind, Except.bind]
    · have hentry : Written s.rx b (b + 5) := fun x h1 h2 => hw x h1 (by omega) (by omega)
      obtain ⟨v, hssrc⟩ := readBE_w4_written (s := s) (a := b)
        (hentry.mono le_rfl (by omega)) (by omega)
      obtain ⟨q, hseq⟩ := readBE_w1_written (s := s) (a := b + 4)
        (hentry.mono (by omega) le_rfl) (by omega)
      have hrest : readRequests s (b + 8) n = .error (.noValue e) :=
        ih h8 (by omega) (by omega) (by omega)
          fun x h1 h2 h3 => hw x (by omega) h2 (by omega)
      simp only [readRequests, hssrc, hseq, hrest, bind, Except.bind]

theorem readFir_noValue {h : Hdr} {e : Nat} (hmod : (h.payloadSize - 8) % 8 = 0)
    (hlo : h.payload ≤ e) (hhi : e < h.payload + h.payloadSize)
    (hin : h.payload + h.payloadSize ≤ s.params.rxSize)
    (hread : e < h.payload + 8 ∨ (e - (h.payload + 8)) % 8 < 5) (hnone : s.rx.byte? e = none)
    (hw : ∀ x, h.payload ≤ x → x < e → x < h.payload + 8 ∨ (x - (h.payload + 8)) % 8 < 5 →
      (s.rx.byte? x).isSome = true) (hsize : 8 ≤ h.payloadSize) :
    readFir s h = .error (.noValue e) := by
  rcases Nat.lt_or_ge e (h.payload + 8) with h8 | h8
  · have hfb : readFeedback s h.payload = .error (.noValue e) :=
      readFeedback_firstGap ⟨hlo, hnone, fun x h1 h2 => hw x h1 h2 (.inl (by omega))⟩
        (.inr ⟨h8, by omega⟩)
    simp only [readFir, hfb, bind, Except.bind]
  · obtain ⟨x, hfb⟩ := readFeedback_written (s := s) (p := h.payload)
      (fun x h1 h2 => hw x h1 (by omega) (.inl h2)) (by omega)
    have hrs : readRequests s (h.payload + 8) ((h.payloadSize - 8) / 8) = .error (.noValue e) :=
      readRequests_noValue h8 (by omega) (by omega) (hread.resolve_left (by omega)) hnone
        fun x h1 h2 h3 => hw x (by omega) h2 (.inr h3)
    simp only [readFir, hfb, hrs, bind, Except.bind]

theorem readRegion_firstGap {a n acc e : Nat} (h : FirstGap s.rx a e) (hhi : e < a + n)
    (hin : a + n ≤ s.params.rxSize) : readRegion s a n acc = .error (.noValue e) := by
  induction n generalizing a acc with
  | zero => exact absurd h.le (Nat.not_le.2 hhi)
  | succ n ih =>
    rcases Nat.lt_or_ge e (a + 1) with h1 | h1
    · have hb : readBE s .w1 a = .error (.noValue e) := readBE_w1_firstGap h h1 (by omega)
      simp only [readRegion, hb, bind, Except.bind]
    · obtain ⟨b, hb⟩ := readBE_w1_written (s := s) (a := a) (h.written le_rfl h1) (by omega)
      simp only [readRegion, hb, bind, Except.bind]
      exact ih (h.later (by omega) h1) (by omega) (by omega)

/-- Behind a padding count below 8 the reader of an RPSI message comes to every byte of the payload
(44_rpsi.md R140). -/
theorem readRpsi_firstGap {h : Hdr} {e : Nat} (hsize : 11 ≤ h.payloadSize)
    (hgap : FirstGap s.rx h.payload e) (hhi : e < h.payload + h.payloadSize)
    (hin : h.payload + h.payloadSize ≤ s.params.rxSize)
    (hpad : ∀ pc, h.payload + 8 < e → s.rx.byte? (h.payload + 8) = some pc → pc.toNat < 8) :
    readRpsi s h = .error (.noValue e) := by
  rcases Nat.lt_or_ge e (h.payload + 8) with h8 | h8
  · have hfb : readFeedback s h.payload = .error (.noValue e) :=
      readFeedback_firstGap hgap (.inr ⟨h8, by omega⟩)
    simp only [readRpsi, hfb, bind, Except.bind]
  · obtain ⟨x, hfb⟩ := readFeedback_written (s := s) (hgap.written le_rfl h8) (by omega)
    rcases h8.eq_or_lt with h8 | h9
    · have hpc : readBE s .w1 (h.payload + 8) = .error (.noValue e) :=
        readBE_w1_firstGap (hgap.later (by omega) h8.le) (by omega) (by omega)
      simp only [readRpsi, hfb, hpc, bind, Except.bind]
    · have hsome := hgap.written (a' := h.payload + 8) (b := e) (by omega) le_rfl _ le_rfl h9
      obtain ⟨pc, hb⟩ := Option.isSome_iff_exists.1 hsome
      have hpc : readBE s .w1 (h.payload + 8) = .ok pc.toNat := readBE_w1 hb (by omega)
      have hlt : ¬ 8 ≤ pc.toNat := Nat.not_le.2 (hpad pc h9 hb)
      simp only [readRpsi, hfb, hpc, bind, Except.bind, if_neg hlt]
      rcases Nat.lt_or_ge e (h.payload + 10) with h10 | h10
      · have hptb : readBE s .w1 (h.payload + 9) = .error (.noValue e) :=
          readBE_w1_firstGap (hgap.later (by omega) h9) h10 (by omega)
        simp only [hptb]
      · obtain ⟨ptb, hptb⟩ := readBE_w1_written (s := s) (a := h.payload + 9)
          (hgap.written (by omega) h10) (by omega)
        have hregion : readRegion s (h.payload + 10) (h.payloadSize - 10) 0 =
            .error (.noValue e) :=
          readRegion_firstGap (hgap.later (by omega) h10) (by omega) (by omega)
        simp only [hptb, hregion]

/-! ## The operations -/

theorem runRead_firstGap {w : Width} {a e : Nat} (h : FirstGap s.rx a e) (hhi : e < a + w.bytes)
    (hin : a + w.bytes ≤ s.params.rxSize) : runRead w a s = .fault (.rxNoValue e) := by
  simp only [runRead, readBE_firstGap h hhi hin, State.stopped]

theorem execFbRd_firstGap {a e : Nat} (h : FirstGap s.rx a e)
    (hin : e < a + 4 ∧ a + 4 ≤ s.params.rxSize ∨ e < a + 8 ∧ a + 8 ≤ s.params.rxSize) :
    execFbRd a s = .fault (.rxNoValue e) := by
  simp only [execFbRd, readFeedback_firstGap h hin, State.stopped]

theorem execHdrParse_firstGap {base avail e : Nat} (h : FirstGap s.rx base e) (h4 : 4 ≤ avail)
    (hhi : e < base + 4) (hin : base + avail ≤ s.params.rxSize) :
    execHdrParse base avail s = .fault (.rxNoValue e) := by
  simp only [execHdrParse, readHeader_firstGap h hhi (by omega), State.stopped]
  rw [if_neg (Nat.not_lt.2 hin), if_neg (Nat.not_lt.2 h4)]

theorem execRpsiParse_stopped {h : Hdr} {x : Stop} (hh : s.hdr = some h)
    (hrpsi : isRpsi s.params h = true) (hsize : 11 ≤ h.payloadSize) (hr : readRpsi s h = .error x) :
    execRpsiParse s = s.stopped x := by
  simp only [execRpsiParse_of_hdr hh, hr]
  rw [if_pos hrpsi, if_neg (Nat.not_lt.2 hsize)]

/-- Settles O2: each operation stops where its reader does, at the first byte without value. -/
theorem valuelessRxByteFaults : Obligations.ValuelessRxByteFaults := by
  unfold Obligations.ValuelessRxByteFaults
  intro s a e hlo hnone
  refine ⟨fun hw => ?_, fun h hh ha hhi hin hpt => ⟨fun hfmt hsize hmod hread hw => ?_,
    fun hfmt _ hsize hw hpad => ?_⟩⟩
  · have hgap : FirstGap s.rx a e := ⟨hlo, hnone, hw⟩
    exact ⟨runRead_firstGap (w := .w1) hgap, runRead_firstGap (w := .w2) hgap,
      runRead_firstGap (w := .w3) hgap, runRead_firstGap (w := .w4) hgap, execFbRd_firstGap hgap,
      fun _ => execHdrParse_firstGap hgap⟩
  · subst ha
    exact execFirParse_stopped hh ((isFir_iff _ _).2 ⟨hpt, hfmt⟩) hsize hmod
      (readFir_noValue hmod hlo hhi hin hread hnone hw ((by decide : 8 ≤ 16).trans hsize))
  · subst ha
    exact execRpsiParse_stopped hh ((isRpsi_iff _ _).2 ⟨hpt, hfmt⟩) hsize
      (readRpsi_firstGap hsize ⟨hlo, hnone, hw⟩ hhi hin hpad)

end Sys2Proof.Machine

/-! PROOFS. The Rpsi codec (44_rpsi.md): which payloads stand for a message, the payload as bytes of a memory,
how `RPSI.PARSE` and `RPSI.BUILD` end, and the properties R142 and R144. -/

namespace Sys2Proof.Machine

variable {s t : State}

/-! ## The message of a region (R140, R142) -/

/-- A region of `len` bytes that stand for `v` holds a picture identifier above `pc` padding bits. -/
def RegionAccepted (p : Params) (pc len v : Nat) : Prop :=
  v % 2 ^ pc = 0 ∧ v / 2 ^ pc < 2 ^ 64 ∧
    (p.rpsiCanonical = true → pc = padBits (v / 2 ^ pc) ∧ len = regionLen (v / 2 ^ pc))

theorem canonical_iff (id pc len : Nat) :
    canonical id pc len = true ↔ pc = padBits id ∧ len = regionLen id := by
  simp [canonical]

/-- The last test of `RPSI.PARSE` fails exactly where canonical form is asked for and missing. -/
theorem canonical_test_iff (c : Bool) (id pc len : Nat) :
    (c && !canonical id pc len) = true ↔
      ¬ (c = true → pc = padBits id ∧ len = regionLen id) := by
  simp [← canonical_iff]

theorem rpsiOf_of_accepted {p : Params} {pc len v : Nat} (h : RegionAccepted p pc len v)
    (ssrcs : Ssrc × Ssrc) (ptb : Nat) :
    rpsiOf p ssrcs pc ptb len v =
      some ⟨ssrcs.1, ssrcs.2, BitVec.ofNat 7 ptb, BitVec.ofNat 64 (v / 2 ^ pc)⟩ := by
  obtain ⟨hmod, hlt, hcanon⟩ := h
  rw [rpsiOf, if_neg (not_not_intro hmod), if_neg (Nat.not_le.2 hlt),
    if_neg (by rwa [canonical_test_iff, not_not])]

theorem rpsiOf_of_not_accepted {p : Params} {pc len v : Nat} (h : ¬ RegionAccepted p pc len v)
    (ssrcs : Ssrc × Ssrc) (ptb : Nat) : rpsiOf p ssrcs pc ptb len v = none := by
  by_cases hmod : v % 2 ^ pc = 0
  · by_cases hlt : v / 2 ^ pc < 2 ^ 64
    · have htest := (canonical_test_iff ..).2 fun hcanon => h ⟨hmod, hlt, hcanon⟩
      rw [rpsiOf, if_neg (not_not_intro hmod), if_neg (Nat.not_le.2 hlt), if_pos htest]
    · rw [rpsiOf, if_neg (not_not_intro hmod), if_pos (Nat.not_lt.1 hlt)]
  · rw [rpsiOf, if_pos hmod]

theorem rpsiOf_some {p : Params} {ssrcs : Ssrc × Ssrc} {pc ptb len v : Nat} {m : Rpsi}
    (h : rpsiOf p ssrcs pc ptb len v = some m) :
    RegionAccepted p pc len v ∧
      m = ⟨ssrcs.1, ssrcs.2, BitVec.ofNat 7 ptb, BitVec.ofNat 64 (v / 2 ^ pc)⟩ := by
  by_cases ha : RegionAccepted p pc len v
  · rw [rpsiOf_of_accepted ha] at h
    exact ⟨ha, (Option.some.inj h).symm⟩
  · rw [rpsiOf_of_not_accepted ha] at h
    cases h

/-- An identifier of 64 bits moved up by the padding count is accepted, where canonical form is asked for
only in that form. -/
theorem regionAccepted_mul {p : Params} {id pc len : Nat} (hid : id < 2 ^ 64)
    (hcanon : p.rpsiCanonical = true → pc = padBits id ∧ len = regionLen id) :
    RegionAccepted p pc len (id * 2 ^ pc) := by
  have hdiv : id * 2 ^ pc / 2 ^ pc = id := Nat.mul_div_cancel _ (Nat.two_pow_pos pc)
  exact ⟨Nat.mul_mod_left _ _, by rwa [hdiv], by rwa [hdiv]⟩

/-! ## A payload as bytes of a memory (30_encoding.md R72, R74, R75) -/

/-- The payload of an RPSI block: the two SSRCs, the padding count, the payload-type byte, the region. -/
def rpsiPayload (ssrcs : Ssrc × Ssrc) (pc ptb : Byte) (region : List Byte) : List Byte :=
  wire32 ssrcs.1 ++ wire32 ssrcs.2 ++ [pc, ptb] ++ region

@[simp] theorem rpsiPayload_length (ssrcs : Ssrc × Ssrc) (pc ptb : Byte) (region : List Byte) :
    (rpsiPayload ssrcs pc ptb region).length = 10 + region.length := by
  simp only [rpsiPayload, List.length_append, List.length_cons, List.length_nil, wire32_length]

/-- Another payload-type byte makes the payload differ in its tenth byte only. -/
theorem rpsiPayload_set (ssrcs : Ssrc × Ssrc) (pc ptb ptb' : Byte) (region : List Byte) :
    (rpsiPayload ssrcs pc ptb region).set 9 ptb' = rpsiPayload ssrcs pc ptb' region := rfl

theorem rpsiPayload_concat (ssrcs : Ssrc × Ssrc) (pc ptb b : Byte) (region : List Byte) :
    rpsiPayload ssrcs pc ptb (region ++ [b]) = rpsiPayload ssrcs pc ptb region ++ [b] :=
  (List.append_assoc _ _ _).symm

theorem holdsBytes_rpsiPayload {m : Memory} {a : Nat} {ssrcs : Ssrc × Ssrc} {pc ptb : Byte}
    {region : List Byte} :
    HoldsBytes m a (rpsiPayload ssrcs pc ptb region) ↔
      HoldsBytes m a (wire32 ssrcs.1 ++ wire32 ssrcs.2) ∧ m.byte? (a + 8) = some pc ∧
        m.byte? (a + 9) = some ptb ∧ HoldsBytes m (a + 10) region := by
  rw [rpsiPayload, List.append_assoc _ [pc, ptb], HoldsBytes.append]
  simp only [List.cons_append, List.nil_append, HoldsBytes.cons, List.length_append, wire32_length,
    Nat.add_assoc, Nat.reduceAdd]

/-- The last of the bytes held replaced by another. -/
theorem HoldsBytes.put_last {m : Memory} {a : Nat} {bs : List Byte} {c : Byte}
    (h : HoldsBytes m a (bs ++ [c])) (b : Byte) :
    HoldsBytes (m.put (a + bs.length) b) a (bs ++ [b]) := by
  obtain ⟨hbs, -⟩ := HoldsBytes.append.1 h
  refine HoldsBytes.append.2 ⟨hbs.congr fun i hi => ?_, ?_⟩
  · exact Memory.byte?_put_ne m b (by omega)
  · exact HoldsBytes.cons.2 ⟨Memory.byte?_put_self m _ b, HoldsBytes.nil _ _⟩

/-- RX holds the payload of the block of `h` whole, with a region of at least one byte and a padding count
below 8. -/
structure HoldsPayload (s : State) (h : Hdr) (ssrcs : Ssrc × Ssrc) (pc ptb : Byte)
    (region : List Byte) : Prop where
  nonempty : 1 ≤ region.length
  size : h.payloadSize = 10 + region.length
  inRx : h.base + 14 + region.length ≤ s.params.rxSize
  bytes : HoldsBytes s.rx (h.base + 4) (rpsiPayload ssrcs pc ptb region)
  padding : pc.toNat < 8

theorem HoldsPayload.eleven_le {h : Hdr} {ssrcs : Ssrc × Ssrc} {pc ptb : Byte} {region : List Byte}
    (hp : HoldsPayload s h ssrcs pc ptb region) : 11 ≤ h.payloadSize := by
  rw [hp.size]
  exact Nat.add_le_add_left hp.nonempty 10

/-! ## The reader of a message -/

/-- The reader of a message leaves the answer to the tests of the region (R140). -/
theorem readRpsi_of_holdsPayload {h : Hdr} {ssrcs : Ssrc × Ssrc} {pc ptb : Byte}
    {region : List Byte} (hp : HoldsPayload s h ssrcs pc ptb region) :
    readRpsi s h =
      .ok (rpsiOf s.params ssrcs pc.toNat ptb.toNat region.length (bigEndian region)) := by
  obtain ⟨-, hsize, hin, hb, hpc⟩ := hp
  obtain ⟨hssrcs, hb8, hb9, hregion⟩ := holdsBytes_rpsiPayload.1 hb
  have hbase : h.payload = h.base + 4 := rfl
  rw [← hbase] at hssrcs hb8 hb9 hregion
  have hfb : readFeedback s h.payload = .ok ssrcs := readFeedback_of_holdsBytes (by omega) hssrcs
  have h8 : readBE s .w1 (h.payload + 8) = .ok pc.toNat := readBE_w1 hb8 (by omega)
  have h9 : readBE s .w1 (h.payload + 9) = .ok ptb.toNat := readBE_w1 hb9 (by omega)
  have hn : h.payloadSize - 10 = region.length := by omega
  have hr : readRegion s (h.payload + 10) region.length 0 = .ok (bigEndian region) := by
    rw [readRegion_of_holdsBytes (by omega) hregion, Nat.zero_mul, Nat.zero_add]
  simp only [readRpsi, hfb, h8, h9, hn, hr, bind, Except.bind, pure, Except.pure,
    if_neg (Nat.not_le.2 hpc)]

/-- A padding count of 8 or more ends the reader before the payload-type byte (R140). -/
theorem readRpsi_of_wide_padding {h : Hdr} {sender media : Ssrc} {pc : Byte}
    (hin : h.base + 13 ≤ s.params.rxSize)
    (hb : HoldsBytes s.rx (h.base + 4) (wire32 sender ++ wire32 media ++ [pc]))
    (hpc : 8 ≤ pc.toNat) : readRpsi s h = .ok none := by
  obtain ⟨hssrcs, hb8⟩ := HoldsBytes.append.1 hb
  have hbase : h.payload = h.base + 4 := rfl
  have hfb : readFeedback s h.payload = .ok (sender, media) :=
    readFeedback_of_holdsBytes (by omega) hssrcs
  have h8 : readBE s .w1 (h.payload + 8) = .ok pc.toNat :=
    readBE_w1 (HoldsBytes.cons.1 hb8).1 (by omega)
  simp only [readRpsi, hfb, h8, bind, Except.bind, pure, Except.pure, if_pos hpc]

/-- Where the reader answers a message, RX holds the payload it stands for (R140). -/
theorem readRpsi_some {h : Hdr} {m : Rpsi} (hsize : 11 ≤ h.payloadSize)
    (hr : readRpsi s h = .ok (some m)) :
    ∃ ssrcs pc ptb region, HoldsPayload s h ssrcs pc ptb region ∧
      rpsiOf s.params ssrcs pc.toNat ptb.toNat region.length (bigEndian region) = some m := by
  have hread := hr
  simp only [readRpsi, bind, Except.bind, pure, Except.pure] at hr
  split at hr
  · cases hr
  · next ssrcs hssrcs =>
    split at hr
    · cases hr
    · next x hx =>
      split at hr
      · cases hr
      · next hpc =>
        split at hr
        · cases hr
        · next y hy =>
          split at hr
          · cases hr
          · next v hv =>
            obtain ⟨-, hfb⟩ := readFeedback_ok hssrcs
            obtain ⟨-, xs, lx, hb8, rfl⟩ := readBE_ok hx
            obtain ⟨-, ys, ly, hb9, -⟩ := readBE_ok hy
            obtain ⟨region, hn, hregion, hin, -⟩ := readRegion_ok hv
            obtain ⟨pc, rfl⟩ := List.length_eq_one_iff.1 lx
            obtain ⟨ptb, rfl⟩ := List.length_eq_one_iff.1 ly
            rw [bigEndian_singleton] at hpc
            simp only [Hdr.payload] at hin
            have hp : HoldsPayload s h ssrcs pc ptb region :=
              ⟨by omega, by omega, by omega, holdsBytes_rpsiPayload.2
                ⟨hfb, (HoldsBytes.cons.1 hb8).1, (HoldsBytes.cons.1 hb9).1, hregion⟩, by omega⟩
            rw [readRpsi_of_holdsPayload hp] at hread
            exact ⟨ssrcs, pc, ptb, region, hp, Except.ok.inj hread⟩

/-! ## `RPSI.PARSE` -/

theorem execRpsiParse_of_none (hf : s.fatal = none) (hh : s.hdr = none) :
    execRpsiParse s = .next { s with fatal := some ⟨.invalidRegister, 0x30⟩ } := by
  simp only [execRpsiParse, hh, State.raise_of_none hf]

theorem execRpsiParse_of_not_isRpsi {h : Hdr} (hh : s.hdr = some h) (hf : s.fatal = none)
    (hrpsi : ¬ isRpsi s.params h = true) :
    execRpsiParse s = .next { s with fatal := some ⟨.wrongDispatch, 0x30⟩ } := by
  rw [execRpsiParse_of_hdr hh, if_neg hrpsi, State.raise_of_none hf]

theorem execRpsiParse_tooShort {h : Hdr} (hh : s.hdr = some h) (hrpsi : isRpsi s.params h = true)
    (hsize : h.payloadSize < 11) : execRpsiParse s = .next (s.badRpsi .tooShort) := by
  rw [execRpsiParse_of_hdr hh, if_pos hrpsi, if_pos hsize]

/-- With the size test passed a reader without a message makes it `BadPadding`. -/
theorem execRpsiParse_badPadding {h : Hdr} (hh : s.hdr = some h) (hrpsi : isRpsi s.params h = true)
    (hsize : 11 ≤ h.payloadSize) (hr : readRpsi s h = .ok none) :
    execRpsiParse s = .next (s.badRpsi .badPadding) := by
  simp only [execRpsiParse_of_hdr hh, hr]
  rw [if_pos hrpsi, if_neg (Nat.not_lt.2 hsize)]

/-- With the size test passed a message that is read is the one kept. -/
theorem execRpsiParse_of_readRpsi {h : Hdr} {m : Rpsi} (hh : s.hdr = some h)
    (hrpsi : isRpsi s.params h = true) (hsize : 11 ≤ h.payloadSize)
    (hr : readRpsi s h = .ok (some m)) :
    execRpsiParse s = .next { s with rpsi := some m, status := .ok } := by
  simp only [execRpsiParse_of_hdr hh, hr]
  rw [if_pos hrpsi, if_neg (Nat.not_lt.2 hsize)]

/-- A payload with an accepted region is decoded. -/
theorem execRpsiParse_of_accepted {h : Hdr} {ssrcs : Ssrc × Ssrc} {pc ptb : Byte}
    {region : List Byte} (hh : s.hdr = some h) (hrpsi : isRpsi s.params h = true)
    (hp : HoldsPayload s h ssrcs pc ptb region)
    (ha : RegionAccepted s.params pc.toNat region.length (bigEndian region)) :
    execRpsiParse s = .next { s with
      rpsi := some ⟨ssrcs.1, ssrcs.2, BitVec.ofNat 7 ptb.toNat,
        BitVec.ofNat 64 (bigEndian region / 2 ^ pc.toNat)⟩,
      status := .ok } := by
  exact execRpsiParse_of_readRpsi hh hrpsi hp.eleven_le
    (by rw [readRpsi_of_holdsPayload hp, rpsiOf_of_accepted ha])

/-- A payload with any other region is `BadPadding`. -/
theorem execRpsiParse_of_not_accepted {h : Hdr} {ssrcs : Ssrc × Ssrc} {pc ptb : Byte}
    {region : List Byte} (hh : s.hdr = some h) (hrpsi : isRpsi s.params h = true)
    (hp : HoldsPayload s h ssrcs pc ptb region)
    (ha : ¬ RegionAccepted s.params pc.toNat region.length (bigEndian region)) :
    execRpsiParse s = .next (s.badRpsi .badPadding) := by
  exact execRpsiParse_badPadding hh hrpsi hp.eleven_le
    (by rw [readRpsi_of_holdsPayload hp, rpsiOf_of_not_accepted ha])

/-- Where `RPSI.PARSE` ends `Ok` with a clear latch, RX holds a payload whose region is accepted, and the
message is the one that payload stands for. -/
theorem execRpsiParse_ok {h : Hdr} (hx : execRpsiParse s = .next t) (hh : s.hdr = some h)
    (hfatal : t.fatal = none) (hok : t.status = .ok) :
    ∃ ssrcs pc ptb region, isRpsi s.params h = true ∧ HoldsPayload s h ssrcs pc ptb region ∧
      RegionAccepted s.params pc.toNat region.length (bigEndian region) ∧
      t.rpsi = some ⟨ssrcs.1, ssrcs.2, BitVec.ofNat 7 ptb.toNat,
        BitVec.ofNat 64 (bigEndian region / 2 ^ pc.toNat)⟩ := by
  have hraise (c : FatalCause) (op : BitVec 8) : t ≠ s.raise c op := by
    rintro rfl
    rw [State.raise_fatal] at hfatal
    cases hfatal
  rw [execRpsiParse_of_hdr hh] at hx
  split at hx
  · next hrpsi =>
    split at hx
    · cases hx; cases hok
    · next hsize =>
      split at hx
      · obtain ⟨c, op, -, ht⟩ := State.stopped_next hx
        exact absurd ht (hraise c op)
      · cases hx; cases hok
      · next m hr =>
        cases hx
        obtain ⟨ssrcs, pc, ptb, region, hp, hm⟩ := readRpsi_some (Nat.not_lt.1 hsize) hr
        obtain ⟨ha, rfl⟩ := rpsiOf_some hm
        exact ⟨ssrcs, pc, ptb, region, hrpsi, hp, ha, rfl⟩
  · cases hx
    exact absurd rfl (hraise _ _)

/-- The low 7 bits of the payload-type byte (R140). -/
theorem ofNat_toNat_eq_extractLsb' (ptb : Byte) : BitVec.ofNat 7 ptb.toNat = ptb.extractLsb' 0 7 := by
  apply BitVec.eq_of_toNat_eq
  simp [BitVec.extractLsb'_toNat]

/-- A read that answers the number of bytes held. -/
theorem bigEndian_of_read {m : Memory} {a v : Nat} {bs : List Byte} (h : HoldsBytes m a bs)
    (hr : m.read a bs.length = .ok v) : bigEndian bs = v :=
  Except.ok.inj ((Memory.read_of_holdsBytes h).symm.trans hr)

/-- Settles O16: the region is an identifier moved up by its padding count, which is accepted. -/
theorem rpsiParseDecodes : Obligations.RpsiParseDecodes := by
  unfold Obligations.RpsiParseDecodes
  intro s h sender media pc ptb region v hh hpt hfmt h1 hsize hin hb hr hpc hv hcanon
  obtain ⟨-, -, -, hregion⟩ := holdsBytes_rpsiPayload (ssrcs := (sender, media)).1 hb
  have hbe : bigEndian region = v * 2 ^ pc.toNat := bigEndian_of_read hregion hr
  have hx := execRpsiParse_of_accepted hh ((isRpsi_iff _ _).2 ⟨hpt, hfmt⟩)
    (HoldsPayload.mk (ssrcs := (sender, media)) h1 hsize hin hb hpc)
    (by rw [hbe]; exact regionAccepted_mul hv hcanon)
  rwa [hbe, Nat.mul_div_cancel _ (Nat.two_pow_pos _), ofNat_toNat_eq_extractLsb'] at hx

/-- Settles O17: each end is one test of `RPSI.PARSE`, those of the region taken together. -/
theorem rpsiParseRejects : Obligations.RpsiParseRejects := by
  unfold Obligations.RpsiParseRejects
  intro s
  refine ⟨execRpsiParse_of_none, fun h hh hf hnot => ?_, fun h hh hpt hfmt => ?_⟩
  · exact execRpsiParse_of_not_isRpsi hh hf (by rwa [isRpsi_iff, not_and_or])
  · have hrpsi := (isRpsi_iff _ _).2 ⟨hpt, hfmt⟩
    refine ⟨execRpsiParse_tooShort hh hrpsi, fun sender media pc hsize hin hb hpc => ?_,
      fun sender media pc ptb region v h1 hsize hin hb hr hpc hbad => ?_⟩
    · exact execRpsiParse_badPadding hh hrpsi hsize (readRpsi_of_wide_padding hin hb hpc)
    · obtain ⟨-, -, -, hregion⟩ := holdsBytes_rpsiPayload (ssrcs := (sender, media)).1 hb
      have hbe : bigEndian region = v := bigEndian_of_read hregion hr
      refine execRpsiParse_of_not_accepted hh hrpsi
        (HoldsPayload.mk (ssrcs := (sender, media)) h1 hsize hin hb hpc) ?_
      rw [hbe]
      rintro ⟨hmod, hlt, hcanon⟩
      obtain hpad | hwide | ⟨hc, hne | hne⟩ := hbad
      · exact hpad hmod
      · exact Nat.not_le.2 hlt hwide
      · exact hne (hcanon hc).1
      · exact hne (hcanon hc).2

/-! ## `RPSI.BUILD` -/

/-- An RPSI block that fits is stored at the cursor as the wire form of the message (R141, R143). -/
theorem rpsiBuild_inside {m : Rpsi} (h : RpsiReady s m)
    (hroom : s.cur + rpsiBlockLen m.pictureId.toNat ≤ s.maxlen)
    (hin : s.cur + rpsiBlockLen m.pictureId.toNat ≤ s.params.txSize) :
    rpsiBuild s = { s with
      tx := s.tx.putBytes s.cur (wireRpsi s.params m),
      cur := s.cur + rpsiBlockLen m.pictureId.toNat, status := .ok } := by
  rw [rpsiBuild_of_ready h, buildBlock_room hroom, writeBlock_inside (rpsiBlock_len _ _) hin,
    rpsiBlock_wire]
  rfl

/-- Where the block fits, the next state holds the wire form of the message behind the old cursor. -/
theorem execRpsiBuild_stores {m : Rpsi} (h : RpsiReady s m)
    (hroom : s.cur + rpsiBlockLen m.pictureId.toNat ≤ s.maxlen)
    (hin : s.cur + rpsiBlockLen m.pictureId.toNat ≤ s.params.txSize)
    (hx : exec .rpsiBuild s = .next t) : HoldsBytes t.tx s.cur (wireRpsi s.params m) := by
  have ht : rpsiBuild s = t := Host.Outcome.next.inj hx
  rw [rpsiBuild_inside h hroom hin] at ht
  subst ht
  dsimp only
  exact s.tx.holdsBytes_putBytes s.cur _

/-- Settles O18: the block written is the wire form of the message. -/
theorem rpsiBuildWritesBlock : Obligations.RpsiBuildWritesBlock := by
  unfold Obligations.RpsiBuildWritesBlock
  intro s m hready hroom hin
  exact ⟨_, congrArg _ (rpsiBuild_inside hready hroom hin), wireRpsi_length _ _,
    s.tx.stored_putBytes _ _⟩

/-! ## The wire form of a message, as a header and a payload -/

/-- The header of the RPSI block of the identifier `id` at `base`. -/
def rpsiHdr (p : Params) (id base : Nat) : Hdr :=
  ⟨2, false, p.rpsiFmt, p.psfbPt, BitVec.ofNat 16 (rpsiBlockLen id / 4 - 1), base⟩

/-- The region `RPSI.BUILD` writes for an identifier (R141). -/
def builtRegion (id : Nat) : List Byte := wireBytes (id * 2 ^ padBits id) (regionLen id)

@[simp] theorem builtRegion_length (id : Nat) : (builtRegion id).length = regionLen id :=
  wireBytes_length _ _

theorem wireRpsi_eq (p : Params) (m : Rpsi) :
    wireRpsi p m =
      wireHeader p.rpsiFmt p.psfbPt (BitVec.ofNat 16 (rpsiBlockLen m.pictureId.toNat / 4 - 1)) ++
        rpsiPayload (m.senderSsrc, m.mediaSsrc) (BitVec.ofNat 8 (padBits m.pictureId.toNat))
          ((0 : BitVec 1) ++ m.payloadType) (builtRegion m.pictureId.toNat) := rfl

theorem padBits_lt (id : Nat) : padBits id < 8 := by
  have hpad := padBits_add_bitLen id
  have hnative : nativeBytes id = (bitLen id + 7) / 8 := rfl
  omega

theorem toNat_ofNat_padBits (id : Nat) : (BitVec.ofNat 8 (padBits id)).toNat = padBits id := by
  have := padBits_lt id
  rw [BitVec.toNat_ofNat, Nat.mod_eq_of_lt (by omega)]

/-- The region built for an identifier stands for it, moved up by its padding bits. -/
theorem bigEndian_builtRegion (id : Nat) : bigEndian (builtRegion id) = id * 2 ^ padBits id := by
  have hle : nativeBytes id ≤ regionLen id := Nat.le_add_right _ _
  rw [builtRegion, bigEndian_wireBytes, Nat.mod_eq_of_lt]
  exact (shifted_lt id).trans_le (Nat.pow_le_pow_right (by decide) hle)

/-- A region that stands for an identifier in canonical form is the region built for it. -/
theorem builtRegion_of_bigEndian {id : Nat} {region : List Byte}
    (hlen : region.length = regionLen id) (hbe : bigEndian region = id * 2 ^ padBits id) :
    builtRegion id = region :=
  bigEndian_inj (by rw [builtRegion_length, hlen]) (by rw [bigEndian_builtRegion, hbe])

/-- The payload-type byte that is built gives the payload type back (R140, R141). -/
theorem ofNat_toNat_payloadByte (x : BitVec 7) : BitVec.ofNat 7 ((0 : BitVec 1) ++ x).toNat = x := by
  rw [ofNat_toNat_eq_extractLsb', BitVec.extractLsb'_append_eq_right]

/-- The block of a 64-bit identifier is 16, 20 or 24 bytes long (R143). -/
theorem rpsiBlockLen_bounds (id : BitVec 64) :
    rpsiBlockLen id.toNat % 4 = 0 ∧ 16 ≤ rpsiBlockLen id.toNat ∧ rpsiBlockLen id.toNat ≤ 24 := by
  obtain ⟨h16, h20, h24⟩ := regionFillsWholeWords.2 id.toNat
  have h64 : bitLen id.toNat ≤ 64 := (bitLen_le_iff (by decide)).2 id.isLt
  omega

theorem rpsiHdr_isRpsi (p : Params) (id base : Nat) : isRpsi p (rpsiHdr p id base) = true :=
  (isRpsi_iff _ _).2 ⟨rfl, rfl⟩

theorem rpsiHdr_payloadSize (p : Params) (id : BitVec 64) (base : Nat) :
    (rpsiHdr p id.toNat base).payloadSize = 10 + regionLen id.toNat := by
  obtain ⟨hmod, hmin, hmax⟩ := rpsiBlockLen_bounds id
  have hlen : rpsiBlockLen id.toNat = 14 + regionLen id.toNat := rfl
  simp only [Hdr.payloadSize, rpsiHdr, BitVec.toNat_ofNat]
  omega

/-! ## Build, then parse (R144 (1)) -/

/-- `HDR.PARSE` of the bytes of an RPSI block accepts its header. -/
theorem execHdrParse_wireRpsi {base : Nat} {m : Rpsi}
    (hin : base + rpsiBlockLen m.pictureId.toNat ≤ s.params.rxSize)
    (hb : HoldsBytes s.rx base (wireRpsi s.params m)) :
    execHdrParse base (rpsiBlockLen m.pictureId.toNat) s =
      .next { s with hdr := some (rpsiHdr s.params m.pictureId.toNat base), status := .ok } := by
  obtain ⟨-, hmin, -⟩ := rpsiBlockLen_bounds m.pictureId
  rw [wireRpsi_eq] at hb
  have hr : readHeader s base = .ok (rpsiHdr s.params m.pictureId.toNat base) :=
    readHeader_eq_ok_iff.2 ⟨by omega, (HoldsBytes.append.1 hb).1⟩
  have hsize : (rpsiHdr s.params m.pictureId.toNat base).blockSize ≤
      rpsiBlockLen m.pictureId.toNat := by
    have hpayload := rpsiHdr_payloadSize s.params m.pictureId base
    rw [Hdr.payloadSize] at hpayload
    rw [Hdr.blockSize, hpayload, rpsiBlockLen]
    omega
  have hok : headerOk (rpsiHdr s.params m.pictureId.toNat base)
      (rpsiBlockLen m.pictureId.toNat) = true :=
    Bool.and_eq_true_iff.2 ⟨rfl, decide_eq_true hsize⟩
  rw [execHdrParse_of_readHeader hin (by omega) hr, if_pos hok]

/-- Where the two formats differ, an RPSI header is dispatched as one. -/
theorem execDispatch_of_isRpsi {h : Hdr} (hh : s.hdr = some h) (hd : FormatsDiffer s)
    (hrpsi : isRpsi s.params h = true) :
    execDispatch s = .next { s with status := .ok, result := .kind .rpsi } := by
  have hfir : ¬ isFir s.params h = true := by
    rw [isFir_iff]
    rintro ⟨-, hfmt⟩
    exact hd (hfmt.symm.trans ((isRpsi_iff _ _).1 hrpsi).2)
  rw [execDispatch_of_hdr hh, kindOf, if_neg hfir, if_pos hrpsi]

/-- `RPSI.PARSE` of the bytes of an RPSI block gives the message, whether canonical form is asked for or not. -/
theorem execRpsiParse_wireRpsi {base : Nat} {m : Rpsi}
    (hh : s.hdr = some (rpsiHdr s.params m.pictureId.toNat base))
    (hin : base + rpsiBlockLen m.pictureId.toNat ≤ s.params.rxSize)
    (hb : HoldsBytes s.rx base (wireRpsi s.params m)) :
    execRpsiParse s = .next { s with rpsi := some m, status := .ok } := by
  obtain ⟨-, hmin, -⟩ := rpsiBlockLen_bounds m.pictureId
  have hlen : rpsiBlockLen m.pictureId.toNat = 14 + regionLen m.pictureId.toNat := rfl
  have hpc := toNat_ofNat_padBits m.pictureId.toNat
  have hbe := bigEndian_builtRegion m.pictureId.toNat
  have hp : HoldsPayload s (rpsiHdr s.params m.pictureId.toNat base) (m.senderSsrc, m.mediaSsrc)
      (BitVec.ofNat 8 (padBits m.pictureId.toNat)) ((0 : BitVec 1) ++ m.payloadType)
      (builtRegion m.pictureId.toNat) :=
    { nonempty := by rw [builtRegion_length]; omega
      size := by rw [builtRegion_length, rpsiHdr_payloadSize]
      inRx := by rw [builtRegion_length]; simp only [rpsiHdr]; omega
      bytes := (HoldsBytes.append.1 (by rwa [wireRpsi_eq] at hb)).2
      padding := by rw [hpc]; exact padBits_lt _ }
  have hx := execRpsiParse_of_accepted hh (rpsiHdr_isRpsi _ _ _) hp
    (by rw [hpc, hbe, builtRegion_length]
        exact regionAccepted_mul m.pictureId.isLt fun _ => ⟨rfl, rfl⟩)
  rwa [hpc, hbe, Nat.mul_div_cancel _ (Nat.two_pow_pos _), ofNat_toNat_payloadByte,
    BitVec.ofNat_toNat, BitVec.setWidth_eq] at hx

/-- Settles O25: RX holds the wire form of the message, which the two parses read back. -/
theorem rpsiBuildThenParse : Obligations.RpsiBuildThenParse := by
  unfold Obligations.RpsiBuildThenParse
  intro s t u m base hready hd hroom hduty hx hp hin hcopy
  have hstored := execRpsiBuild_stores hready hroom (hroom.trans hduty) hx
  have hb : HoldsBytes u.rx base (wireRpsi u.params m) := by
    rw [hp]
    exact hstored.congr fun i hi => hcopy i (by rwa [wireRpsi_length] at hi)
  have hd' : FormatsDiffer u := by rwa [FormatsDiffer, hp]
  let u1 : State := { u with hdr := some (rpsiHdr u.params m.pictureId.toNat base), status := .ok }
  let u2 : State := { u1 with result := .kind .rpsi }
  have hdispatch : exec .dispatch u1 = .next u2 :=
    execDispatch_of_isRpsi (s := u1) rfl hd' (rpsiHdr_isRpsi _ _ _)
  exact ⟨u1, u2, execHdrParse_wireRpsi hin hb, rfl, hdispatch, rfl,
    execRpsiParse_wireRpsi (s := u2) rfl hin hb⟩

/-! ## What an accepted block looks like (R142, R144 (3)) -/

/-- Settles O19: in canonical form the region is the one built for the identifier, so the payload differs from
the built one in the payload-type byte only. -/
theorem canonicalParseAcceptsBuiltFormOnly : Obligations.CanonicalParseAcceptsBuiltFormOnly := by
  unfold Obligations.CanonicalParseAcceptsBuiltFormOnly
  intro s t h hc hh _ hx hfatal hok
  obtain ⟨ssrcs, pc, ptb, region, -, hp, ⟨hmod, hlt, hcanon⟩, ht⟩ :=
    execRpsiParse_ok hx hh hfatal hok
  obtain ⟨hpad, hlen⟩ := hcanon hc
  obtain ⟨-, -, hb9, -⟩ := holdsBytes_rpsiPayload.1 hp.bytes
  have hmul := Nat.div_mul_cancel (Nat.dvd_of_mod_eq_zero hmod)
  generalize hid : bigEndian region / 2 ^ pc.toNat = id at *
  have hregion : builtRegion id = region := builtRegion_of_bigEndian hlen (by rw [← hpad, hmul])
  have hpc : BitVec.ofNat 8 (padBits id) = pc := by
    rw [← hpad, BitVec.ofNat_toNat, BitVec.setWidth_eq]
  have hid64 : (BitVec.ofNat 64 id).toNat = id := Nat.mod_eq_of_lt hlt
  refine ⟨_, ht, ?_, fun i h4 h13 hi => ?_, ptb, hb9, (ofNat_toNat_eq_extractLsb' ptb).symm⟩
  · rw [hid64]
    exact hp.size.trans (congrArg _ hlen)
  · obtain ⟨j, rfl⟩ := Nat.exists_eq_add_of_le h4
    have hsize : 4 * h.lengthWords.toNat = 10 + region.length := hp.size
    have hj : j < (rpsiPayload ssrcs pc ptb region).length := by rw [rpsiPayload_length]; omega
    have hheld := hp.bytes j hj
    rw [wireRpsi_eq, List.getElem?_append_right (by rw [wireHeader_length]; omega),
      wireHeader_length, Nat.add_sub_cancel_left]
    simp only [hid64, hpc, hregion]
    rw [← rpsiPayload_set ssrcs pc ptb, List.getElem?_set_ne (by omega),
      List.getElem?_eq_getElem hj, ← Nat.add_assoc, hheld]

/-- Below 8 bits a number of bytes leaves the remainder of its last byte. -/
theorem bigEndian_concat_mod (bs : List Byte) (b : Byte) {k : Nat} (hk : k < 8) :
    bigEndian (bs ++ [b]) % 2 ^ k = b.toNat % 2 ^ k := by
  have hdvd : 2 ^ k ∣ bigEndian bs * 256 := (pow_dvd_pow 2 hk.le : 2 ^ k ∣ 2 ^ 8).mul_left _
  rw [bigEndian_append, bigEndian_singleton, List.length_singleton, pow_one, Nat.add_mod,
    Nat.mod_eq_zero_of_dvd hdvd, Nat.zero_add, Nat.mod_mod]

/-- Settles O20: the last byte belongs to the region and holds all its padding bits. -/
theorem flippedPaddingIsRejected : Obligations.FlippedPaddingIsRejected := by
  unfold Obligations.FlippedPaddingIsRejected
  intro s t h pc b hh _ hx hfatal hok hpc hb
  obtain ⟨ssrcs, pc', ptb, region, hrpsi, hp, -, -⟩ := execRpsiParse_ok hx hh hfatal hok
  obtain ⟨h1, hsize, hin, hbytes, hlt⟩ := hp
  obtain ⟨-, hb8, -, -⟩ := holdsBytes_rpsiPayload.1 hbytes
  obtain rfl : pc = pc' := Option.some.inj (hpc.symm.trans hb8)
  obtain rfl | ⟨init, last, rfl⟩ := region.eq_nil_or_concat'
  · cases h1
  · rw [List.length_append, List.length_singleton] at hsize hin
    rw [rpsiPayload_concat] at hbytes
    have hlast : h.base + 3 + 4 * h.lengthWords.toNat =
        h.base + 4 + (rpsiPayload ssrcs pc ptb init).length := by
      rw [Hdr.payloadSize] at hsize
      rw [rpsiPayload_length]
      omega
    have hp' : HoldsPayload { s with rx := s.rx.put (h.base + 3 + 4 * h.lengthWords.toNat) b } h
        ssrcs pc ptb (init ++ [b]) :=
      { nonempty := by simp
        size := by simpa using hsize
        inRx := by simpa using hin
        bytes := by rw [hlast, rpsiPayload_concat]; exact hbytes.put_last b
        padding := hlt }
    refine execRpsiParse_of_not_accepted (s := { s with rx := _ }) hh hrpsi hp' ?_
    rintro ⟨hmod, -, -⟩
    rw [bigEndian_concat_mod init b hlt] at hmod
    exact hb hmod

end Sys2Proof.Machine

/-! PROOFS. BufferedPacketBuilder (45_builder.md): the space test and `BLD.COMMIT`, the answers of `K`, the
continuation that makes no room (R165), and what the builds append (R166). -/

namespace Sys2Proof.Machine

variable {s t : State}

/-! ## The space test (R160) and the end-offset check (R162) -/

/-- An operation waits for a FIR block only under `FirReady`. -/
theorem firReady_of_waitsFor {n : Nat} (h : waitsFor s .fir = some n) :
    ∃ f, FirReady s f ∧ n = firBlockLen f.reqs.length := by
  cases hf : s.fir with
  | none => simp [waitsFor, hf] at h
  | some f =>
    by_cases hn : 1 ≤ f.reqs.length ∧ f.reqs.length ≤ 32766
    · have hr : FirReady s f := ⟨hf, hn⟩
      exact ⟨f, hr, Option.some.inj (h.symm.trans (waitsFor_fir hr))⟩
    · simp [waitsFor, hf, hn] at h

/-- An operation waits for an RPSI block only under `RpsiReady`. -/
theorem rpsiReady_of_waitsFor {n : Nat} (h : waitsFor s .rpsi = some n) :
    ∃ m, RpsiReady s m ∧ n = rpsiBlockLen m.pictureId.toNat := by
  obtain ⟨m, hm, rfl⟩ := Option.map_eq_some_iff.1 h
  exact ⟨m, hm, rfl⟩

/-- Without room for the awaited block each of the three operations does nothing but invoke `K`. -/
theorem resume_noRoom {b : Builder} {n : Nat} (hn : waitsFor s b = some n)
    (h : s.maxlen < s.cur + n) : resume b s = s.callK b := by
  cases b with
  | fir =>
    obtain ⟨f, hr, rfl⟩ := firReady_of_waitsFor hn
    exact (firBuild_of_ready hr).trans (buildBlock_noRoom h)
  | rpsi =>
    obtain ⟨m, hr, rfl⟩ := rpsiReady_of_waitsFor hn
    exact (rpsiBuild_of_ready hr).trans (buildBlock_noRoom h)
  | reserve k =>
    obtain rfl : k = n := Option.some.inj hn
    obtain ⟨hroom, -⟩ | ⟨-, hr⟩ := reserve_cases k s
    · omega
    · exact hr

theorem exec_noRoom {b : Builder} {n : Nat} (hn : waitsFor s b = some n)
    (h : s.maxlen < s.cur + n) : exec b.instr s = .next (s.callK b) := by
  rw [exec_builder_instr, resume_noRoom hn h]

theorem reserve_room {n : Nat} (h : s.cur + n ≤ s.maxlen) :
    reserve n s = { s with result := .room true } := by
  obtain ⟨-, hr⟩ | ⟨hroom, -⟩ := reserve_cases n s
  · exact hr
  · omega

/-- Settles O27: a reservation with room, and the three operations without it, `exec_noRoom`. -/
theorem spaceTestDecides : Obligations.SpaceTestDecides := by
  unfold Obligations.SpaceTestDecides
  intro s
  refine ⟨fun n h => congrArg _ (reserve_room h), fun n h => ?_, fun f hr h => ?_, fun m hr h => ?_⟩
  · exact exec_noRoom (b := .reserve n) rfl h
  · exact exec_noRoom (waitsFor_fir hr) h
  · exact exec_noRoom (waitsFor_rpsi hr) h

/-- Settles O28: the two branches of the end-offset check. -/
theorem commitChecksEndOffset : Obligations.CommitChecksEndOffset := by
  unfold Obligations.CommitChecksEndOffset
  intro s endOff
  refine ⟨fun h => ?_, fun h hf => ?_⟩ <;> show Host.Outcome.next (s.commit endOff).state = _
  · rw [State.commit, if_pos h, Flow.state_on]
  · rw [State.commit, if_neg h, Flow.state_ended, State.raise_of_none hf]

/-! ## The answers of `K` (R160, R161) -/

/-- A step in which `K` answers, having written bytes of TX only. -/
theorem step_kReturns {k : Invocation} {a : KAnswer} {rest : List Event} (hfd : FormatsDiffer s)
    (hp : s.phase = .inK k) (ha : kAnswer? k s = some (a, rest)) (hw : WritesInTx s a) :
    step s = .next (kReturns k a { s with inbox := rest }) :=
  (step_answer hfd hp ha).trans (answerK_inside (s := { s with inbox := rest }) hw)

theorem kReturns_of_success {k : Invocation} {a : KAnswer} (h : a.success = true) :
    kReturns k a s = resume k.builder (s.adopt k a) := if_pos h

theorem kReturns_of_failure {k : Invocation} {a : KAnswer} (h : a.success = false) :
    kReturns k a s = giveUp k.builder (s.adopt k a) := if_neg (by simp [h])

/-- Settles O29: the waiting operation gives up in the state `K` left. -/
theorem kFailureEndsBuild : Obligations.KFailureEndsBuild := by
  unfold Obligations.KFailureEndsBuild
  intro s k a rest hfd hp ha hw hfail
  have hstep := step_kReturns hfd hp ha hw
  rw [kReturns_of_failure hfail] at hstep
  obtain ⟨success, cursor, writes⟩ := a
  obtain rfl : success = false := hfail
  refine ⟨?_, fun n hb => ?_⟩
  · rintro (hb | hb) <;> rw [hstep, hb] <;> rfl
  · rw [hstep, hb]; rfl

/-- Settles O30: the waiting operation is run again, as its instruction, in the state `K` left. -/
theorem kSuccessTestsAgain : Obligations.KSuccessTestsAgain := by
  unfold Obligations.KSuccessTestsAgain
  intro s k a rest hfd hp ha hw hsucc
  calc step s
    _ = .next (resume k.builder ({ s with inbox := rest }.adopt k a)) := by
      rw [step_kReturns hfd hp ha hw, kReturns_of_success hsucc]
    _ = exec k.builder.instr ({ s with inbox := rest }.adopt k a) :=
      (exec_builder_instr _ _).symm
    _ = _ := by
      obtain ⟨success, cursor, writes⟩ := a
      obtain rfl : success = true := hsucc
      cases k.builder <;> rfl

/-! ## A continuation that answers success and makes no room (R165) -/

/-- An answer that says success, leaves no room for a block of `n` bytes, and writes bytes of TX only. -/
def Lies (s : State) (n : Nat) (a : KAnswer) : Prop :=
  a.success = true ∧ s.maxlen < a.cursor + n ∧ WritesInTx s a

/-- The invocation `k` is outstanding, and the block that waits for it has `n` bytes. -/
structure Outstanding (s : State) (k : Invocation) (n : Nat) : Prop where
  formats : FormatsDiffer s
  phase : s.phase = .inK k
  length : waitsFor s k.builder = some n

/-- The answer `a` of `K` taken and adopted, and `K` invoked again by the same operation. -/
def State.askAgain (s : State) (k : Invocation) (a : KAnswer) (rest : List Event) : State :=
  ({ s with inbox := rest }.adopt k a).callK k.builder

/-- From `s` to `t`, `K` has answered the operation `b` in vain `m` times. -/
structure InVain (s t : State) (b : Builder) (m : Nat) : Prop where
  waits : ∃ k, t.phase = .inK k ∧ k.builder = b
  flushLog : t.flushLog.length = s.flushLog.length + m
  status : t.status = s.status
  fatal : t.fatal = s.fatal

/-- A lying answer is adopted, and `K` is invoked again. -/
theorem Outstanding.step_of_lies {k : Invocation} {n : Nat} {a : KAnswer} {rest : List Event}
    (h : Outstanding s k n) (ha : kAnswer? k s = some (a, rest)) (hl : Lies s n a) :
    step s = .next (s.askAgain k a rest) := by
  obtain ⟨hfd, hp, hn⟩ := h
  obtain ⟨hsucc, hroom, hw⟩ := hl
  rw [step_kReturns hfd hp ha hw, kReturns_of_success hsucc, resume_noRoom (n := n) _ hroom]
  · rfl
  · exact (waitsFor_congr k.builder rfl rfl).trans hn

/-- The next invocation waits for the same block. -/
theorem Outstanding.askAgain {k : Invocation} {n : Nat} (h : Outstanding s k n) (a : KAnswer)
    (rest : List Event) : ∃ k', Outstanding (s.askAgain k a rest) k' n ∧ k'.builder = k.builder :=
  ⟨_, ⟨h.formats, rfl, (waitsFor_congr k.builder rfl rfl).trans h.length⟩, rfl⟩

theorem Outstanding.inVain_zero {k : Invocation} {n : Nat} (h : Outstanding s k n) :
    InVain s s k.builder 0 :=
  ⟨⟨k, h.phase, rfl⟩, rfl, rfl, rfl⟩

/-- One answer in vain, and `m` more. -/
theorem InVain.of_askAgain {k : Invocation} {a : KAnswer} {rest : List Event} {b : Builder}
    {m : Nat} (h : InVain (s.askAgain k a rest) t b m) : InVain s t b (m + 1) := by
  obtain ⟨hwaits, hlog, hstatus, hfatal⟩ := h
  refine ⟨hwaits, ?_, hstatus, hfatal⟩
  simp only [hlog, State.askAgain, State.callK_flushLog, State.adopt_flushLog, List.length_append,
    List.length_singleton]
  omega

/-- The run through a list of lying answers, answer by answer. -/
theorem Outstanding.steps_of_lying_answers {n : Nat} {answers : List KAnswer} {k : Invocation}
    {rest : List Event} (h : Outstanding s k n) (hl : ∀ a ∈ answers, Lies s n a)
    (hi : s.inbox = answers.map .kReturn ++ rest) :
    ∃ t, steps answers.length s = .next t ∧ InVain s t k.builder answers.length ∧
      t.tx = answers.foldl (fun m a => m.putCells a.writes) s.tx ∧ t.inbox = rest := by
  induction answers generalizing s k with
  | nil => exact ⟨s, rfl, h.inVain_zero, rfl, hi⟩
  | cons a answers ih =>
    have hnext : s.inbox = .kReturn a :: (answers.map .kReturn ++ rest) := hi
    have hstep := h.step_of_lies (kAnswer?_kReturn hnext) (hl a List.mem_cons_self)
    obtain ⟨k', h', hb⟩ := h.askAgain a (answers.map .kReturn ++ rest)
    obtain ⟨t, ht, hv, htx, hi'⟩ := ih h' (fun x hx => hl x (List.mem_cons_of_mem a hx)) rfl
    refine ⟨t, ?_, ?_, htx, hi'⟩
    · simpa only [List.length_cons, steps, hstep] using ht
    · exact (hb ▸ hv).of_askAgain

/-- The run with an installed continuation that always lies, step by step. -/
theorem Outstanding.steps_of_lying_installed {n : Nat} {c : Continuation} {k : Invocation}
    (h : Outstanding s k n) (hc : s.installed = some c) (hl : ∀ m x, Lies s n (c.answer m x))
    (hret : ∀ a rest, s.inbox ≠ .kReturn a :: rest) (hres : ∀ rest, s.inbox ≠ .reset :: rest)
    (j : Nat) :
    ∃ t, steps j s = .next t ∧ InVain s t k.builder j ∧ t.inbox = s.inbox ∧
      t.installed = some c := by
  induction j generalizing s k with
  | zero => exact ⟨s, rfl, h.inVain_zero, rfl, hc⟩
  | succ j ih =>
    have hstep := h.step_of_lies (kAnswer?_installed hc hret hres) (hl _ _)
    obtain ⟨k', h', hb⟩ := h.askAgain (c.answer s.flushLog.length k.cursor) s.inbox
    obtain ⟨t, ht, hv, hi', hc'⟩ := ih h' hc hl hret hres
    refine ⟨t, ?_, ?_, hi', hc'⟩
    · simpa only [steps, hstep] using ht
    · exact (hb ▸ hv).of_askAgain

/-- Settles O31, by induction on the list of answers and on the number of steps; each step is
`Outstanding.step_of_lies`. -/
theorem lyingContinuationNeverEnds : Obligations.LyingContinuationNeverEnds := by
  unfold Obligations.LyingContinuationNeverEnds
  intro s k n hfd hf hp hn
  have hout : Outstanding s k n := ⟨hfd, hp, hn⟩
  refine ⟨fun answers rest hl hi => ?_, fun c hc hl hret hres j => ?_⟩
  · obtain ⟨t, ht, ⟨⟨k', hp', hb⟩, hlog, hst, hf'⟩, htx, hi'⟩ :=
      hout.steps_of_lying_answers hl hi
    exact ⟨t, k', ht, hp', hb, hlog, htx, hst, hf'.trans hf, hi'⟩
  · obtain ⟨t, ht, ⟨⟨k', hp', hb⟩, hlog, hst, hf'⟩, hi', hc'⟩ :=
      hout.steps_of_lying_installed hc hl hret hres j
    exact ⟨t, k', ht, hp', hb, hlog, hst, hf'.trans hf, hi', hc'⟩

/-! ## Everything the builds append (R166) -/

/-- Bytes stored behind the cursor append themselves to the bytes below it. -/
theorem bytesBelow_putBytes (m : Memory) (c : Nat) (bs : List Byte) :
    bytesBelow (m.putBytes c bs) (c + bs.length) = bytesBelow m c ++ bs.map some := by
  rw [bytesBelow, List.range_add, List.map_append, List.map_map]
  congr 1
  · refine List.map_congr_left fun x hx => m.byte?_putBytes_outside c bs (.inl ?_)
    exact List.mem_range.1 hx
  · refine List.ext_getElem (by simp) fun i hi _ => ?_
    have hlt : i < bs.length := by simpa using hi
    simpa using m.holdsBytes_putBytes c bs i hlt

theorem Memory.below_of_within {m : Memory} {size : Nat} (h : m.within size = true) :
    m.below size = m :=
  List.filter_eq_self.2 fun x hx => decide_eq_true ((m.within_iff size).1 h x hx)

/-- A memory holds nothing beyond its size, so what is handed to `K` is all there is below the cursor. -/
theorem bytesBelow_below {m : Memory} {size : Nat} (h : m.within size = true) (c : Nat) :
    bytesBelow (m.below (min c size)) c = bytesBelow m c := by
  refine List.map_congr_left fun x hx => ?_
  have hxc := List.mem_range.1 hx
  calc (m.below (min c size)).byte? x
    _ = (m.below size).byte? x := by simp only [Memory.byte?_below, lt_min_iff, hxc, true_and]
    _ = m.byte? x := by rw [Memory.below_of_within h]

/-- The build `b` may go on, and `block` is the wire form of the message its register holds. -/
def ReadyToWrite (s : State) (b : Builder) (block : List Byte) : Prop :=
  (b = .fir ∧ ∃ f, FirReady s f ∧ block = wireFir s.params f) ∨
    (b = .rpsi ∧ ∃ m, RpsiReady s m ∧ block = wireRpsi s.params m)

theorem ReadyToWrite.waitsFor {b : Builder} {block : List Byte} (h : ReadyToWrite s b block) :
    waitsFor s b = some block.length := by
  obtain ⟨rfl, f, hr, rfl⟩ | ⟨rfl, m, hr, rfl⟩ := h
  · rw [waitsFor_fir hr, wireFir_length]; rfl
  · rw [waitsFor_rpsi hr, wireRpsi_length]

/-- With room, under the host duty `MAXLEN <= TX_SIZE`, the block is stored at the cursor. -/
theorem ReadyToWrite.resume_room {b : Builder} {block : List Byte} (h : ReadyToWrite s b block)
    (hduty : s.maxlen ≤ s.params.txSize) (hroom : s.cur + block.length ≤ s.maxlen) :
    resume b s = { s with
      tx := s.tx.putBytes s.cur block, cur := s.cur + block.length, status := .ok } := by
  obtain ⟨rfl, f, hr, rfl⟩ | ⟨rfl, m, hr, rfl⟩ := h
  · rw [wireFir_length] at hroom ⊢
    exact firBuild_inside hr hroom (hroom.trans hduty)
  · rw [wireRpsi_length] at hroom ⊢
    exact rpsiBuild_inside hr hroom (hroom.trans hduty)

/-- A build that fits, started between operations, appends its block. -/
theorem ReadyToWrite.streamed_room {b : Builder} {block : List Byte} (h : ReadyToWrite s b block)
    (hp : s.phase = .idle) (hduty : s.maxlen ≤ s.params.txSize)
    (hroom : s.cur + block.length ≤ s.maxlen) :
    streamed (resume b s) = streamed s ++ block.map some := by
  rw [h.resume_room hduty hroom, streamed, streamed, untaken_idle hp, untaken_idle (by exact hp),
    bytesBelow_putBytes, List.append_assoc]

/-- An invocation of `K` appends nothing: what is handed over is what was not yet taken away. -/
theorem streamed_callK (b : Builder) (hp : s.phase = .idle) (hm : MemoriesCanonical s) :
    streamed (s.callK b) = streamed s := by
  obtain ⟨-, -, -, hin⟩ := hm
  rw [streamed, streamed, untaken_idle hp, untaken_inK (s.callK_phase b), bytesBelow_below hin,
    State.callK_flushLog]

/-- `K_reset` takes away what it was handed. -/
theorem streamed_adopt_kReset {k : Invocation} (hp : s.phase = .inK k) :
    streamed (s.adopt k kReset) = streamed s := by
  rw [streamed, streamed, untaken_inK hp, untaken_idle (s.adopt_phase k kReset),
    State.adopt_flushLog]
  simp [bytesBelow, kReset]

/-- Settles O33: with room the block is appended, an invocation of `K` appends nothing, and the answer of
`K_reset` appends nothing and makes room. -/
theorem buildsAppendWholeBlocks : Obligations.BuildsAppendWholeBlocks := by
  unfold Obligations.BuildsAppendWholeBlocks
  intro s t i b block hduty hi
  obtain ⟨rfl, hready⟩ : i = b.instr ∧ ReadyToWrite s b block := by
    obtain ⟨rfl, rfl, h⟩ | ⟨rfl, rfl, h⟩ := hi
    · exact ⟨rfl, .inl ⟨rfl, h⟩⟩
    · exact ⟨rfl, .inr ⟨rfl, h⟩⟩
  refine ⟨fun hp hroom hx => ?_, fun hp hm hroom hx => ?_, fun k rest hfd hp hb ha hfit hx => ?_⟩
  · cases (exec_builder_instr b s).symm.trans hx
    exact hready.streamed_room hp hduty hroom
  · cases (exec_noRoom hready.waitsFor hroom).symm.trans hx
    exact streamed_callK b hp hm
  · subst hb
    have hstep := step_kReturns hfd hp ha (by simp [WritesInTx, kReset])
    rw [kReturns_of_success rfl] at hstep
    cases hstep.symm.trans hx
    have hready' : ReadyToWrite (State.adopt { s with inbox := rest } k kReset) k.builder block :=
      hready
    rw [hready'.streamed_room rfl hduty (by simpa [kReset] using hfit),
      streamed_adopt_kReset (s := { s with inbox := rest }) hp]
    rfl

end Sys2Proof.Machine

/-! PROOFS. Exceptions (60_exceptions.md): what `FB.WR`, `HDR.WR` and the builds have stored when a later write
of theirs leaves TX (R176), a command under the latch (R176), and the block with nothing to do (R185). -/

namespace Sys2Proof.Machine

variable {s : State}

/-! ## A write that leaves TX ends its operation, and what was stored before stays -/

theorem writeBE_raises {w : Width} {a : Nat} (v : Nat) (hf : s.fatal = none)
    (h : s.params.txSize < a + w.bytes) :
    writeBE s w a v = .ended { s with fatal := some ⟨.outOfBounds, w.wrOp⟩ } := by
  rw [writeBE_outside v h, State.raise_of_none hf]

theorem writeBE_w1_inside {a v : Nat} {b : Byte} (hb : BitVec.ofNat 8 v = b)
    (h : a + 1 ≤ s.params.txSize) :
    writeBE s .w1 a v = .on { s with tx := s.tx.putBytes a [b] } := by
  rw [writeBE_inside (w := .w1) v h]
  simp [Width.bytes, wireBytes, hb]

/-- Where already the first byte leaves TX, no byte of the header is stored. -/
theorem writeHeader_formatOutside {c : Nat} (f : BitVec 5) (t : BitVec 8) (n : Nat)
    (hf : s.fatal = none) (h : s.params.txSize < c + 1) :
    writeHeader s c f t n = .ended { s with fatal := some ⟨.outOfBounds, 0x09⟩ } := by
  rw [writeHeader, writeBE_raises (w := .w1) _ hf h, Flow.andThen_ended, Width.wrOp]

/-- Where the packet type leaves TX, the byte with the format stays stored. -/
theorem writeHeader_typeOutside {c : Nat} (f : BitVec 5) (t : BitVec 8) (n : Nat)
    (hf : s.fatal = none) (hin : c + 1 ≤ s.params.txSize) (h : s.params.txSize < c + 2) :
    writeHeader s c f t n = .ended { s with
      tx := s.tx.putBytes c [(4 : BitVec 3) ++ f], fatal := some ⟨.outOfBounds, 0x09⟩ } := by
  rw [writeHeader, writeBE_w1_inside (headerByte0_wire f) hin, Flow.andThen_on,
    writeBE_raises (w := .w1), Flow.andThen_ended, Width.wrOp]
  exacts [hf, h]

/-- Where only the length field leaves TX, the two bytes before it stay stored. -/
theorem writeHeader_lengthOutside {c : Nat} (f : BitVec 5) (t : BitVec 8) (n : Nat)
    (hf : s.fatal = none) (hin : c + 2 ≤ s.params.txSize) (h : s.params.txSize < c + 4) :
    writeHeader s c f t n = .ended { s with
      tx := s.tx.putBytes c [(4 : BitVec 3) ++ f, t], fatal := some ⟨.outOfBounds, 0x0A⟩ } := by
  rw [writeHeader, writeBE_w1_inside (headerByte0_wire f) (Nat.le_of_succ_le hin), Flow.andThen_on,
    writeBE_w1_inside (BitVec.ofNat_toNat 8 t), Flow.andThen_on, writeBE_raises (w := .w2), Width.wrOp]
  exacts [rfl, hf, h, hin]

theorem exec_hdrWr_of_ended {u : State} {c : Nat} {f : BitVec 5} {t : BitVec 8} {n : Nat}
    (h : writeHeader s c f t n = .ended u) : exec (.hdrWr c f t n) s = .next u :=
  congrArg (fun r : Flow => Host.Outcome.next r.state) h

theorem exec_fbWr_of_ended {u : State} {c : Nat} {sender media : Ssrc}
    (h : writeFeedback s c sender media = .ended u) : exec (.fbWr c sender media) s = .next u :=
  congrArg (fun r : Flow => Host.Outcome.next r.state) h

/-! ## A build that leaves TX -/

/-- A build that may go on comes to the space test of a block whose bytes are the wire form of its message. -/
theorem ReadyToWrite.exists_job {b : Builder} {block : List Byte} (h : ReadyToWrite s b block) :
    ∃ j, resume b s = buildBlock b s j ∧ j.pieces ≠ [] ∧ piecesLen j.pieces = j.blockLen ∧
      j.pieces.flatMap Piece.wire = block := by
  obtain ⟨rfl, f, hr, rfl⟩ | ⟨rfl, m, hr, rfl⟩ := h
  · exact ⟨_, firBuild_of_ready hr, List.cons_ne_nil _ _, firBlock_len _ _, firBlock_wire _ _⟩
  · exact ⟨_, rpsiBuild_of_ready hr, List.cons_ne_nil _ _, rpsiBlock_len _ _, rpsiBlock_wire _ _⟩

/-- A block that fits below `MAXLEN` but not inside TX is written up to the access that leaves TX (log 21). -/
theorem ReadyToWrite.resume_cut {b : Builder} {block : List Byte} (h : ReadyToWrite s b block)
    (hf : s.fatal = none) (hroom : s.cur + block.length ≤ s.maxlen)
    (hout : s.params.txSize < s.cur + block.length) :
    ∃ k op c, resume b s = { s with
        tx := s.tx.putBytes s.cur (block.take k), cur := c, fatal := some ⟨.outOfBounds, op⟩ } ∧
      op ∈ ([0x09, 0x0A, 0x0B, 0x0C] : List (BitVec 8)) ∧ s.cur ≤ c ∧ c ≤ s.cur + k ∧
      (k = 0 ∨ s.cur + k ≤ s.params.txSize) ∧ s.params.txSize < s.cur + k + 4 := by
  obtain ⟨j, hj, hne, hlen, rfl⟩ := h.exists_job
  rw [length_flatMap_wire, hlen] at hroom hout
  rw [hj, buildBlock_room hroom]
  exact writeBlock_cut hf hne hlen hout

/-- Settles O5: each clause names the write that leaves TX; of a build it is the first access of its block
that does. -/
theorem storedBytesOutliveLaterFatal : Obligations.StoredBytesOutliveLaterFatal := by
  unfold Obligations.StoredBytesOutliveLaterFatal
  intro s c hf
  refine ⟨fun a b h => exec_fbWr_of_ended (writeFeedback_senderOutside a b hf h),
    fun a b hin h => ⟨_, exec_fbWr_of_ended (writeFeedback_mediaOutside a b hf hin h),
      s.tx.stored_putBytes c _⟩,
    fun f t n h => exec_hdrWr_of_ended (writeHeader_formatOutside f t n hf h),
    fun f t n h => ⟨_, exec_hdrWr_of_ended (writeHeader_typeOutside f t n hf (by omega) (by omega)),
      s.tx.stored_putBytes c _⟩,
    fun f t n hin h => ⟨_, exec_hdrWr_of_ended (writeHeader_lengthOutside f t n hf hin h),
      s.tx.stored_putBytes c _⟩,
    fun i block hroom hout hi => ?_⟩
  obtain ⟨b, rfl, hready⟩ : ∃ b : Builder, i = b.instr ∧ ReadyToWrite s b block := by
    obtain ⟨rfl, h⟩ | ⟨rfl, h⟩ := hi
    · exact ⟨.fir, rfl, .inl ⟨rfl, h⟩⟩
    · exact ⟨.rpsi, rfl, .inr ⟨rfl, h⟩⟩
  obtain ⟨k, op, cur, hbuild, hop, hbounds⟩ := hready.resume_cut hf hroom hout
  exact ⟨_, k, op, cur, (exec_builder_instr b s).trans (congrArg _ hbuild),
    s.tx.stored_putBytes s.cur _, hop, hbounds⟩

/-! ## A command under the latch -/

theorem takeCommand_latched {r : FatalRecord} (c : Command) (hf : s.fatal = some r) :
    takeCommand c s = .done (.next s) := by
  simp [takeCommand, State.fatalSet, hf]

/-- Settles O38: the port settles the command before it decodes it. -/
theorem latchedBlockIgnoresCommands : Obligations.LatchedBlockIgnoresCommands := by
  unfold Obligations.LatchedBlockIgnoresCommands
  intro s c r rest hfd hp hf hi
  exact step_of_takeIdle_done hfd hp hi (takeCommand_latched c hf)

/-! ## Nothing from the host -/

theorem step_idle_nil (hfd : FormatsDiffer s) (hp : s.phase = .idle) (hi : s.inbox = []) :
    step s = .next s := by
  have hfetch : fetch s = .done (.next s) := by
    simp only [fetch]
    rw [if_neg hfd, hp, hi]
  simp only [step, hfetch]

/-- A `K` that acts by events and has none has not returned (70_reset_and_hazards.md R207). -/
theorem step_inK_nil {k : Invocation} (hfd : FormatsDiffer s) (hp : s.phase = .inK k)
    (hc : s.installed = none) (hi : s.inbox = []) : step s = .next s := by
  have hanswer : kAnswer? k s = none := kAnswer?_none hc (by simp [hi])
  rw [step_inK hfd hp]
  simp only [awaitK, hanswer, hi]

/-- Settles O47, by the phase. -/
theorem blockWaitsForHost : Obligations.BlockWaitsForHost := by
  unfold Obligations.BlockWaitsForHost
  intro s hfd hp hi
  cases hph : s.phase with
  | idle => exact step_idle_nil hfd hph hi
  | inK k => exact step_inK_nil hfd hph (hp.resolve_left (by simp [hph])) hi

end Sys2Proof.Machine

/-! PROOFS. Reset, and what a host that acts too early meets (70_reset_and_hazards.md R200, R206); `FIR.BUILD`
of an empty list (R210). -/

namespace Sys2Proof.Machine

variable {s : State}

/-! ## An empty list (R210) -/

theorem firJob_emptyFirList {f : Fir} (hf : s.fir = some f) (hn : f.reqs = []) :
    firJob s = .error .emptyFirList := by
  rw [firJob_of_fir hf, if_pos (by rw [hn, List.length_nil])]

/-- Settles O14: the second assertion of `FIR.BUILD` fails. -/
theorem emptyFirListIsFatal : Obligations.EmptyFirListIsFatal := by
  unfold Obligations.EmptyFirListIsFatal
  intro s f hf hfir hn
  exact congrArg _ (firBuild_of_error hf (firJob_emptyFirList hfir hn))

/-! ## The reset input (R200) -/

/-- Reset standing next comes before the answer of an installed continuation (log 17). -/
theorem kAnswer?_reset {k : Invocation} {rest : List Event} (hi : s.inbox = .reset :: rest) :
    kAnswer? k s = none := by
  simp only [kAnswer?, hi]

/-- The reset input is taken in both phases, whether a continuation is installed or not. -/
theorem step_reset {rest : List Event} (hfd : FormatsDiffer s) (hi : s.inbox = .reset :: rest) :
    step s = .next { s with inbox := rest }.hostReset := by
  have hp : s.phase = .idle ∨ ∃ k, s.phase = .inK k := by cases s.phase <;> simp
  obtain hp | ⟨k, hp⟩ := hp
  · exact step_of_takeIdle_done hfd hp hi rfl
  · exact step_event hfd hp (kAnswer?_reset hi) hi

/-- Settles O40, by `step_reset`. -/
theorem resetInputRestores : Obligations.ResetInputRestores := by
  unfold Obligations.ResetInputRestores
  exact fun _ _ hfd hi => step_reset hfd hi

/-! ## The host while an operation waits for `K` (R206) -/

/-- Inside an invocation only `K`'s answer, reads, writes of TX and `CUR`, and reset are taken
(10_state.md R31). -/
theorem takeInK_refused {e : Event} (hret : ∀ a, e ≠ .kReturn a) (hread : ∀ v, e ≠ .read v)
    (htx : ∀ a bytes, e ≠ .writeTx a bytes) (hcur : ∀ n, e ≠ .setCur n) (hres : e ≠ .reset)
    (k : Invocation) (s : State) : takeInK k e s = .refused .hostWhileBusy := by
  cases e with
  | command | micro | writeFir | writeRpsi | writeRx | setMaxlen | installK => rfl
  | kReturn a => exact absurd rfl (hret a)
  | read v => exact absurd rfl (hread v)
  | writeTx a bytes => exact absurd rfl (htx a bytes)
  | setCur n => exact absurd rfl (hcur n)
  | reset => exact absurd rfl hres

/-- Settles O43: with none installed the event is taken while `K` is invoked, and refused. -/
theorem hostActsWhileBusyRefused : Obligations.HostActsWhileBusyRefused := by
  unfold Obligations.HostActsWhileBusyRefused
  intro s k e rest hfd hp hc hi hret hread htx hcur hres
  have hanswer : kAnswer? k s = none := kAnswer?_none hc (by simp [hi, hret])
  rw [step_event hfd hp hanswer hi, takeInK_refused hret hread htx hcur hres]

end Sys2Proof.Machine

/-! PROOFS. The parse sequence under `NoFatal` and `RxWritten` (70_reset_and_hazards.md R203): where every byte
holds a value the readers answer, so each parse ends in one of its status codes. -/

namespace Sys2Proof.Machine

variable {s : State}

/-! ## The readers, where every byte inside RX holds a value -/

theorem readHeader_written {base : Nat} (h : Written s.rx base (base + 4))
    (hin : base + 4 ≤ s.params.rxSize) : ∃ x, readHeader s base = .ok x := by
  obtain ⟨b0, h0⟩ := readBE_w1_written (s := s) (h.mono le_rfl (by omega)) (by omega)
  obtain ⟨b1, h1⟩ := readBE_w1_written (s := s) (a := base + 1)
    (h.mono (by omega) (by omega)) (by omega)
  obtain ⟨lw, h2⟩ := readBE_written (s := s) (w := .w2) (a := base + 2)
    (h.mono (by omega) le_rfl) hin
  exact ⟨headerOf base b0 b1 lw, by simp only [readHeader, h0, h1, h2, bind, Except.bind, pure,
    Except.pure]⟩

theorem readRequests_written {e n : Nat} (h : Written s.rx e (e + 8 * n))
    (hin : e + 8 * n ≤ s.params.rxSize) : ∃ reqs, readRequests s e n = .ok reqs := by
  induction n generalizing e with
  | zero => exact ⟨[], rfl⟩
  | succ n ih =>
    obtain ⟨ssrc, hssrc⟩ := readBE_w4_written (s := s) (h.mono le_rfl (by omega)) (by omega)
    obtain ⟨seq, hseq⟩ := readBE_w1_written (s := s) (a := e + 4)
      (h.mono (by omega) (by omega)) (by omega)
    obtain ⟨reqs, hreqs⟩ := ih (e := e + 8) (h.mono (by omega) (by omega)) (by omega)
    exact ⟨⟨BitVec.ofNat 32 ssrc, BitVec.ofNat 8 seq⟩ :: reqs,
      by simp only [readRequests, hssrc, hseq, hreqs, bind, Except.bind, pure, Except.pure]⟩

theorem readRegion_written {a n : Nat} (acc : Nat) (h : Written s.rx a (a + n))
    (hin : a + n ≤ s.params.rxSize) : ∃ v, readRegion s a n acc = .ok v := by
  obtain ⟨bs, rfl, hb⟩ := s.rx.exists_holdsBytes a n h
  exact ⟨_, readRegion_of_holdsBytes hin hb⟩

/-- The payload of the block of `h` lies in RX, and every byte of it holds a value. -/
structure PayloadWritten (s : State) (h : Hdr) : Prop where
  inRx : h.payload + h.payloadSize ≤ s.params.rxSize
  written : Written s.rx h.payload (h.payload + h.payloadSize)

theorem PayloadWritten.exists_readFir {h : Hdr} (hw : PayloadWritten s h) (hsize : 8 ≤ h.payloadSize) :
    ∃ f, readFir s h = .ok f := by
  obtain ⟨hin, hw⟩ := hw
  obtain ⟨x, hx⟩ := readFeedback_written (s := s) (p := h.payload)
    (hw.mono le_rfl (by omega)) (by omega)
  obtain ⟨reqs, hreqs⟩ := readRequests_written (s := s) (e := h.payload + 8)
    (n := (h.payloadSize - 8) / 8) (hw.mono (by omega) (by omega)) (by omega)
  exact ⟨⟨x.1, x.2, reqs⟩, by simp only [readFir, hx, hreqs, bind, Except.bind, pure,
    Except.pure]⟩

theorem PayloadWritten.exists_readRpsi {h : Hdr} (hw : PayloadWritten s h) (hsize : 11 ≤ h.payloadSize) :
    ∃ m, readRpsi s h = .ok m := by
  obtain ⟨hin, hw⟩ := hw
  obtain ⟨ssrcs, hssrcs⟩ := readFeedback_written (s := s) (p := h.payload)
    (hw.mono le_rfl (by omega)) (by omega)
  obtain ⟨pc, hpc⟩ := readBE_w1_written (s := s) (a := h.payload + 8)
    (hw.mono (by omega) (by omega)) (by omega)
  obtain ⟨ptb, hptb⟩ := readBE_w1_written (s := s) (a := h.payload + 9)
    (hw.mono (by omega) (by omega)) (by omega)
  obtain ⟨v, hv⟩ := readRegion_written (s := s) (a := h.payload + 10) (n := h.payloadSize - 10) 0
    (hw.mono (by omega) (by omega)) (by omega)
  simp only [readRpsi, hssrcs, hpc, hptb, hv, bind, Except.bind, pure, Except.pure]
  split
  · exact ⟨none, rfl⟩
  · exact ⟨_, rfl⟩

/-! ## The operations of the sequence -/

/-- What an accepted header says of its block: it lies in the window of `HDR.PARSE`. -/
theorem payloadWritten_of_accepted {base avail : Nat} {x : Hdr} (hrx : RxWritten s base avail)
    (hbase : x.base = base) (hok : headerOk x avail = true) : PayloadWritten s x := by
  obtain ⟨hin, hw⟩ := hrx
  have hsize : 4 + 4 * x.lengthWords.toNat ≤ avail :=
    of_decide_eq_true (Bool.and_eq_true_iff.1 hok).2
  have hend : x.payload + x.payloadSize ≤ base + avail := by
    simp only [Hdr.payload, Hdr.payloadSize]
    omega
  have hstart : base ≤ x.payload := by simp only [Hdr.payload]; omega
  exact ⟨hend.trans hin, Written.mono hw hstart hend⟩

/-- `HDR.PARSE` of a window that is written: no header there, or the header of a block that is written. -/
theorem execHdrParse_written {base avail : Nat} (hrx : RxWritten s base avail) :
    execHdrParse base avail s = .next s.badHeader ∨
      ∃ x, execHdrParse base avail s = .next { s with hdr := some x, status := .ok } ∧
        PayloadWritten s x := by
  have ⟨hin, hw⟩ := hrx
  rcases Nat.lt_or_ge avail 4 with h4 | h4
  · exact .inl (execHdrParse_short hin h4)
  · obtain ⟨x, hx⟩ := readHeader_written (s := s) (Written.mono hw le_rfl (by omega)) (by omega)
    rw [execHdrParse_of_readHeader hin h4 hx]
    split
    · next hok => exact .inr ⟨x, rfl, payloadWritten_of_accepted hrx (readHeader_base hx) hok⟩
    · exact .inl rfl

/-- `FIR.PARSE` of a FIR block that is written ends in one of its three status codes. -/
theorem execFirParse_written {h : Hdr} (hh : s.hdr = some h) (hfir : isFir s.params h = true)
    (hw : PayloadWritten s h) :
    ∃ f x, execFirParse s = .next { s with fir := f, status := x } ∧
      (x = .ok ∨ x = .tooShort ∨ x = .badAlignment) := by
  rcases Nat.lt_or_ge h.payloadSize 16 with hsize | hsize
  · exact ⟨none, .tooShort, execFirParse_tooShort hh hfir hsize, by simp⟩
  · by_cases hmod : (h.payloadSize - 8) % 8 = 0
    · obtain ⟨f, hf⟩ := hw.exists_readFir (by omega)
      exact ⟨some f, .ok, execFirParse_of_readFir hh hfir hsize hmod hf, by simp⟩
    · exact ⟨none, .badAlignment, execFirParse_badAlignment hh hfir hsize hmod, by simp⟩

/-- `RPSI.PARSE` of an RPSI block that is written ends in one of its three status codes. -/
theorem execRpsiParse_written {h : Hdr} (hh : s.hdr = some h) (hrpsi : isRpsi s.params h = true)
    (hw : PayloadWritten s h) :
    ∃ m x, execRpsiParse s = .next { s with rpsi := m, status := x } ∧
      (x = .ok ∨ x = .tooShort ∨ x = .badPadding) := by
  rcases Nat.lt_or_ge h.payloadSize 11 with hsize | hsize
  · exact ⟨none, .tooShort, execRpsiParse_tooShort hh hrpsi hsize, by simp⟩
  · obtain ⟨m, hm⟩ := hw.exists_readRpsi hsize
    cases m with
    | none => exact ⟨none, .badPadding, execRpsiParse_badPadding hh hrpsi hsize hm, by simp⟩
    | some m => exact ⟨some m, .ok, execRpsiParse_of_readRpsi hh hrpsi hsize hm, by simp⟩

theorem isFir_of_kindOf {p : Params} {h : Hdr} (hk : kindOf p h = .fir) : isFir p h = true := by
  unfold kindOf at hk
  split at hk
  · assumption
  · split at hk <;> cases hk

theorem isRpsi_of_kindOf {p : Params} {h : Hdr} (hk : kindOf p h = .rpsi) : isRpsi p h = true := by
  unfold kindOf at hk
  split at hk
  · cases hk
  · split at hk
    · assumption
    · cases hk

/-- Settles O34: an accepted header lies in the window with its whole block, and `DISPATCH` names the parse
whose test it passes. -/
theorem parseSequenceNeverFatal : Obligations.ParseSequenceNeverFatal := by
  unfold Obligations.ParseSequenceNeverFatal
  intro s base avail hf hrx
  obtain hbad | ⟨x, hok, hw⟩ := execHdrParse_written hrx
  · exact ⟨s.badHeader, hbad, hf, .inl ⟨rfl, rfl⟩⟩
  · let t : State := { s with hdr := some x, status := .ok }
    let u : State := { t with result := .kind (kindOf s.params x) }
    have hdispatch : exec .dispatch t = .next u := execDispatch_of_hdr (s := t) rfl
    have hwu : PayloadWritten u x := ⟨hw.inRx, hw.written⟩
    refine ⟨t, hok, hf, .inr ⟨rfl, u, kindOf s.params x, hdispatch, hf, rfl, fun hk => ?_,
      fun hk => ?_⟩⟩
    · obtain ⟨f, st, hparse, hst⟩ := execFirParse_written (s := u) rfl (isFir_of_kindOf hk) hwu
      exact ⟨_, hparse, hf, hst⟩
    · obtain ⟨m, st, hparse, hst⟩ := execRpsiParse_written (s := u) rfl (isRpsi_of_kindOf hk) hwu
      exact ⟨_, hparse, hf, hst⟩

end Sys2Proof.Machine

/-! PROOFS. A build under the launch premises of 70_reset_and_hazards.md R203: it writes its block at once, or
waits for `K`, whose one answer ends it. -/

namespace Sys2Proof.Machine

variable {s t : State}

/-! ## How a build ends -/

/-- A build begun in `s` has ended well in `t`, with at most one record more in `FLUSHLOG`. -/
structure EndsWell (s t : State) : Prop where
  good : Good t
  status : t.status = .ok ∨ t.status = .buildFailed
  flushLog : t.flushLog.length ≤ s.flushLog.length + 1

/-- With room a build that may go on ends `Ok`. -/
theorem ReadyToWrite.endsWell_of_room {b : Builder} {block : List Byte} (h : ReadyToWrite t b block)
    (hf : t.fatal = none) (hp : t.phase = .idle) (hduty : t.maxlen ≤ t.params.txSize)
    (hroom : t.cur + block.length ≤ t.maxlen)
    (hlog : t.flushLog.length ≤ s.flushLog.length + 1) : EndsWell s (resume b t) := by
  rw [h.resume_room hduty hroom]
  exact ⟨⟨hf, hp⟩, .inl rfl, hlog⟩

/-- An operation with a block to write gives up as a build does (R164). -/
theorem ReadyToWrite.giveUp_eq_ends {b : Builder} {block : List Byte} (h : ReadyToWrite s b block)
    (t : State) : giveUp b t = t.ends .buildFailed := by
  obtain ⟨rfl, -⟩ | ⟨rfl, -⟩ := h <;> rfl

/-! ## A build that waits for `K` -/

/-- The build that the next step of `s` begins, of the bytes `block`, waits in `t` for the answer to its first
invocation of `K`. -/
structure BuildWaits (s t : State) (k : Invocation) (block : List Byte) : Prop where
  waits : WaitsIn s t
  formats : FormatsDiffer t
  phase : t.phase = .inK k
  ready : ReadyToWrite t k.builder block
  fatal : t.fatal = none
  duty : t.maxlen ≤ t.params.txSize
  flushLog : t.flushLog = s.flushLog

/-- The premises of R203 on `K`, for a build of a block of `n` bytes that the next step of `s` begins. -/
structure HonestK (s : State) (n : Nat) : Prop where
  total : KTotal s
  honest : KHonest s n
  quiet : KQuiet s
  exclusive : Exclusive s
  inTx : KInTx s

/-- An answer ends the build: with `Ok` where it is success, since `K` then has made room, and with
`BuildFailed` where it is failure. -/
theorem BuildWaits.step_of_answer {k : Invocation} {block : List Byte} {a : KAnswer} {rest : List Event}
    (h : BuildWaits s t k block) (hk : HonestK s block.length)
    (ha : kAnswer? k t = some (a, rest)) : ∃ u, step t = .next u ∧ EndsWell s u := by
  have hw : WritesInTx t a := hk.inTx.1 t k a rest h.waits h.phase ha
  refine ⟨_, step_kReturns h.formats h.phase ha hw, ?_⟩
  have hlog : (t.adopt k a).flushLog.length ≤ s.flushLog.length + 1 := by
    rw [State.adopt_flushLog, h.flushLog, List.length_append, List.length_singleton]
  cases hsucc : a.success with
  | true =>
    have hroom := hk.honest t k a rest h.waits h.phase ha hsucc
    rw [kReturns_of_success hsucc]
    exact h.ready.endsWell_of_room (t := State.adopt { t with inbox := rest } k a) h.fatal rfl
      h.duty hroom hlog
  | false =>
    rw [kReturns_of_failure hsucc, h.ready.giveUp_eq_ends]
    exact ⟨⟨h.fatal, rfl⟩, .inr rfl, hlog⟩

/-- An event that is neither an answer of `K` nor forbidden by `KQuiet` and `Exclusive` changes TX and `CUR`
at most. -/
theorem takeInK_quiet {e : Event} (hret : ∀ a, e ≠ .kReturn a) (hq : e.quiet = true)
    (hx : e.exclusive = true)
    (htx : ∀ a bytes, e = .writeTx a bytes → a + bytes.length ≤ t.params.txSize) (k : Invocation) :
    ∃ m c w, takeInK k e t = .next { t with tx := m, cur := c, curWritten := w } := by
  cases e with
  | command | micro | writeFir | writeRpsi | setMaxlen => cases hq
  | writeRx | installK | reset => cases hx
  | kReturn a => exact absurd rfl (hret a)
  | writeTx a bytes => exact ⟨_, _, _, hostWriteTx_inside (htx a bytes rfl)⟩
  | setCur n => exact ⟨_, _, _, rfl⟩
  | read v => exact ⟨_, _, _, (if_pos hx).trans (hostRead_of_readableInK hx t)⟩

/-- Any other event leaves the build waiting. -/
theorem BuildWaits.step_of_event {k : Invocation} {block : List Byte} {e : Event} {rest : List Event}
    (h : BuildWaits s t k block) (hk : HonestK s block.length) (ha : kAnswer? k t = none)
    (hi : t.inbox = e :: rest) :
    ∃ u, step t = .next u ∧ BuildWaits s u k block ∧ u.inbox = rest := by
  have hret : ∀ a, e ≠ .kReturn a := by
    rintro a rfl
    rw [kAnswer?_kReturn hi] at ha
    cases ha
  obtain ⟨m, c, w, he⟩ := takeInK_quiet (t := { t with inbox := rest }) hret
    (hk.quiet t k e rest h.waits h.phase ha hi) (hk.exclusive t k e rest h.waits h.phase ha hi)
    (hk.inTx.2 t k e rest h.waits h.phase ha hi) k
  have hstep := (step_event h.formats h.phase ha hi).trans he
  exact ⟨_, hstep, ⟨h.waits.step hstep h.phase, h.formats, h.phase, h.ready, h.fatal, h.duty,
    h.flushLog⟩, rfl⟩

/-- Where nothing answers yet, `KTotal` has the answer among the events to come. -/
theorem BuildWaits.inbox_ne_nil {k : Invocation} {block : List Byte} (h : BuildWaits s t k block)
    (hk : HonestK s block.length) (ha : kAnswer? k t = none) : t.inbox ≠ [] := by
  intro hi
  obtain hc | ⟨a, hmem⟩ := hk.total t h.waits
  · obtain ⟨c, hc⟩ := Option.isSome_iff_exists.1 hc
    rw [kAnswer?_installed hc (by simp [hi]) (by simp [hi])] at ha
    cases ha
  · rw [hi] at hmem
    cases hmem

/-- A build that waits ends in the next step, or it still waits, with fewer events to come. -/
theorem BuildWaits.progress {k : Invocation} {block : List Byte} (h : BuildWaits s t k block)
    (hk : HonestK s block.length) :
    (∃ u, step t = .next u ∧ EndsWell s u) ∨
      ∃ u, BuildWaits s u k block ∧ u.inbox.length < t.inbox.length := by
  cases ha : kAnswer? k t with
  | some answer => exact .inl (h.step_of_answer hk ha)
  | none =>
    obtain ⟨e, rest, hi⟩ := List.exists_cons_of_ne_nil (h.inbox_ne_nil hk ha)
    obtain ⟨u, -, hu, rfl⟩ := h.step_of_event hk ha hi
    exact .inr ⟨u, hu, by simp [hi]⟩

/-- A waiting build comes to the answer that ends it, by recursion on the events to come. -/
theorem BuildWaits.exists_end {t : State} {k : Invocation} {block : List Byte}
    (h : BuildWaits s t k block) (hk : HonestK s block.length) :
    ∃ u v, WaitsIn s u ∧ step u = .next v ∧ EndsWell s v := by
  obtain ⟨v, hv, hend⟩ | ⟨u, hu, hlt⟩ := h.progress hk
  · exact ⟨t, v, h.waits, hv, hend⟩
  · exact hu.exists_end hk
termination_by t.inbox.length

/-! ## The command -/

/-- A step that takes the command of a build runs it as `resume` does. -/
theorem step_build {c : Command} {b : Builder} {rest : List Event} (hfd : FormatsDiffer s)
    (hf : s.fatal = none) (hp : s.phase = .idle) (hi : s.inbox = .command c :: rest)
    (hd : decodeCommand c = .ok b.instr) : step s = .next (resume b { s with inbox := rest }) :=
  (stepRunsCommand s c b.instr rest hfd hp hf hi hd).trans (exec_builder_instr b _)

/-- A build command whose register allows it, the length of its block being `n`. -/
theorem exists_readyToWrite {c : Command} {n : Nat}
    (h : c.op = 0x21 ∧ (∃ f, FirReady s f ∧ n = 12 + 8 * f.reqs.length) ∨
      c.op = 0x31 ∧ ∃ m, RpsiReady s m ∧ n = rpsiBlockLen m.pictureId.toNat) :
    ∃ b block, decodeCommand c = .ok b.instr ∧ ReadyToWrite s b block ∧ block.length = n := by
  obtain ⟨hop, f, hr, rfl⟩ | ⟨hop, m, hr, rfl⟩ := h
  · exact ⟨.fir, wireFir s.params f, decodeCommand_ok_iff.2 ⟨hop, by simp [Builder.instr]⟩,
      .inl ⟨rfl, f, hr, rfl⟩, wireFir_length _ _⟩
  · exact ⟨.rpsi, wireRpsi s.params m, decodeCommand_ok_iff.2 ⟨hop, by simp [Builder.instr]⟩,
      .inr ⟨rfl, m, hr, rfl⟩, wireRpsi_length _ _⟩

/-- Settles O32: with room the command is one step; without it the build waits, and the end that
`BuildWaits.exists_end` finds is its next step. -/
theorem honestContinuationEndsBuild : Obligations.HonestContinuationEndsBuild := by
  unfold Obligations.HonestContinuationEndsBuild
  rintro s c rest n hf hfd ⟨-, -, -, hduty⟩ hp hi hbuild htotal hhonest hquiet hexcl hintx
  obtain ⟨b, block, hd, hready, rfl⟩ := exists_readyToWrite hbuild
  have hstep := step_build hfd hf hp hi hd
  have hready' : ReadyToWrite { s with inbox := rest } b block := hready
  rcases Nat.lt_or_ge s.maxlen (s.cur + block.length) with hroom | hroom
  · rw [resume_noRoom hready'.waitsFor hroom] at hstep
    have hwaits : BuildWaits s (State.callK { s with inbox := rest } b) _ block :=
      ⟨WaitsIn.first hstep rfl, hfd, rfl, hready, hf, hduty, rfl⟩
    obtain ⟨u, v, ⟨j, hj, hall⟩, hv, hgood, hstatus, hlog⟩ :=
      hwaits.exists_end ⟨htotal, hhonest, hquiet, hexcl, hintx⟩
    refine ⟨j + 1, v, ?_, hgood, hstatus, hlog, fun i w hlt hw => hall i w (by omega) hw⟩
    rw [steps_add 1 hj]
    simp only [steps, hv]
  · obtain ⟨hgood, hstatus, hlog⟩ :=
      hready'.endsWell_of_room (s := s) hf hp hduty hroom (Nat.le_succ _)
    exact ⟨0, _, by simp only [steps, hstep], hgood, hstatus, hlog, fun i _ hlt => by omega⟩

end Sys2Proof.Machine
